-- ==== Sys2Proof/Word.lean ====
section
/-! DEFINITION. The words of the block: the 32-bit bus word that is also every datapath register (R11, R14), the 12-bit
window offset (R200) and the narrow fields of a command word (R301). -/

namespace Sys2Proof

/-- `b32` of R14: a 32-bit bit vector; the datapath reads it as an IEEE 754 binary32 datum. -/
abbrev Word := BitVec 32

/-- A byte lane of the bus (R202). -/
abbrev Byte := BitVec 8

/-- `off[11:0]`: a byte offset in the 4096-byte register window (R200). -/
abbrev Offset := BitVec 12

/-- The 4-bit context index field of a command word (R301, R304). -/
abbrev CtxIndex := BitVec 4

/-- The filter kind, the source's `FilterKind` enumeration (R17, R110). -/
inductive Kind where
  /-- lowpass -/
  | lp
  /-- highpass -/
  | hp
  /-- bandpass -/
  | bp
  /-- bandstop -/
  | bs
deriving DecidableEq, Repr

end Sys2Proof
end

