-- ==== Sys2Proof/Config.lean ====
section
/-! DEFINITION. What this hardware fixes (R9, R10, R103, R104), the host-side parameters with the spec's example values
(R12, R607, R653), and the free values: what the spec calls `any value` (93_implementation_defined.md items 1 and 10). -/

namespace Sys2Proof.Config

/-- `NUM_CONTEXTS` of this hardware (R10). The machine itself reads the number of contexts from its state (log 1), so
this number only sizes `State.reset`. -/
def numContexts : Nat := 4

/-- `MAX_SECTIONS` (R9): fixed, not a parameter. -/
def maxSections : Nat := 2

/-- The constant that `ID` reads (R103): the ASCII bytes "IIRB". -/
def idValue : Word := 0x49495242#32

/-- `PARAM.REV` (R104). -/
def revision : BitVec 8 := 0x01#8

/-- The host-side parameters that a model takes as arguments and never fixes (R12, R607, R652, R653). -/
structure HostParams where
  /-- `TAN_SAT`: the saturated value of `htan` (R607). -/
  tanSat : Word
  /-- `TAN_EPS`: the threshold of the saturation (R607). -/
  tanEps : Word
  /-- `DISPATCH_BIAS` (R652). -/
  dispatchBias : Word
  /-- `OUT_MIN` (R653). -/
  outMin : Word
  /-- `OUT_MAX` (R653). -/
  outMax : Word
deriving DecidableEq, Repr

/-- The values of the spec's own examples: 10000 and 1e-5 (R607), no bias (R652), the range 0 to 4095 (R653). Only tests
use them. -/
def exampleParams : HostParams where
  tanSat := 0x461C4000#32
  tanEps := 0x3727C5AC#32
  dispatchBias := 0x00000000#32
  outMin := 0x00000000#32
  outMax := 0x457FF000#32

/-- FREE VALUE (R610, item 1): the section count of a design whose preconditions are violated. The arguments are the kind,
the order, the sample rate, the single cutoff and the two band edges. The designer bounds it by `maxSections`. -/
opaque freeDesignCount : Kind → Int → Word → Word → Word → Word → Nat

/-- FREE VALUE (R610, item 1): the words of a design whose preconditions are violated; the last argument numbers the
coefficient register. -/
opaque freeDesignWord : Kind → Int → Word → Word → Word → Word → Nat → Word

/-- FREE VALUE (R653, item 10): what the clamp of a NaN delivers, from the NaN and the two bounds. The dispatcher keeps
it inside the range. -/
opaque freeClamp : Word → Word → Word → Word

end Sys2Proof.Config
end

