-- ==== Sys2Proof/Syntax.lean ====
section
/-! DEFINITION. The command set: one constructor of `Instr` per row of spec/opcode_table.json (R302, R307), and the names
of the ways a word can fail to be a command (R306). -/

namespace Sys2Proof

/-- A command of the block (`Command` of R305 without `ILLEGAL`, which is the decoder's verdict and no instruction). -/
inductive Instr where
  /-- `NOP` (R420). -/
  | nop
  /-- `EVALU c, #n`: evaluate context `c` on the unsigned sample `n` (R430). -/
  | evalu (c : CtxIndex) (n : BitVec 16)
  /-- `EVALX c`: evaluate context `c` on the sample held in `XIN` (R440). -/
  | evalx (c : CtxIndex)
  /-- `CLEAR c`: zero the delay registers and `OUT` of context `c` (R450). -/
  | clear (c : CtxIndex)
deriving DecidableEq, Repr

/-- Why a word decodes as `ILLEGAL`: the five bullets of R306. The block records none of these names (R703), only the bit
`ILLCMD`; where several apply, the decoder answers the first in this order of tests (log 8). -/
inductive Illegal where
  /-- `OP` is `0x4` to `0xF`. -/
  | reservedOp
  /-- `OP` is 0 and a bit of 27:0 is set. -/
  | nopBitsSet
  /-- `EVALU` with a bit of 23:16 set. -/
  | reservedFieldSet
  /-- `EVALX` or `CLEAR` with a bit of 23:0 set. -/
  | operandBitsSet
  /-- `CTX` is at or above `NUM_CONTEXTS`. -/
  | noSuchContext
deriving DecidableEq, Repr

end Sys2Proof
end

