-- ==== Sys2Proof/WellFormed.lean ====
section
/-! DEFINITION. When a command is well formed for a block with `nctx` contexts (R303, R305, R307): every operand but the
context index is legal at every value of its field. -/

namespace Sys2Proof

/-- `c < NUM_CONTEXTS`, the one operand check of R305; `NOP` has no operand. -/
def Instr.wellFormed (nctx : Nat) : Instr → Bool
  | .nop => true
  | .evalu c _ => decide (c.toNat < nctx)
  | .evalx c => decide (c.toNat < nctx)
  | .clear c => decide (c.toNat < nctx)

end Sys2Proof
end

