-- ==== Sys2Proof/Decode.lean ====
section
/-! DEFINITION. The decoder of command words (R301, R304, R305), total on every word and rejecting by name (R306), the byte
lanes a word crosses the bus in (R202), and after it the encoder (R303) and the assembler (R307). -/

namespace Sys2Proof

/-- `OP = w[31:28]` (R301). -/
def opField (w : Word) : BitVec 4 := w.extractLsb' 28 4

/-- `CTX = w[27:24]` (R301, R304): an unsigned index, never extended or scaled. -/
def ctxField (w : Word) : CtxIndex := w.extractLsb' 24 4

/-- `RSV = w[23:16]` (R301). -/
def rsvField (w : Word) : BitVec 8 := w.extractLsb' 16 8

/-- `IMM = w[15:0]` (R301). -/
def immField (w : Word) : BitVec 16 := w.extractLsb' 0 16

/-- `Decode` of R305 for a block with `nctx` contexts. -/
def decode (nctx : Nat) (w : Word) : Except Illegal Instr :=
  if opField w = 0x0#4 then
    if w.extractLsb' 0 28 = 0#28 then .ok .nop else .error .nopBitsSet
  else if opField w = 0x1#4 then
    if rsvField w = 0#8 then
      if (ctxField w).toNat < nctx then .ok (.evalu (ctxField w) (immField w)) else .error .noSuchContext
    else .error .reservedFieldSet
  else if opField w = 0x2#4 then
    if w.extractLsb' 0 24 = 0#24 then
      if (ctxField w).toNat < nctx then .ok (.evalx (ctxField w)) else .error .noSuchContext
    else .error .operandBitsSet
  else if opField w = 0x3#4 then
    if w.extractLsb' 0 24 = 0#24 then
      if (ctxField w).toNat < nctx then .ok (.clear (ctxField w)) else .error .noSuchContext
    else .error .operandBitsSet
  else .error .reservedOp

/-- Byte lane `k` of a bus word: bits `8k+7 : 8k` (R202). -/
def laneByte (w : Word) (k : Fin 4) : Byte := w.extractLsb' (8 * k.val) 8

/-- The word that four byte lanes carry, lane 0 first: little-endian (R202). -/
def wordOfLanes (b0 b1 b2 b3 : Byte) : Word := b3 ++ b2 ++ b1 ++ b0

/-- Decoding the four byte lanes of a command word. -/
def decodeBytes (nctx : Nat) (b0 b1 b2 b3 : Byte) : Except Illegal Instr :=
  decode nctx (wordOfLanes b0 b1 b2 b3)

/-- An instruction of at most 32 bits as the opcode table numbers it, laid out as one bus word: the bits above `nbits`
are 0. Every command is one 32-bit word (R300). -/
def tableWord (nbits w : Nat) : Word := BitVec.ofNat 32 (w % 2 ^ nbits)

/-- What the decoder of this hardware (`NUM_CONTEXTS` = 4, R10) reads from a row of the opcode table. The word goes
through its byte lanes, as it crosses the bus. -/
def decodeTableWord (nbits w : Nat) : Option Instr :=
  let v := tableWord nbits w
  match decodeBytes Config.numContexts (laneByte v 0) (laneByte v 1) (laneByte v 2) (laneByte v 3) with
  | .ok i => some i
  | .error _ => none

/-- A command word from its four fields (R301), the most significant first. -/
def packCommand (op : BitVec 4) (c : CtxIndex) (rsv : BitVec 8) (imm : BitVec 16) : Word := op ++ c ++ rsv ++ imm

/-- The word of a command (R303). -/
def encode : Instr → Word
  | .nop => 0x00000000#32
  | .evalu c n => packCommand 0x1#4 c 0#8 n
  | .evalx c => packCommand 0x2#4 c 0#8 0#16
  | .clear c => packCommand 0x3#4 c 0#8 0#16

/-- The match word of a command's row in R303. -/
def rowMatch : Instr → Word
  | .nop => 0x00000000#32
  | .evalu _ _ => 0x10000000#32
  | .evalx _ => 0x20000000#32
  | .clear _ => 0x30000000#32

/-- The mask of a command's row in R303. -/
def rowMask : Instr → Word
  | .nop => 0xFFFFFFFF#32
  | .evalu _ _ => 0xF0FF0000#32
  | .evalx _ => 0xF0FFFFFF#32
  | .clear _ => 0xF0FFFFFF#32

/-- A line of assembler input (R307): operands are numbers as the programmer writes them. -/
inductive AsmLine where
  | nop
  | evalu (c n : Nat)
  | evalx (c : Nat)
  | clear (c : Nat)
deriving DecidableEq, Repr

/-- The assembler (R307): it refuses `c ≥ NUM_CONTEXTS` and `n` outside 0 to 65535, and otherwise emits the row's word. A
`c` above 15 has no field value and is refused whatever `nctx` is. -/
def assemble (nctx : Nat) : AsmLine → Option Word
  | .nop => some (encode .nop)
  | .evalu c n =>
    if c < nctx ∧ c < 16 ∧ n ≤ 65535 then some (encode (.evalu (BitVec.ofNat 4 c) (BitVec.ofNat 16 n))) else none
  | .evalx c => if c < nctx ∧ c < 16 then some (encode (.evalx (BitVec.ofNat 4 c))) else none
  | .clear c => if c < nctx ∧ c < 16 then some (encode (.clear (BitVec.ofNat 4 c))) else none

/-- The assembler text of a command (R307): `c` in decimal, `n` in decimal. -/
def Instr.asm : Instr → String
  | .nop => "NOP"
  | .evalu c n => "EVALU " ++ toString c.toNat ++ ", #" ++ toString n.toNat
  | .evalx c => "EVALX " ++ toString c.toNat
  | .clear c => "CLEAR " ++ toString c.toNat

end Sys2Proof
end

