-- ==== Sys2Proof/Machine/Numerics.lean ====
section
/-! DEFINITION. The datapath's binary32 arithmetic (42_numerics.md): every magnitude is counted in units of 2^-149, the
smallest subnormal, so that a finite datum is a whole number of units and an exact sum, product or quotient is a fraction
of two natural numbers, rounded once (R502). The host designer uses the same operations and a division (R601 to R603). -/

namespace Sys2Proof.Machine

/-- `S = b[31]` (R501). -/
def signBit (b : Word) : Bool := b.msb

/-- The biased exponent `E = b[30:23]` (R501). -/
def expField (b : Word) : Nat := (b.extractLsb' 23 8).toNat

/-- The fraction `F = b[22:0]` (R501). -/
def fracField (b : Word) : Nat := (b.extractLsb' 0 23).toNat

/-- A NaN, quiet or signalling (R501). -/
def isNaN (b : Word) : Bool := expField b == 255 && fracField b != 0

/-- An infinity (R501). -/
def isInf (b : Word) : Bool := expField b == 255 && fracField b == 0

/-- A zero of either sign (R501). -/
def isZero (b : Word) : Bool := expField b == 0 && fracField b == 0

/-- Zero, subnormal or normal: a datum with a real value (R501). -/
def isFinite (b : Word) : Bool := expField b != 255

/-- The magnitude of a finite datum in units of 2^-149 (R501): `F` for a zero or subnormal, `(2^23 + F) * 2^(E-1)` for a
normal number. The same formula puts an infinity above every finite magnitude, at 2^277, which only the ordered comparison
`flt32` uses (log 11). -/
def magnitude (b : Word) : Nat :=
  if expField b = 0 then fracField b else (2 ^ 23 + fracField b) * 2 ^ (expField b - 1)

/-- The value of a finite datum in units of 2^-149, with its sign (R501). -/
def value (b : Word) : Int := if signBit b then -(magnitude b : Int) else (magnitude b : Int)

/-- The canonical NaN (R505). -/
def canonicalNaN : Word := 0x7FC00000#32

/-- A word from its sign and its lower 31 bits. -/
def withSign (s : Bool) (m : Nat) : Word := BitVec.ofNat 32 (if s then 2 ^ 31 + m else m)

/-- The zero of a sign. -/
def signedZero (s : Bool) : Word := withSign s 0

/-- The lower 31 bits of an infinity. -/
def infBits : Nat := 0x7F800000

/-- The infinity of a sign. -/
def signedInf (s : Bool) : Word := withSign s infBits

/-- `2^128 - 2^103` in units of 2^-149: the least exact magnitude that rounds to infinity (R502). -/
def overflowUnits : Nat := (2 ^ 25 - 1) * 2 ^ 252

/-- The exponent of the spacing of binary32 numbers around a magnitude whose whole part is `k` units: the spacing is
`2^(spacing k)` units, one unit for the subnormals and the smallest normals. -/
def spacing (k : Nat) : Nat := if k < 2 ^ 24 then 0 else k.log2 - 23

/-- The fraction `p/q` to the nearest whole number, a tie to the even one. -/
def roundHalfEven (p q : Nat) : Nat :=
  let m := p / q
  let r := p % q
  if 2 * r < q then m else if q < 2 * r then m + 1 else if m % 2 = 0 then m else m + 1

/-- The lower 31 bits of the binary32 number nearest to `p/q` units, ties to even, overflow to infinity (R502, log 12). Above the
subnormals the significand `m` stands between 2^23 and 2^24, and `spacing * 2^23 + m` is its encoding, a carry out of the
significand included. -/
def roundBits (p q : Nat) : Nat :=
  if overflowUnits * q ≤ p then infBits
  else
    let e := spacing (p / q)
    e * 2 ^ 23 + roundHalfEven p (q * 2 ^ e)

/-- `RNE` of the exact real with sign `s` and magnitude `p/q` units (R502). -/
def rne (s : Bool) (p q : Nat) : Word := withSign s (roundBits p q)

/-- `neg(b)`: bit 31 inverted (R504). -/
def neg32 (b : Word) : Word := b ^^^ 0x80000000#32

/-- `|b|`: bit 31 cleared (R603). -/
def abs32 (b : Word) : Word := b &&& 0x7FFFFFFF#32

/-- `fadd32(a, b)` (R503). -/
def fadd32 (a b : Word) : Word :=
  if isNaN a || isNaN b then canonicalNaN
  else if isInf a && isInf b && (signBit a != signBit b) then canonicalNaN
  else if isInf a then a
  else if isInf b then b
  else if isZero a && isZero b then signedZero (signBit a && signBit b)
  else if isZero a then b
  else if isZero b then a
  else
    let r := value a + value b
    if r = 0 then signedZero false else rne (decide (r < 0)) r.natAbs 1

/-- `fsub32(a, b)` (R504). -/
def fsub32 (a b : Word) : Word := fadd32 a (neg32 b)

/-- `fmul32(a, b)` (R505). -/
def fmul32 (a b : Word) : Word :=
  let s := signBit a ^^ signBit b
  if isNaN a || isNaN b then canonicalNaN
  else if (isInf a && isZero b) || (isZero a && isInf b) then canonicalNaN
  else if isInf a || isInf b then signedInf s
  else if isZero a || isZero b then signedZero s
  else rne s (magnitude a * magnitude b) (2 ^ 149)

/-- `fdiv32(a, b)`, which only the host designer uses (R511, R602). -/
def fdiv32 (a b : Word) : Word :=
  let s := signBit a ^^ signBit b
  if isNaN a || isNaN b then canonicalNaN
  else if (isInf a && isInf b) || (isZero a && isZero b) then canonicalNaN
  else if isInf a then signedInf s
  else if isInf b then signedZero s
  else if isZero a then signedZero s
  else if isZero b then signedInf s
  else rne s (magnitude a * 2 ^ 149) (magnitude b)

/-- `flt32(a, b)` (R603): the ordered comparison, false on a NaN, the two zeros equal. -/
def flt32 (a b : Word) : Bool := !isNaN a && !isNaN b && decide (value a < value b)

/-- `u2f32(n)` (R508): the integer `n` as binary32. It is exact for `n < 2^24`, the only use the spec makes of it. -/
def u2f32 (n : Nat) : Word := rne false (n * 2 ^ 149) 1

/-- The binary32 constant 2.0 of the output mixes (R510). -/
def two32 : Word := 0x40000000#32

end Sys2Proof.Machine
end

