-- ==== Sys2Proof/Machine/State.lean ====
section
/-! DEFINITION. The state of the block as plain data: the record of R122, the level of the reset input (R800), and the
model's own two lists, the bus traffic still to come and the read data returned (log 2, log 3). Its reset value (R123),
and the reasons a step can stop. -/

namespace Sys2Proof.Machine

/-- The registers of one section slot of a context (R114, R115): gain, four feedback coefficients, five delay registers.
Storage is uniform across kinds (R116). -/
structure Section where
  /-- `A[i]`, the gain -/
  a : Word
  /-- `D1[i]` -/
  d1 : Word
  /-- `D2[i]` -/
  d2 : Word
  /-- `D3[i]` -/
  d3 : Word
  /-- `D4[i]` -/
  d4 : Word
  /-- `W[i][0]` -/
  w0 : Word
  /-- `W[i][1]` -/
  w1 : Word
  /-- `W[i][2]` -/
  w2 : Word
  /-- `W[i][3]` -/
  w3 : Word
  /-- `W[i][4]` -/
  w4 : Word
deriving DecidableEq, Repr

/-- One filter context (R108): `CTRL` (R109), `OUT` (R112), `RG`, `SG` (R113) and `MAX_SECTIONS` = 2 section slots. -/
structure Context where
  /-- `CTRL.KIND` (R110) -/
  kind : Kind
  /-- `CTRL.NSEC` (R111): 0 to 2, an invariant of the machine kept by the write rule of `CTRL` -/
  nsec : BitVec 2
  /-- `OUT` -/
  out : Word
  /-- `RG`, the source's `r_global` -/
  rg : Word
  /-- `SG`, the source's `s_global` -/
  sg : Word
  /-- the registers of section 0 -/
  sec0 : Section
  /-- the registers of section 1 -/
  sec1 : Section
deriving DecidableEq, Repr

/-- The size `n` of a bus access in bytes: 1, 2 or 4 (R400). -/
inductive Width where
  /-- 8 bits: `RD8`, `WR8` (R308) -/
  | byte
  /-- 16 bits: `RD16`, `WR16` (R308) -/
  | half
  /-- 32 bits: `RD`, `WR` (R308) -/
  | word
deriving DecidableEq, Repr

/-- A host bus access (R400). -/
inductive Access where
  /-- `Read(off, n)` -/
  | read (off : Offset) (n : Width)
  /-- `Write(off, n, v)` -/
  | write (off : Offset) (n : Width) (v : Word)
deriving DecidableEq, Repr

/-- What reaches the block from outside, one at a time: a bus access (R210), or a change of the reset input (R800). -/
inductive PortEvent where
  /-- one bus access arrives at the port -/
  | access (a : Access)
  /-- the reset input is driven to this level; `true` asserts it -/
  | reset (level : Bool)
deriving DecidableEq, Repr

/-- The machine. `xin`, `illcmd`, `accerr` and `ctx` are the record of R122; `ID`, `PARAM` and `CMD` hold no state. -/
structure State where
  /-- `XIN` (R107) -/
  xin : Word
  /-- `STATUS.ILLCMD` (R105) -/
  illcmd : Bool
  /-- `STATUS.ACCERR` (R105) -/
  accerr : Bool
  /-- `CTX` (R108), context 0 first; its length is `NUM_CONTEXTS` (R10, log 1) -/
  ctx : List Context
  /-- the level of the reset input (R800, log 4) -/
  resetAsserted : Bool
  /-- the model's own: what the outside has presented and the block has not taken, in arrival order (R210, log 2) -/
  port : List PortEvent
  /-- the model's own: the read data returned so far, newest first (R8, log 3) -/
  reads : List Word
deriving DecidableEq, Repr

/-- Why a step stops with a fault. There is no reason: the block raises no exception, trap, fault or abort (R700), and its
step function never fails (R400). Safe: a type without constructors lets no step fault. -/
inductive Fault where
deriving DecidableEq, Repr

/-- Why a step is refused. -/
inductive Refusal where
  /-- An instruction without a meaning; raised by `exec` alone, and by no arm of it now. Safe: the machine stops. -/
  | notModelled (mnemonic : String)
  /-- A bus access at the head of the port while the reset input is asserted; raised by the step, by no instruction. R800:
  the platform presents none; 93_implementation_defined.md item 21: `refuse`. Safe: the machine stops. -/
  | accessDuringReset
deriving DecidableEq, Repr

/-- The registers of a section after reset (R123): every one `0x00000000`. -/
def Section.reset : Section := ⟨0, 0, 0, 0, 0, 0, 0, 0, 0, 0⟩

/-- A context after reset (R123): `LP`, no section, every register `0x00000000`. -/
def Context.reset : Context := ⟨.lp, 0, 0, 0, 0, Section.reset, Section.reset⟩

/-- The state after reset of a block with `n` contexts (R123, R800), nothing presented and nothing read yet. -/
def State.resetWith (n : Nat) : State where
  xin := 0
  illcmd := false
  accerr := false
  ctx := List.replicate n Context.reset
  resetAsserted := false
  port := []
  reads := []

/-- The state after reset of this hardware: `NUM_CONTEXTS` = 4 (R10). -/
def State.reset : State := State.resetWith Config.numContexts

end Sys2Proof.Machine
end

