-- ==== Sys2Proof/Machine/Flags.lean ====
section
/-! DEFINITION. The status bits: the two sticky error bits of `STATUS` (R105) and the error causes that set them (R701).
The block has no condition codes and no floating-point flags (R102, R509). -/

namespace Sys2Proof.Machine

/-- The two error causes (R701). -/
inductive ErrorCause where
  /-- a legal write to `CMD` of a word that decodes as `ILLEGAL` -/
  | illcmd
  /-- a bus access of a size other than 4 bytes or at a misaligned offset -/
  | accerr
deriving DecidableEq, Repr

/-- The code of a cause: the bit of `STATUS` it sets (R701). -/
def ErrorCause.code : ErrorCause → Nat
  | .illcmd => 0
  | .accerr => 1

/-- What a read of `STATUS` returns: `zext_32({ACCERR, ILLCMD})` (R122, R403). -/
def State.statusWord (s : State) : Word :=
  (0#30 ++ BitVec.ofBool s.accerr ++ BitVec.ofBool s.illcmd : BitVec 32)

/-- Recording an error: `STATUS.<code> <- 1` and nothing else (R702). It stands where another machine takes an exception:
this block saves nothing, changes no mode and transfers no control (R704), and there is no return (R705). -/
def State.recordError (s : State) : ErrorCause → State
  | .illcmd => { s with illcmd := true }
  | .accerr => { s with accerr := true }

/-- A write of `v` to `STATUS`: write 1 to clear, bit by bit; bits 31:2 are ignored (R105, R406). -/
def State.clearStatus (s : State) (v : Word) : State :=
  { s with illcmd := s.illcmd && !v.getLsbD 0, accerr := s.accerr && !v.getLsbD 1 }

end Sys2Proof.Machine
end

