-- ==== Sys2Proof/Machine/Ops.lean ====
section
/-! DEFINITION. The named operations over the registers: the address decoding of the window (R401, R118), the read and the
write of one section or context register, and the selection of a context. -/

namespace Sys2Proof.Machine

/-- `NUM_CONTEXTS` (R10): how many contexts the block has. -/
def State.numContexts (s : State) : Nat := s.ctx.length

/-- Context `c`. Address decoding and command decoding let no `c ≥ NUM_CONTEXTS` come here. -/
def State.context (s : State) (c : Nat) : Context := s.ctx.getD c Context.reset

/-- Update context `c` and nothing else (R108: contexts share no register). -/
def State.updContext (s : State) (c : Nat) (f : Context → Context) : State := { s with ctx := s.ctx.modify c f }

/-- The state with what stands at the port replaced: how an event is taken off it (R210). -/
def State.withPort (s : State) (rest : List PortEvent) : State := { s with port := rest }

/-- The register names of a section slot (R114, R115). -/
inductive SecReg where
  | a | d1 | d2 | d3 | d4 | w0 | w1 | w2 | w3 | w4
deriving DecidableEq, Repr

/-- The offset of a section register from `SB(c, i)` (R114, R115). -/
def SecReg.offset : SecReg → Nat
  | .a => 0x00
  | .d1 => 0x04
  | .d2 => 0x08
  | .d3 => 0x0C
  | .d4 => 0x10
  | .w0 => 0x20
  | .w1 => 0x24
  | .w2 => 0x28
  | .w3 => 0x2C
  | .w4 => 0x30

/-- The delay registers `W[i][j]`, which `CLEAR` zeroes and an evaluation may write. -/
def SecReg.isDelay : SecReg → Bool
  | .a | .d1 | .d2 | .d3 | .d4 => false
  | .w0 | .w1 | .w2 | .w3 | .w4 => true

/-- Read a section register. -/
def Section.get (k : Section) : SecReg → Word
  | .a => k.a
  | .d1 => k.d1
  | .d2 => k.d2
  | .d3 => k.d3
  | .d4 => k.d4
  | .w0 => k.w0
  | .w1 => k.w1
  | .w2 => k.w2
  | .w3 => k.w3
  | .w4 => k.w4

/-- Write a section register, all 32 bits verbatim (R410). -/
def Section.set (k : Section) (r : SecReg) (v : Word) : Section :=
  match r with
  | .a => { k with a := v }
  | .d1 => { k with d1 := v }
  | .d2 => { k with d2 := v }
  | .d3 => { k with d3 := v }
  | .d4 => { k with d4 := v }
  | .w0 => { k with w0 := v }
  | .w1 => { k with w1 := v }
  | .w2 => { k with w2 := v }
  | .w3 => { k with w3 := v }
  | .w4 => { k with w4 := v }

/-- Section slot `i` of a context. -/
def Context.sec (k : Context) (i : Fin 2) : Section := if i = 0 then k.sec0 else k.sec1

/-- Replace section slot `i` of a context. -/
def Context.setSec (k : Context) (i : Fin 2) (x : Section) : Context :=
  if i = 0 then { k with sec0 := x } else { k with sec1 := x }

/-- What an offset of the window names (R401, R118). -/
inductive Target where
  | id | param | status | cmd | xin | reserved
  | ctrl (c : Nat)
  | out (c : Nat)
  | rg (c : Nat)
  | sg (c : Nat)
  | sec (c : Nat) (i : Fin 2) (r : SecReg)
deriving DecidableEq, Repr

/-- `CB(c)`, the base of context `c` (R108). -/
def contextBase (c : Nat) : Nat := 0x100 * (c + 1)

/-- `SB(c, i)`, the base of section `i` of context `c` (R108). -/
def sectionBase (c : Nat) (i : Fin 2) : Nat := contextBase c + 0x10 + 0x40 * i.val

/-- The section register at offset `q` of a 64-byte section block, if `q` names one (R401). -/
def secRegAt (q : Nat) : Option SecReg :=
  if q = 0x00 then some .a
  else if q = 0x04 then some .d1
  else if q = 0x08 then some .d2
  else if q = 0x0C then some .d3
  else if q = 0x10 then some .d4
  else if q = 0x20 then some .w0
  else if q = 0x24 then some .w1
  else if q = 0x28 then some .w2
  else if q = 0x2C then some .w3
  else if q = 0x30 then some .w4
  else none

/-- The register at offset `r` of the 256-byte block of context `c` (R401). -/
def locateInContext (c r : Nat) : Target :=
  if r = 0x00 then .ctrl c
  else if r = 0x04 then .out c
  else if r = 0x08 then .rg c
  else if r = 0x0C then .sg c
  else if 0x10 ≤ r ∧ r < 0x90 then
    match secRegAt ((r - 0x10) % 0x40) with
    | some q => .sec c (if r < 0x50 then 0 else 1) q
    | none => .reserved
  else .reserved

/-- `Locate(off)` of R401 for a block with `nctx` contexts. -/
def locate (nctx : Nat) (off : Offset) : Target :=
  if off.toNat = 0x000 then .id
  else if off.toNat = 0x004 then .param
  else if off.toNat = 0x008 then .status
  else if off.toNat = 0x00C then .cmd
  else if off.toNat = 0x010 then .xin
  else if off.toNat < 0x100 then .reserved
  else if off.toNat / 0x100 - 1 < nctx then locateInContext (off.toNat / 0x100 - 1) (off.toNat % 0x100)
  else .reserved

/-- The offset of a target (R118): the map read the other way. `reserved` names no single offset. -/
def Target.offset : Target → Option Nat
  | .id => some 0x000
  | .param => some 0x004
  | .status => some 0x008
  | .cmd => some 0x00C
  | .xin => some 0x010
  | .reserved => none
  | .ctrl c => some (contextBase c)
  | .out c => some (contextBase c + 0x04)
  | .rg c => some (contextBase c + 0x08)
  | .sg c => some (contextBase c + 0x0C)
  | .sec c i r => some (sectionBase c i + r.offset)

/-- The context a target belongs to; `none` for the global registers and the reserved offsets. -/
def Target.context? : Target → Option Nat
  | .id | .param | .status | .cmd | .xin | .reserved => none
  | .ctrl c => some c
  | .out c => some c
  | .rg c => some c
  | .sg c => some c
  | .sec c _ _ => some c

/-- The offset a platform address reaches: the block ignores the bits above bit 11 (R200). -/
def windowOffset (addr : Nat) : Offset := BitVec.ofNat 12 addr

/-- `Legal(off, n)`: 4 bytes wide at a 4-byte-aligned offset (R203, R400). -/
def legalAccess (off : Offset) (n : Width) : Bool := decide (n = .word ∧ off.extractLsb' 0 2 = 0#2)

/-- The 2-bit `KIND` field of a kind (R110). -/
def kindBits : Kind → BitVec 2
  | .lp => 0#2
  | .hp => 1#2
  | .bp => 2#2
  | .bs => 3#2

/-- The kind a `KIND` field names; all four values are legal (R110). -/
def kindOfBits (b : BitVec 2) : Kind :=
  if b = 0#2 then .lp else if b = 1#2 then .hp else if b = 2#2 then .bp else .bs

/-- `min(v, MAX_SECTIONS)` on the `NSEC` field (R109, R111). -/
def clampNsec (b : BitVec 2) : BitVec 2 := if Config.maxSections < b.toNat then BitVec.ofNat 2 Config.maxSections else b

/-- What a read of `CTRL` returns: `zext_32({NSEC, 2'b00, KIND})` (R109, R403). -/
def Context.ctrlWord (k : Context) : Word := (0#26 ++ k.nsec ++ 0#2 ++ kindBits k.kind : BitVec 32)

/-- A write of `v` to `CTRL` (R109, R409): `KIND` and `NSEC` only, the reserved bits of `v` ignored. -/
def Context.writeCtrl (k : Context) (v : Word) : Context :=
  { k with kind := kindOfBits (v.extractLsb' 0 2), nsec := clampNsec (v.extractLsb' 4 2) }

/-- What a read of `PARAM` returns: `zext_32({8'h01, NUM_CONTEXTS[3:0], 4'h2})` (R104, R403). -/
def paramWord (nctx : Nat) : Word :=
  (0#16 ++ Config.revision ++ BitVec.ofNat 4 nctx ++ BitVec.ofNat 4 Config.maxSections : BitVec 32)

/-- The value of a located register (R403). -/
def State.readTarget (s : State) : Target → Word
  | .id => Config.idValue
  | .param => paramWord s.numContexts
  | .status => s.statusWord
  | .cmd => 0
  | .xin => s.xin
  | .reserved => 0
  | .ctrl c => (s.context c).ctrlWord
  | .out c => (s.context c).out
  | .rg c => (s.context c).rg
  | .sg c => (s.context c).sg
  | .sec c i r => ((s.context c).sec i).get r

/-- `ReadReg(s, off)` (R403): free of side effects. -/
def State.readReg (s : State) (off : Offset) : Word := s.readTarget (locate s.numContexts off)

/-- The write of a located register other than `CMD` (R404 to R406, R408 to R411). `CMD` holds no state, so as a register
it takes nothing (R106); the command itself is run by `writeReg`. -/
def State.writeTarget (s : State) (t : Target) (v : Word) : State :=
  match t with
  | .id => s
  | .param => s
  | .status => s.clearStatus v
  | .cmd => s
  | .xin => { s with xin := v }
  | .reserved => s
  | .ctrl c => s.updContext c (fun k => k.writeCtrl v)
  | .out _ => s
  | .rg c => s.updContext c (fun k => { k with rg := v })
  | .sg c => s.updContext c (fun k => { k with sg := v })
  | .sec c i r => s.updContext c (fun k => k.setSec i ((k.sec i).set r v))

/-- Byte lane `k` of a register word: bits `8k+7 : 8k` (R202). -/
def registerLane (w : Word) (k : Nat) : Byte := w.extractLsb' (8 * k) 8

/-- The byte at window offset `a` as a platform that forms words from bytes sees it (R202): lane `a[1:0]` of the aligned
register word. The block itself accepts only whole-word accesses (log 10). -/
def State.windowByte (s : State) (a : Offset) : Byte :=
  registerLane (s.readReg (a &&& 0xFFC#12)) (a.extractLsb' 0 2).toNat

/-- Every register back to the value of R123, the number of contexts kept; the model's own lists and the reset level are
no registers and stay (log 4). -/
def State.resetRegisters (s : State) : State :=
  { s with xin := 0, illcmd := false, accerr := false, ctx := List.replicate s.numContexts Context.reset }

/-- The reset input is driven to a level (R800). Releasing an asserted reset puts every register at its reset value;
driving the level it already has changes nothing (log 4). -/
def State.driveReset (s : State) (level : Bool) : State :=
  if level then { s with resetAsserted := true }
  else if s.resetAsserted then { s.resetRegisters with resetAsserted := false }
  else s

end Sys2Proof.Machine
end

