-- ==== Sys2Proof/Machine/Operands.lean ====
section
/-! DEFINITION. The operand forms of the commands (R304): the immediate sample of `EVALU`, the register sample of `EVALX`,
and the context index, which every command but `NOP` carries. -/

namespace Sys2Proof.Machine

/-- The input sample of `EVALU`: `u2f32(zext_32(n))` (R304, R430). -/
def immediateSample (n : BitVec 16) : Word := u2f32 n.toNat

/-- The input sample of `EVALX`: `XIN`, all 32 bits verbatim (R304, R440). -/
def State.registerSample (s : State) : Word := s.xin

/-- Run `f` on the context a command names. An index at or above `NUM_CONTEXTS` makes the command's word `ILLEGAL` (R305,
R306), and `ILLEGAL` sets `ILLCMD` and does nothing else (R470); the decoder lets no such command reach here (log 7). -/
def onContext (s : State) (c : CtxIndex) (f : Context → Context) : Host.Outcome State Fault Refusal :=
  if c.toNat < s.numContexts then .next (s.updContext c.toNat f) else .next (s.recordError .illcmd)

end Sys2Proof.Machine
end

