-- ==== Sys2Proof/Machine/Control.lean ====
section
/-! DEFINITION. The meanings of the commands that compute nothing: `NOP` (R420), `CLEAR` (R450), and the effect of a word
that is no command, `ILLEGAL` (R470). -/

namespace Sys2Proof.Machine

/-- `NOP` (R420): nothing changes. -/
def execNop (s : State) : Host.Outcome State Fault Refusal := .next s

/-- Every delay register of a section to +0.0 (R450). -/
def Section.clearDelays (k : Section) : Section := { k with w0 := 0, w1 := 0, w2 := 0, w3 := 0, w4 := 0 }

/-- `Clear` of R450 on the context itself: every delay register of both sections, used or not, and `OUT`. -/
def Context.clear (k : Context) : Context :=
  { k with sec0 := k.sec0.clearDelays, sec1 := k.sec1.clearDelays, out := 0 }

/-- `CLEAR c` (R450). -/
def execClear (c : CtxIndex) (s : State) : Host.Outcome State Fault Refusal := onContext s c Context.clear

/-- `ILLEGAL` (R470): `ILLCMD ← 1`, nothing else changes. -/
def execIllegal (s : State) : Host.Outcome State Fault Refusal := .next (s.recordError .illcmd)

end Sys2Proof.Machine
end

