-- ==== Sys2Proof/Machine/Evaluate.lean ====
section
/-! DEFINITION. The cascade evaluator (43_cascade.md): the four section kernels, the cascade over the used sections, and the
meanings of `EVALU` and `EVALX`. -/

namespace Sys2Proof.Machine

/-- `w0` of a two-pole section: `d1·w1 + d2·w2 + v` (R560, R565). -/
def feedback2 (k : Section) (v : Word) : Word :=
  fadd32 (fadd32 (fmul32 k.d1 k.w1) (fmul32 k.d2 k.w2)) v

/-- `w0` of a four-pole section: `d1·w1 + d2·w2 + d3·w3 + d4·w4 + v` (R570, R575). -/
def feedback4 (k : Section) (v : Word) : Word :=
  fadd32 (fadd32 (fadd32 (fadd32 (fmul32 k.d1 k.w1) (fmul32 k.d2 k.w2)) (fmul32 k.d3 k.w3)) (fmul32 k.d4 k.w4)) v

/-- The shift of a two-pole section: `w2 ← w1`, `w1 ← w0`, and `W[i][0]` holds the new `w0` (R115, R560). -/
def shift2 (k : Section) (w0 : Word) : Section := { k with w2 := k.w1, w1 := w0, w0 := w0 }

/-- The shift of a four-pole section: all four registers down by one (R570). -/
def shift4 (k : Section) (w0 : Word) : Section :=
  { k with w4 := k.w3, w3 := k.w2, w2 := k.w1, w1 := w0, w0 := w0 }

/-- `A·(w0 + 2·w1 + w2)` (R560). -/
def mixLP (k : Section) (w0 : Word) : Word :=
  fmul32 k.a (fadd32 (fadd32 w0 (fmul32 two32 k.w1)) k.w2)

/-- `A·(w0 − 2·w1 + w2)` (R565). -/
def mixHP (k : Section) (w0 : Word) : Word :=
  fmul32 k.a (fadd32 (fsub32 w0 (fmul32 two32 k.w1)) k.w2)

/-- `A·(w0 − 2·w2 + w4)` (R570). -/
def mixBP (k : Section) (w0 : Word) : Word :=
  fmul32 k.a (fadd32 (fsub32 w0 (fmul32 two32 k.w2)) k.w4)

/-- `A·(w0 − r·w1 + s·w2 − r·w3 + w4)` with the filter-wide `r`, `s` (R575). -/
def mixBS (r s : Word) (k : Section) (w0 : Word) : Word :=
  fmul32 k.a
    (fadd32 (fsub32 (fadd32 (fsub32 w0 (fmul32 r k.w1)) (fmul32 s k.w2)) (fmul32 r k.w3)) k.w4)

/-- A section after its evaluation, and its output. -/
abbrev SectionResult := Section × Word

/-- `Section_LP` (R560). -/
def sectionLP (k : Section) (v : Word) : SectionResult :=
  (shift2 k (feedback2 k v), mixLP k (feedback2 k v))

/-- `Section_HP` (R565). -/
def sectionHP (k : Section) (v : Word) : SectionResult :=
  (shift2 k (feedback2 k v), mixHP k (feedback2 k v))

/-- `Section_BP` (R570). -/
def sectionBP (k : Section) (v : Word) : SectionResult :=
  (shift4 k (feedback4 k v), mixBP k (feedback4 k v))

/-- `Section_BS` (R575). -/
def sectionBS (r s : Word) (k : Section) (v : Word) : SectionResult :=
  (shift4 k (feedback4 k v), mixBS r s k (feedback4 k v))

/-- `Section_k` of R550: the kernel of the context's kind, from the values before the section ran (R552). -/
def runSection (kind : Kind) (rg sg : Word) (k : Section) (v : Word) : SectionResult :=
  match kind with
  | .lp => sectionLP k v
  | .hp => sectionHP k v
  | .bp => sectionBP k v
  | .bs => sectionBS rg sg k v

/-- The sections an evaluation runs, in order: 0 to `NSEC` − 1 (R550, C8), never a slot at or above `NSEC` (R117). -/
def Context.usedSections (k : Context) : List (Fin 2) := [0, 1].take k.nsec.toNat

/-- One turn of the loop of R550: section `i` consumes `v`, and its output is the next `v`. -/
def cascadeTurn (st : Context × Word) (i : Fin 2) : Context × Word :=
  let r := runSection st.1.kind st.1.rg st.1.sg (st.1.sec i) st.2
  (st.1.setSec i r.1, r.2)

/-- `Evaluate` of R550 on the context itself: the loop, then `OUT ← v`. With no used section the input passes to `OUT`
verbatim (R551). -/
def Context.evaluate (k : Context) (x : Word) : Context :=
  let st := k.usedSections.foldl cascadeTurn (k, x)
  { st.1 with out := st.2 }

/-- `EVALU c, #n` (R430). -/
def execEvalu (c : CtxIndex) (n : BitVec 16) (s : State) : Host.Outcome State Fault Refusal :=
  onContext s c (fun k => k.evaluate (immediateSample n))

/-- `EVALX c` (R440). -/
def execEvalx (c : CtxIndex) (s : State) : Host.Outcome State Fault Refusal :=
  onContext s c (fun k => k.evaluate s.registerSample)

end Sys2Proof.Machine
end

