-- ==== Sys2Proof/Machine/Dispatch.lean ====
section
/-! DEFINITION. Command dispatch (R415): one arm per constructor of `Instr`. -/

namespace Sys2Proof.Machine

def exec (i : Instr) (s : State) : Host.Outcome State Fault Refusal :=
  match i with
  | .nop => Sys2Proof.Machine.execNop s
  | .evalu c n => Sys2Proof.Machine.execEvalu c n s
  | .evalx c => Sys2Proof.Machine.execEvalx c s
  | .clear c => Sys2Proof.Machine.execClear c s

end Sys2Proof.Machine
end

