-- ==== Sys2Proof/Machine/Bus.lean ====
section
/-! DEFINITION. The bus side of the block: one host access applied to the state (R400), the write of a register with the
write to `CMD` that runs a command (R404, R407), and the event at the head of the port (R210, R800). -/

namespace Sys2Proof.Machine

/-- `Exec(s, Decode(v))` of R407: a word written to `CMD` is decoded and run; a word that is no command is `ILLEGAL`. -/
def runCommand (s : State) (v : Word) : Host.Outcome State Fault Refusal :=
  match decode s.numContexts v with
  | .ok i => exec i s
  | .error _ => execIllegal s

/-- `WriteReg(s, off, v)` (R404). -/
def writeReg (s : State) (off : Offset) (v : Word) : Host.Outcome State Fault Refusal :=
  match locate s.numContexts off with
  | .cmd => runCommand s v
  | t => .next (s.writeTarget t v)

/-- The read data of an access, the second component of R400: the register for a legal read, 0 for everything else. -/
def accessData (s : State) : Access → Word
  | .read off n => if legalAccess off n then s.readReg off else 0
  | .write _ _ _ => 0

/-- One host access, the function `Step(s, a)` of R400 with its read data appended to `reads` (log 3). The size and the
alignment are checked first; an illegal access sets `ACCERR` and its data is never decoded (R402, R703). -/
def takeAccess (s : State) (a : Access) : Host.Outcome State Fault Refusal :=
  match a with
  | .read off n =>
    let s' := if legalAccess off n then s else s.recordError .accerr
    .next { s' with reads := accessData s a :: s.reads }
  | .write off n v => if legalAccess off n then writeReg s off v else .next (s.recordError .accerr)

/-- One event at the port. While reset is asserted the block takes no access (R800): one presented all the same is refused
(93_implementation_defined.md item 21, log 5). -/
def takeEvent (s : State) (e : PortEvent) : Host.Outcome State Fault Refusal :=
  match e with
  | .reset level => .next (s.driveReset level)
  | .access a => if s.resetAsserted then .refused .accessDuringReset else takeAccess s a

/-- One step: the oldest event at the port is taken and acts whole (R205, R206, R210). With nothing at the port the block
does nothing: it never starts an action on its own (R7). -/
def stepPort (s : State) : Host.Outcome State Fault Refusal :=
  match s.port with
  | [] => .next s
  | e :: rest => takeEvent (s.withPort rest) e

/-- The write `WR 0x00C, w` (R308), which is how a command word reaches the block (R106, R300). -/
def commandWrite (w : Word) : PortEvent := .access (.write 0x00C#12 .word w)

/-- The host presents a command word as the next thing at the port of a block that is out of reset (log 6). -/
def State.presentCommand (s : State) (w : Word) : State :=
  { s with port := commandWrite w :: s.port, resetAsserted := false }

end Sys2Proof.Machine
end

