-- ==== Sys2Proof/Machine/Step.lean ====
section
/-! DEFINITION. One step of the machine, and where its next command comes from: the block fetches nothing (R101), so the
"fetch" is the host's write of the command word to `CMD`, at the head of the port (log 6). -/

namespace Sys2Proof.Machine

/-- One step (R400): the oldest event at the port. -/
def step (s : State) : Host.Outcome State Fault Refusal := stepPort s

/-- The machine run until it has taken the `n` oldest events of its port, stopping where a step stops. -/
def runEvents (n : Nat) (s : State) : Host.Outcome State Fault Refusal :=
  match n with
  | 0 => .next s
  | k + 1 =>
    match step s with
    | .next t => runEvents k t
    | .fault e => .fault e
    | .refused e => .refused e

/-- `s` with the table's word presented as the next write to `CMD` (log 6). -/
def State.withFetchWord (s : State) (nbits w : Nat) : State := s.presentCommand (tableWord nbits w)

end Sys2Proof.Machine
end

