-- ==== Sys2Proof/Machine/BusMaster.lean ====
section
/-! DEFINITION. The host's side of the bus: the pseudo-instructions as the accesses they stand for (R308, R309), and the
configuration and reset sequences (R820, R821), and the duties of a host (R810 to R812, R820). Host software, outside the
block: nothing here is state. -/

namespace Sys2Proof.Machine

/-- `MemRead(off, n)` (R15). -/
def memRead (off : Nat) (n : Width) : Access := .read (windowOffset off) n

/-- `MemWrite(off, n, v)` (R15). -/
def memWrite (off : Nat) (n : Width) (v : Word) : Access := .write (windowOffset off) n v

/-- `WR off, v` (R308). -/
def wr (off : Nat) (v : Word) : Access := memWrite off .word v

/-- `RD off` (R308). -/
def rd (off : Nat) : Access := memRead off .word

/-- `WR8 off, v` (R308): always illegal. -/
def wr8 (off : Nat) (v : Word) : Access := memWrite off .byte v

/-- `RD8 off` (R308): always illegal. -/
def rd8 (off : Nat) : Access := memRead off .byte

/-- `WR16 off, v` (R308): always illegal. -/
def wr16 (off : Nat) (v : Word) : Access := memWrite off .half v

/-- `RD16 off` (R308): always illegal. -/
def rd16 (off : Nat) : Access := memRead off .half

/-- Which offset of the window a platform address reaches when the platform has placed the window at `base`, the parameter
`IIRBQ_BASE` (R200); `none` where the address is outside the window and the block sees nothing. -/
def platformOffset (base addr : Nat) : Option Offset :=
  if base ≤ addr ∧ addr < base + 4096 then some (windowOffset addr) else none

/-- A command in a program stands for the write of its word to `CMD` (R308). -/
def cmd (i : Instr) : Access := wr 0x00C (encode i)

/-- The accesses of a bus master as they arrive at the port, in program order (R210). -/
def asEvents (l : List Access) : List PortEvent := l.map .access

/-- `EVALF c, f` (R309). -/
def evalf (c : CtxIndex) (f : Word) : List Access := [wr 0x010 f, cmd (.evalx c)]

/-- `CFG c, kind, nsec` (R309). -/
def cfg (c : Nat) (kind : Kind) (nsec : BitVec 2) : List Access :=
  [wr (contextBase c) (0#26 ++ nsec ++ 0#2 ++ kindBits kind : BitVec 32)]

/-- The coefficients of one designed section (R600). -/
structure Coeffs where
  a : Word
  d1 : Word
  d2 : Word
  d3 : Word
  d4 : Word
deriving DecidableEq, Repr

/-- `SETSEC c, i, A, D1, D2, D3, D4` (R309). -/
def setsec (c : Nat) (i : Fin 2) (q : Coeffs) : List Access :=
  [wr (sectionBase c i + 0x00) q.a, wr (sectionBase c i + 0x04) q.d1, wr (sectionBase c i + 0x08) q.d2,
   wr (sectionBase c i + 0x0C) q.d3, wr (sectionBase c i + 0x10) q.d4]

/-- The short form `SETSEC c, i, A, D1, D2` (R309): `D3` and `D4` are written zero. -/
def setsec2 (c : Nat) (i : Fin 2) (a d1 d2 : Word) : List Access := setsec c i ⟨a, d1, d2, 0, 0⟩

/-- `SETBS c, RG, SG` (R309). -/
def setbs (c : Nat) (rg sg : Word) : List Access := [wr (contextBase c + 0x08) rg, wr (contextBase c + 0x0C) sg]

/-- `CLRSTAT` (R309). -/
def clrstat : List Access := [wr 0x008 0x00000003#32]

/-- A design (R600): the kind, the designed sections in order (their number is `NSEC`), and the two filter-wide words. -/
structure Design where
  kind : Kind
  secs : List Coeffs
  rg : Word
  sg : Word
deriving DecidableEq, Repr

/-- The `SETSEC` writes of a design, one per section (R820 step 3). -/
def setSections (c : Nat) : List Coeffs → List Access
  | [] => []
  | [q0] => setsec c 0 q0
  | q0 :: q1 :: _ => setsec c 0 q0 ++ setsec c 1 q1

/-- The `CFG` that opens the configuration of context `c` for a design (R309, R820 step 1). -/
def cfgDesign (c : Nat) (d : Design) : List Access := cfg c d.kind (BitVec.ofNat 2 d.secs.length)

/-- `LOADFILTER c, design` (R309), its exact expansion: `CFG`, `SETBS` for `BS` only, one `SETSEC` per section, then
`CLEAR c`. -/
def loadFilter (c : CtxIndex) (d : Design) : List Access :=
  cfgDesign c.toNat d ++ (if d.kind = .bs then setbs c.toNat d.rg d.sg else []) ++ setSections c.toNat d.secs ++
    [cmd (.clear c)]

/-- The words R820 step 3 writes for a designed section: `D3` and `D4` are zero for `LP` and `HP`. -/
def Coeffs.forKind (kind : Kind) (q : Coeffs) : Coeffs :=
  match kind with
  | .lp | .hp => { q with d3 := 0, d4 := 0 }
  | .bp | .bs => q

/-- What R820 writes for a design: `RG` and `SG` are zero for every kind but `BS` (step 2), `D3` and `D4` for `LP` and `HP`
(step 3). -/
def Design.bootWords (d : Design) : Design where
  kind := d.kind
  secs := d.secs.map (Coeffs.forKind d.kind)
  rg := if d.kind = .bs then d.rg else 0
  sg := if d.kind = .bs then d.sg else 0

/-- The boot and configuration sequence of R820, and the re-design of R821: `CFG`, `SETBS` for every kind, one `SETSEC` per
section, then `CLEAR c`. A host that skips step 2 where `RG` and `SG` are zero already sends, for a designed filter,
`loadFilter` (log 23). -/
def bootSequence (c : CtxIndex) (d : Design) : List Access :=
  cfgDesign c.toNat d ++ setbs c.toNat d.bootWords.rg d.bootWords.sg ++ setSections c.toNat d.bootWords.secs ++
    [cmd (.clear c)]

/-- The return of context `c` to its exact reset state without a reset (R821): zero to `CTRL`, `RG`, `SG`, every `A` and
`D`, then `CLEAR c`. -/
def restoreReset (c : CtxIndex) : List Access :=
  [wr (contextBase c.toNat) 0] ++ setbs c.toNat 0 0 ++ setsec c.toNat 0 ⟨0, 0, 0, 0, 0⟩ ++
    setsec c.toNat 1 ⟨0, 0, 0, 0, 0⟩ ++ [cmd (.clear c)]

/-! ### The host's duties (R810, R811, R812, R820), which a model checks on the host's accesses and the block does not
check -/

/-- What an access is to a context, as the duties speak of it. -/
inductive DutyKind where
  /-- a write of `CTRL` of the context: one of the writes of a reconfiguration (R820 step 1), or a change of the kind or
  the section count alone, which R812 allows without `CLEAR` -/
  | writesControl
  /-- a write of `A`, `D1` to `D4`, `RG` or `SG` of the context, which only a reconfiguration makes (R812) -/
  | writesCoefficient
  /-- a write of a delay register of the context (R812) -/
  | writesHistory
  /-- `EVALU` or `EVALX` on the context -/
  | evaluates
  /-- `CLEAR` on the context -/
  | clears
  /-- anything else -/
  | other
deriving DecidableEq, Repr

/-- What a command is to context `c`. -/
def commandDuty (c : Nat) : Instr → DutyKind
  | .nop => .other
  | .evalu d _ => if d.toNat = c then .evaluates else .other
  | .evalx d => if d.toNat = c then .evaluates else .other
  | .clear d => if d.toNat = c then .clears else .other

/-- What a legal write of `v` to a target is to context `c` of a block with `nctx` contexts. -/
def writeDuty (nctx c : Nat) (t : Target) (v : Word) : DutyKind :=
  match t with
  | .cmd =>
    match decode nctx v with
    | .ok i => commandDuty c i
    | .error _ => .other
  | .ctrl d => if d = c then .writesControl else .other
  | .rg d | .sg d => if d = c then .writesCoefficient else .other
  | .sec d _ r => if d = c then if r.isDelay then .writesHistory else .writesCoefficient else .other
  | .id | .param | .status | .xin | .reserved | .out _ => .other

/-- What an access is to context `c` of a block with `nctx` contexts. -/
def accessDuty (nctx c : Nat) : Access → DutyKind
  | .read _ _ => .other
  | .write off n v => if legalAccess off n then writeDuty nctx c (locate nctx off) v else .other

/-- The host's account of its traffic. Which accesses make up one reconfiguration is the host's to say: the accesses alone do
not tell `CFG` as its first write (R820) from a change of the kind alone (R812), so the host marks its ends (log 24). -/
inductive HostAction where
  /-- an access is presented at the port -/
  | access (a : Access)
  /-- the next write to context `c`, or `CLEAR c`, is the first of a reconfiguration of it -/
  | begins (c : CtxIndex)
  /-- the reconfiguration of context `c` is over: its last write and its final `CLEAR c` have been presented -/
  | ends (c : CtxIndex)
deriving DecidableEq, Repr

/-- What reaches the port of what a host does: its accesses. -/
def HostAction.presented : List HostAction → List Access
  | [] => []
  | .access a :: l => a :: HostAction.presented l
  | .begins _ :: l => HostAction.presented l
  | .ends _ :: l => HostAction.presented l

/-- One reconfiguration of context `c` by the accesses `l`, whoever else's accesses stand among them. -/
def reconfigure (c : CtxIndex) (l : List Access) : List HostAction := .begins c :: (l.map .access ++ [.ends c])

/-- The duty of R811 on context `c`, from `inside`, whether a reconfiguration of it is under way: no evaluation of `c` arrives
from the first write of a reconfiguration to its end, and no coefficient of `c` is written outside one (R812). Where `CLEAR`
stands is another duty, `startsZeroed`. -/
def sequencesReconfiguration (nctx c : Nat) (inside : Bool) : List HostAction → Bool
  | [] => true
  | .begins d :: l => sequencesReconfiguration nctx c (if d.toNat = c then true else inside) l
  | .ends d :: l => sequencesReconfiguration nctx c (if d.toNat = c then false else inside) l
  | .access a :: l =>
    (match accessDuty nctx c a with
     | .evaluates => !inside
     | .writesCoefficient => inside
     | .writesControl | .writesHistory | .clears | .other => true) && sequencesReconfiguration nctx c inside l

/-- Where context `c` stands between a reconfiguration and the first evaluation after it (R820). -/
inductive BootPhase where
  /-- it has been evaluated since its last reconfiguration began, or has had none -/
  | running
  /-- its delay registers are not known to be zero -/
  | unzeroed
  /-- `CLEAR c` came after every write of its delay registers -/
  | zeroed
deriving DecidableEq, Repr

/-- `BootPhase` after an access, from what the access is to the context. -/
def BootPhase.after (b : BootPhase) : DutyKind → BootPhase
  | .evaluates => .running
  | .clears => if b = .running then .running else .zeroed
  | .writesHistory => if b = .running then .running else .unzeroed
  | .writesControl | .writesCoefficient | .other => b

/-- The duty of R820 and R812 on context `c`, for the source's zeroed state: `CLEAR c` stands anywhere between the beginning of
a reconfiguration and the first evaluation after it, before the coefficients or after them, and no delay register of `c` is
written between the two. -/
def startsZeroed (nctx c : Nat) (b : BootPhase) : List HostAction → Bool
  | [] => true
  | .begins d :: l => startsZeroed nctx c (if d.toNat = c then .unzeroed else b) l
  | .ends _ :: l => startsZeroed nctx c b l
  | .access a :: l =>
    !(b == .unzeroed && accessDuty nctx c a == .evaluates) && startsZeroed nctx c (b.after (accessDuty nctx c a)) l

/-- The duty of R810 on context `c`: in each tick's accesses exactly one evaluation of `c`. DESIGN CHOICE (log 26): `ticks` is the
caller's, the ticks on which `c` is to be evaluated and no others. R656 lets a context that is not selected go unevaluated,
and the accesses do not tell such a tick from a skipped one, so the caller leaves it out of the list. -/
def evaluatesOncePerTick (nctx c : Nat) (ticks : List (List Access)) : Bool :=
  ticks.all (fun l => (l.map (accessDuty nctx c)).count .evaluates == 1)

/-- The duty of R812 on context `c`: no write of its delay registers. DESIGN CHOICE (log 26): `l` is the caller's, a stretch of
accesses between two evaluations of `c` of one filter history. A write before the first evaluation or after the last is no
breach of R812, so the caller leaves it out of the list. -/
def keepsHistory (nctx c : Nat) (l : List Access) : Bool := !(l.map (accessDuty nctx c)).contains .writesHistory

end Sys2Proof.Machine
end

