-- ==== Sys2Proof/Machine/Designer.lean ====
section
/-! DEFINITION. The host-side coefficient designer (44_host_designer.md): host software outside the block (R600), a pure
function from design inputs to the words a host writes. `none` says that the range reduction of `hsin` has not ended within
`fuel` turns, the spec's `stuck` (93_implementation_defined.md item 7, log 14). -/

namespace Sys2Proof.Machine

/-- `PI` (R604). -/
def piF : Word := 0x40490FDB#32
/-- `TWO_PI` (R604). -/
def twoPiF : Word := 0x40C90FDB#32
/-- `HALF_PI` (R604). -/
def halfPiF : Word := 0x3FC90FDB#32
/-- `FIVE_PI_SQ` (R604). -/
def fivePiSqF : Word := 0x42456460#32
/-- `ONE` (R604). -/
def oneF : Word := 0x3F800000#32
/-- `FOUR` (R604). -/
def fourF : Word := 0x40800000#32
/-- `SIXTEEN` (R604). -/
def sixteenF : Word := 0x41800000#32

/-- `while u > PI: u ← u − TWO_PI` (R605), at most `fuel` tests. -/
def reduceDown : Nat → Word → Option Word
  | 0, _ => none
  | fuel + 1, u => if flt32 piF u then reduceDown fuel (fsub32 u twoPiF) else some u

/-- `while u < −PI: u ← u + TWO_PI` (R605), at most `fuel` tests. -/
def reduceUp : Nat → Word → Option Word
  | 0, _ => none
  | fuel + 1, u => if flt32 u (neg32 piF) then reduceUp fuel (fadd32 u twoPiF) else some u

/-- The rational approximation of R605 on the reduced argument: `16·u·(π−u) / (5π² − 4·u·(π−u))`. -/
def bhaskara (u : Word) : Word :=
  let p := fsub32 piF u
  fdiv32 (fmul32 (fmul32 sixteenF u) p) (fsub32 fivePiSqF (fmul32 (fmul32 fourF u) p))

/-- `hsin(x)` (R605). -/
def hsin (fuel : Nat) (x : Word) : Option Word :=
  ((reduceDown fuel x).bind (reduceUp fuel)).map
    (fun u => if flt32 u 0 then neg32 (bhaskara (neg32 u)) else bhaskara u)

/-- `hcos(x)` (R606). -/
def hcos (fuel : Nat) (x : Word) : Option Word := hsin fuel (fadd32 x halfPiF)

/-- `htan(x)` (R607): saturated to `+TAN_SAT` where the cosine is below `TAN_EPS`. -/
def htan (p : Config.HostParams) (fuel : Nat) (x : Word) : Option Word :=
  (hcos fuel x).bind (fun c =>
    if flt32 (abs32 c) p.tanEps then some p.tanSat else (hsin fuel x).map (fun s => fdiv32 s c))

/-- The design inputs (R610): the kind, the requested order, the sample rate, the cutoff of `LP` and `HP`, and the lower and
upper band edges of `BP` and `BS`. -/
structure DesignInput where
  kind : Kind
  order : Int
  fs : Word
  f : Word
  fl : Word
  fu : Word
deriving DecidableEq, Repr

/-- `x < fs / 2` in exact arithmetic (R610). -/
def belowNyquist (x fs : Word) : Bool := decide (2 * value x < value fs)

/-- The preconditions of R610: order at least 1, sample rate above 0, the cutoff below half of it, the lower edge below the
upper. A frequency is a number, so an infinity or a NaN does not meet them (log 16). -/
def DesignInput.valid (d : DesignInput) : Bool :=
  decide (1 ≤ d.order) && isFinite d.fs && decide (0 < value d.fs) &&
  match d.kind with
  | .lp | .hp => isFinite d.f && belowNyquist d.f d.fs
  | .bp | .bs => isFinite d.fl && isFinite d.fu && flt32 d.fl d.fu && belowNyquist d.fl d.fs && belowNyquist d.fu d.fs

/-- The section count of R611: `order/2` or `order/4`, truncated, at most `MAX_SECTIONS`. -/
def sectionCount (kind : Kind) (order : Nat) : Nat :=
  match kind with
  | .lp | .hp => min (order / 2) Config.maxSections
  | .bp | .bs => min (order / 4) Config.maxSections

/-- The pole term `sin(π·(2i+1)/(4·n))` of section `i` of `n` (R620, R640, D41). -/
def poleTerm (fuel n i : Nat) : Option Word :=
  hsin fuel (fdiv32 (fmul32 piF (u2f32 (2 * i + 1))) (u2f32 (4 * n)))

/-- The angle `π·x/fs` as the pseudocode of R620 and R640 forms it. -/
def angle (x fs : Word) : Word := fdiv32 (fmul32 piF x) fs

/-- One section of an `LP` or `HP` design, from the prototype `a` and the pole term `r` (R620, R630). -/
def coeffsLPHP (kind : Kind) (a r : Word) : Coeffs :=
  let a2 := fmul32 a a
  let twoar := fmul32 (fmul32 two32 a) r
  let sv := fadd32 (fadd32 a2 twoar) oneF
  { a := if kind = .lp then fdiv32 a2 sv else fdiv32 oneF sv
    d1 := fdiv32 (fmul32 two32 (fsub32 oneF a2)) sv
    d2 := fdiv32 (neg32 (fadd32 (fsub32 a2 twoar) oneF)) sv
    d3 := 0
    d4 := 0 }

/-- One section of a `BP` or `BS` design, from the centre mapping `a`, the bandwidth term `b` and the pole term `r`
(R640). -/
def coeffsBPBS (kind : Kind) (a b r : Word) : Coeffs :=
  let a2 := fmul32 a a
  let b2 := fmul32 b b
  let twobr := fmul32 (fmul32 two32 b) r
  let br := fmul32 b r
  let foura := fmul32 fourF a
  let sv := fadd32 (fadd32 b2 twobr) oneF
  { a := if kind = .bp then fdiv32 b2 sv else fdiv32 oneF sv
    d1 := fdiv32 (fmul32 foura (fadd32 oneF br)) sv
    d2 := fdiv32 (fmul32 two32 (fsub32 (fsub32 b2 (fmul32 two32 a2)) oneF)) sv
    d3 := fdiv32 (fmul32 foura (fsub32 oneF br)) sv
    d4 := fdiv32 (neg32 (fadd32 (fsub32 b2 twobr) oneF)) sv }

/-- The sections of a design, section 0 first: `mk` applied to the pole term of each. -/
def designSections (fuel n : Nat) (mk : Word → Coeffs) : Option (List Coeffs) :=
  (List.range n).mapM (fun i => (poleTerm fuel n i).map mk)

/-- `DesignLPHP` (R620, R630). -/
def designLPHP (p : Config.HostParams) (fuel : Nat) (kind : Kind) (order : Nat) (fs f : Word) : Option Design :=
  (htan p fuel (angle f fs)).bind (fun a =>
    (designSections fuel (sectionCount kind order) (coeffsLPHP kind a)).map (fun secs => ⟨kind, secs, 0, 0⟩))

/-- `DesignBPBS` (R640, R641): `RG` and `SG` once, after the sections, for `BS` only. -/
def designBPBS (p : Config.HostParams) (fuel : Nat) (kind : Kind) (order : Nat) (fs fl fu : Word) : Option Design :=
  (hcos fuel (angle (fadd32 fu fl) fs)).bind (fun num =>
    (hcos fuel (angle (fsub32 fu fl) fs)).bind (fun den =>
      (htan p fuel (angle (fsub32 fu fl) fs)).bind (fun b =>
        let a := fdiv32 num den
        (designSections fuel (sectionCount kind order) (coeffsBPBS kind a b)).map (fun secs =>
          if kind = .bs then ⟨kind, secs, fmul32 fourF a, fadd32 (fmul32 fourF (fmul32 a a)) two32⟩
          else ⟨kind, secs, 0, 0⟩))))

/-- The free word number `n` of a design with violated preconditions (R610, log 15). -/
def DesignInput.freeWord (d : DesignInput) (n : Nat) : Word :=
  Config.freeDesignWord d.kind d.order d.fs d.f d.fl d.fu n

/-- A design with violated preconditions (R610): any section count from 0 to 2, any word in every coefficient register
(log 15). -/
def DesignInput.anyDesign (d : DesignInput) : Design where
  kind := d.kind
  secs := (List.range (min (Config.freeDesignCount d.kind d.order d.fs d.f d.fl d.fu) Config.maxSections)).map
    (fun i => ⟨d.freeWord (5 * i), d.freeWord (5 * i + 1), d.freeWord (5 * i + 2), d.freeWord (5 * i + 3),
      d.freeWord (5 * i + 4)⟩)
  rg := d.freeWord 10
  sg := d.freeWord 11

/-- The designer (R610 to R643): the formulas where the preconditions hold, any value where they do not. It raises no error
and reports nothing (R644). -/
def DesignInput.design (p : Config.HostParams) (fuel : Nat) (d : DesignInput) : Option Design :=
  if d.valid then
    match d.kind with
    | .lp | .hp => designLPHP p fuel d.kind d.order.toNat d.fs d.f
    | .bp | .bs => designBPBS p fuel d.kind d.order.toNat d.fs d.fl d.fu
  else some d.anyDesign

end Sys2Proof.Machine
end

