-- ==== Sys2Proof/Machine/Ideal.lean ====
section
/-! DEFINITION. The section kernels in real arithmetic with no rounding (R580, R581). These are properties for reasoning
only: no rule of the block computes them, and the machine never calls this file. Rational numbers stand for the reals. -/

namespace Sys2Proof.Machine

/-- A section with rational registers. -/
structure IdealSection where
  a : ℚ
  d1 : ℚ
  d2 : ℚ
  d3 : ℚ
  d4 : ℚ
  w1 : ℚ
  w2 : ℚ
  w3 : ℚ
  w4 : ℚ
deriving DecidableEq, Repr

/-- The recursion of R560 to R575 without rounding; a two-pole section has `d3 = d4 = 0`. -/
def IdealSection.feedback (k : IdealSection) (v : ℚ) : ℚ :=
  k.d1 * k.w1 + k.d2 * k.w2 + k.d3 * k.w3 + k.d4 * k.w4 + v

/-- The output mix of each kind without rounding (R560, R565, R570, R575). -/
def IdealSection.mix (kind : Kind) (r s : ℚ) (k : IdealSection) (w0 : ℚ) : ℚ :=
  match kind with
  | .lp => k.a * (w0 + 2 * k.w1 + k.w2)
  | .hp => k.a * (w0 - 2 * k.w1 + k.w2)
  | .bp => k.a * (w0 - 2 * k.w2 + k.w4)
  | .bs => k.a * (w0 - r * k.w1 + s * k.w2 - r * k.w3 + k.w4)

/-- One evaluation without rounding: the section after its shift, and the output. -/
def IdealSection.run (kind : Kind) (r s : ℚ) (k : IdealSection) (v : ℚ) : IdealSection × ℚ :=
  ({ k with w1 := k.feedback v, w2 := k.w1, w3 := k.w2, w4 := k.w3 }, k.mix kind r s (k.feedback v))

/-- The outputs of a section on a sequence of inputs, oldest first. -/
def IdealSection.outputs (kind : Kind) (r s : ℚ) : IdealSection → List ℚ → List ℚ
  | _, [] => []
  | k, v :: vs => (k.run kind r s v).2 :: IdealSection.outputs kind r s (k.run kind r s v).1 vs

/-- A section with these coefficients and zero delay state. -/
def IdealSection.fresh (a d1 d2 d3 d4 : ℚ) : IdealSection := ⟨a, d1, d2, d3, d4, 0, 0, 0, 0⟩

/-- The numerator coefficients of R580, from `z⁰` to `z⁻⁴`, the factor `A` apart. -/
def idealNumerator (kind : Kind) (r s : ℚ) : ℚ × ℚ × ℚ × ℚ × ℚ :=
  match kind with
  | .lp => (1, 2, 1, 0, 0)
  | .hp => (1, -2, 1, 0, 0)
  | .bp => (1, 0, -2, 0, 1)
  | .bs => (1, -r, s, -r, 1)

/-- The sample `j` ticks back of a sequence at tick `n`, zero before the start. -/
def delayed (l : List ℚ) (n j : Nat) : ℚ := if j ≤ n then l.getD (n - j) 0 else 0

/-- `H(1)` of R580: the numerator over the denominator at `z = 1`. -/
def idealDcGain (kind : Kind) (a d1 d2 d3 d4 r s : ℚ) : ℚ :=
  let c := idealNumerator kind r s
  a * (c.1 + c.2.1 + c.2.2.1 + c.2.2.2.1 + c.2.2.2.2) / (1 - d1 - d2 - d3 - d4)

end Sys2Proof.Machine
end

