-- ==== Sys2Proof/Machine/ModeDispatcher.lean ====
section
/-! DEFINITION. The host-side mode dispatcher (45_host_dispatcher.md): host software outside the block, pure post-processing
of `OUT` (R650). Its values are binary32 words, the host format this model takes (log 17). -/

namespace Sys2Proof.Machine

/-- The bias (R652): added to the outputs of `HP` and `BP` only, outside the block. -/
def applyBias (p : Config.HostParams) (kind : Kind) (y : Word) : Word :=
  match kind with
  | .hp | .bp => fadd32 y p.dispatchBias
  | .lp | .bs => y

/-- What the clamp of a NaN delivers: any value in `[lo, hi]` (R653, item 10): the free value, brought into the range
(log 18). -/
def anyInRange (z lo hi : Word) : Word :=
  let v := Config.freeClamp z lo hi
  if isNaN v || flt32 v lo then lo else if flt32 hi v then hi else v

/-- `Clamp(z, lo, hi)` (R653). -/
def clampOut (z lo hi : Word) : Word :=
  if isNaN z then anyInRange z lo hi else if flt32 z lo then lo else if flt32 hi z then hi else z

/-- The post-processing of one output: bias, then clamp (R651). -/
def postProcess (p : Config.HostParams) (kind : Kind) (y : Word) : Word :=
  clampOut (applyBias p kind y) p.outMin p.outMax

/-- A sample of the host's (R651): an integer in `[0, 65535]`, or any other sample as its binary32 word. -/
inductive HostSample where
  /-- an integer in `[0, 65535]`, which `EVALU` carries -/
  | integer (n : BitVec 16)
  /-- a sample that is no such integer, which `EVALF` carries through `XIN` -/
  | real (f : Word)
deriving DecidableEq, Repr

/-- The accesses that evaluate context `c` on a sample (R651): `EVALU c, #n`, or `EVALF c, f` (R309). -/
def evaluateSample (c : CtxIndex) : HostSample → List Access
  | .integer n => [cmd (.evalu c n)]
  | .real f => evalf c f

/-- The accesses of one tick (R651): the evaluation of the sample, then the read of `CTX[c].OUT`. -/
def tickAccesses (c : CtxIndex) (x : HostSample) : List Access :=
  evaluateSample c x ++ [rd (contextBase c.toNat + 0x04)]

/-- The bus side of one tick: the dispatcher presents its accesses ahead of whatever else waits at the port, and the block takes
them one by one (log 25); while reset is asserted it refuses the first (R800, log 5). -/
def tickRun (c : CtxIndex) (x : HostSample) (s : State) : Host.Outcome State Fault Refusal :=
  runEvents (tickAccesses c x).length (s.withPort (asEvents (tickAccesses c x) ++ s.port))

/-- `DispatchTick(sample)` (R651): the accesses of the tick, and the data of its read, which is the newest, post-processed. The
selector is a host cell, read once and carried in the command word (R655), and only the selected context is evaluated
(R656). The answer is the state after the accesses and the delivered value. -/
def dispatchTick (p : Config.HostParams) (selector : CtxIndex) (kind : Kind) (x : HostSample) (s : State) :
    Host.Outcome (State × Word) Fault Refusal :=
  match tickRun selector x s with
  | .next t => .next (t, postProcess p kind (t.reads.headD 0))
  | .fault e => .fault e
  | .refused e => .refused e

end Sys2Proof.Machine
end

