-- ==== Sys2Proof/Safety.lean ====
section
/-! DEFINITION. What counts as a well-formed state, a reachable state and a safe outcome, in the terms the statements use. -/

namespace Sys2Proof.Machine

/-- The invariant of a context: `NSEC ≤ MAX_SECTIONS` (R111, R122). -/
abbrev Context.Wf (k : Context) : Prop := k.nsec.toNat ≤ Config.maxSections

/-- The invariant of the machine: `NUM_CONTEXTS` is a legal value of the parameter, 1 to 15 (R10), and every context's
`NSEC` is legal (R122). -/
abbrev State.Inv (s : State) : Prop :=
  1 ≤ s.numContexts ∧ s.numContexts ≤ 15 ∧ ∀ k ∈ s.ctx, k.Wf

/-- A step that runs on (R400: "`Step` never fails"). -/
def Continues (o : Host.Outcome State Fault Refusal) : Prop := ∃ s, o = .next s

/-- What the outside may do between steps: present one more event at the end of the port (R210). -/
def State.present (s : State) (e : PortEvent) : State := { s with port := s.port ++ [e] }

/-- The states of a run from reset, for any legal number of contexts and any traffic (R8, R10). -/
inductive Reachable : State → Prop where
  | reset (n : Nat) (lo : 1 ≤ n) (hi : n ≤ 15) : Reachable (State.resetWith n)
  | step (s t : State) (h : Reachable s) (hs : step s = .next t) : Reachable t
  | present (s : State) (e : PortEvent) (h : Reachable s) : Reachable (s.present e)

/-- Everything of the state but the contexts, unchanged: `XIN`, the two status bits, the reset level, the two lists of the
model, and the number of contexts. -/
def SameGlobals (s t : State) : Prop :=
  t.xin = s.xin ∧ t.illcmd = s.illcmd ∧ t.accerr = s.accerr ∧ t.resetAsserted = s.resetAsserted ∧ t.port = s.port ∧
    t.reads = s.reads ∧ t.numContexts = s.numContexts

/-- A kind whose sections are two-pole biquads (R110): `LP` and `HP`. -/
def twoPole : Kind → Bool
  | .lp | .hp => true
  | .bp | .bs => false

/-- The delay registers an evaluation of a kind writes (R110, R116): `W[i][0..2]` for the two-pole kinds, all five for the
others. -/
def writtenDelay (kind : Kind) (r : SecReg) : Bool :=
  match r with
  | .w0 | .w1 | .w2 => true
  | .w3 | .w4 => !twoPole kind
  | .a | .d1 | .d2 | .d3 | .d4 => false

/-- The offset of the aligned word that holds the window byte at `a` (R202). -/
def wordOffsetOf (a : Offset) : Nat := a.toNat / 4 * 4

/-- The head of the port is a legal write of `v` to `off` and the block takes it. -/
def TakesWrite (s : State) (off : Offset) (v : Word) (rest : List PortEvent) : Prop :=
  s.resetAsserted = false ∧ off.toNat % 4 = 0 ∧ s.port = .access (.write off .word v) :: rest

/-- The head of the port is a legal read of `off` and the block takes it. -/
def TakesRead (s : State) (off : Offset) (rest : List PortEvent) : Prop :=
  s.resetAsserted = false ∧ off.toNat % 4 = 0 ∧ s.port = .access (.read off .word) :: rest

/-- The head of the port is the release of an asserted reset. -/
def ReleasesReset (s : State) : Prop := s.resetAsserted = true ∧ ∃ rest, s.port = .reset false :: rest

/-- How far the finite datum `b` is from the fraction `p/q` in units of 2^-149, times `q`. -/
def roundingError (p q : Nat) (b : Word) : Nat := ((p : Int) - (magnitude b * q : Nat)).natAbs

/-- `b` is the exact real of sign `s` and magnitude `p/q` units rounded as R502 says: to infinity from `2^128 - 2^103` on;
below it to a finite datum of that sign that no finite datum is nearer than, and whose `F[0]` is 0 where another one is
equally near. -/
def RoundsTo (s : Bool) (p q : Nat) (b : Word) : Prop :=
  (overflowUnits * q ≤ p → b = signedInf s) ∧
  (p < overflowUnits * q →
    isFinite b = true ∧ signBit b = s ∧
    ∀ c, isFinite c = true →
      roundingError p q b ≤ roundingError p q c ∧
      (roundingError p q b = roundingError p q c → magnitude c ≠ magnitude b → fracField b % 2 = 0))

/-- Two sections that agree on the registers an evaluation of `kind` reads (R110): the gain, the feedback coefficients and
the delay registers of that kind but `W[i][0]`. -/
def SameUsedRegisters (kind : Kind) (k l : Section) : Prop :=
  k.a = l.a ∧ k.d1 = l.d1 ∧ k.d2 = l.d2 ∧ k.w1 = l.w1 ∧ k.w2 = l.w2 ∧
    (twoPole kind = false → k.d3 = l.d3 ∧ k.d4 = l.d4 ∧ k.w3 = l.w3 ∧ k.w4 = l.w4)

/-- Every coefficient a section can use is finite. -/
def finiteCoefficients (k : Section) : Prop :=
  isFinite k.a = true ∧ isFinite k.d1 = true ∧ isFinite k.d2 = true ∧ isFinite k.d3 = true ∧ isFinite k.d4 = true

/-- Every delay register of a section is a zero of either sign. -/
def zeroDelays (k : Section) : Prop :=
  isZero k.w0 = true ∧ isZero k.w1 = true ∧ isZero k.w2 = true ∧ isZero k.w3 = true ∧ isZero k.w4 = true

/-- The coefficients of a section as the designer hands them over. -/
def Section.coeffs (k : Section) : Coeffs := ⟨k.a, k.d1, k.d2, k.d3, k.d4⟩

/-- Context `c` after a configuration of it, `t` being the block after and `s` before: the kind, the count and the words of
the sections `secs`, the words of the section slots above them as they were, a delay line and an `OUT` of zeros; and nothing
outside the context has changed, no read data has been returned (R820, R821). -/
def Configured (s t : State) (c : Nat) (kind : Kind) (secs : List Coeffs) : Prop :=
  (t.context c).kind = kind ∧ (t.context c).nsec.toNat = secs.length ∧ (t.context c).out = 0x00000000#32 ∧
    (∀ (i : Fin 2) (q : Coeffs), secs[i.val]? = some q → ((t.context c).sec i).coeffs = q) ∧
    (∀ i : Fin 2, secs.length ≤ i.val → ((t.context c).sec i).coeffs = ((s.context c).sec i).coeffs) ∧
    (∀ (i : Fin 2) (r : SecReg), r.isDelay = true → ((t.context c).sec i).get r = 0x00000000#32) ∧
    (∀ e, e ≠ c → t.context e = s.context e) ∧ t.xin = s.xin ∧ t.illcmd = s.illcmd ∧ t.accerr = s.accerr ∧
    t.reads = s.reads

end Sys2Proof.Machine
end

