-- ==== Sys2Proof/Certificates/Slice0/Obligations.lean ====
section
/-! DEFINITION. The statements about the model, for the provers. Each docstring says which rule of spec/ it formalises;
OBLIGATIONS.json lists them in this order. -/

open Sys2Proof Sys2Proof.Machine

/-! ### Reset and the invariant -/

/-- R123: the reset table, register by register, of this hardware's four contexts (R10). -/
def Obligations.ResetHoldsTheResetTable : Prop :=
  State.reset.xin = 0x00000000#32 ∧ State.reset.illcmd = false ∧ State.reset.accerr = false ∧
    State.reset.numContexts = 4 ∧
    ∀ c, c < 4 →
      (State.reset.context c).kind = .lp ∧ (State.reset.context c).nsec = 0#2 ∧
      (State.reset.context c).out = 0x00000000#32 ∧ (State.reset.context c).rg = 0x00000000#32 ∧
      (State.reset.context c).sg = 0x00000000#32 ∧
      ∀ (i : Fin 2) (r : SecReg), ((State.reset.context c).sec i).get r = 0x00000000#32

/-- R800: when an asserted reset is released every register holds its reset value, whatever it held before; the traffic
behind it is next, and the read data already returned stays (log 4). -/
def Obligations.ReleasingResetRestoresEveryRegister : Prop :=
  ∀ (s : State) (rest : List PortEvent), s.resetAsserted = true → s.port = .reset false :: rest →
    ∃ t, step s = .next t ∧ t.xin = 0x00000000#32 ∧ t.illcmd = false ∧ t.accerr = false ∧
      t.numContexts = s.numContexts ∧ t.resetAsserted = false ∧ t.port = rest ∧ t.reads = s.reads ∧
      ∀ c, c < s.numContexts →
        (t.context c).kind = .lp ∧ (t.context c).nsec = 0#2 ∧ (t.context c).out = 0x00000000#32 ∧
        (t.context c).rg = 0x00000000#32 ∧ (t.context c).sg = 0x00000000#32 ∧
        ∀ (i : Fin 2) (r : SecReg), ((t.context c).sec i).get r = 0x00000000#32

/-- R10, R122: the reset state of every legal number of contexts meets the invariant, this hardware's among them. -/
def Obligations.ResetStateMeetsTheInvariant : Prop :=
  (∀ n, 1 ≤ n → n ≤ 15 → (State.resetWith n).Inv) ∧ State.reset.Inv

/-- R122 ("invariant NSEC <= MAX_SECTIONS, kept by rule R109"), R10: from every state that meets the invariant, whatever
stands at its port, a step keeps it, and keeps the number of contexts. -/
def Obligations.EveryStepKeepsTheInvariant : Prop :=
  ∀ s t : State, s.Inv → step s = .next t → t.Inv ∧ t.numContexts = s.numContexts

/-! ### The step -/

/-- R407, R305: a legal write to `CMD` of a word that decodes to `i` is `exec i`, on the state with that access taken. -/
def Obligations.StepRunsTheDecodedCommand : Prop :=
  ∀ (s : State) (v : Word) (rest : List PortEvent) (i : Instr),
    TakesWrite s 0x00C#12 v rest → decode s.numContexts v = .ok i → step s = exec i (s.withPort rest)

/-- R470: a word that is no command sets `ILLCMD`, whatever its previous value, and nothing else changes. The three corner
cases of the rule are such words. -/
def Obligations.IllegalWordSetsOnlyIllcmd : Prop :=
  (∀ (s : State) (v : Word) (rest : List PortEvent) (e : Illegal),
    TakesWrite s 0x00C#12 v rest → decode s.numContexts v = .error e →
      step s = .next { s.withPort rest with illcmd := true }) ∧
  (∃ e, decode 4 0x14000000#32 = .error e) ∧ (∃ e, decode 4 0x10010000#32 = .error e) ∧
  (∃ e, decode 4 0x00000001#32 = .error e) ∧ (∃ e, decode 4 0x40000000#32 = .error e) ∧
  ∀ s : State, s.illcmd = true → s.accerr = false → s.readReg 0x008#12 = 0x00000001#32

/-- R402: an access of another size than 4 bytes, or at an offset with `off[1:0] ≠ 0`, sets `ACCERR` and nothing else; a
read returns zero. It holds at every offset, `CMD` and the reserved ones included, so no command runs. -/
def Obligations.IllegalAccessSetsOnlyAccerr : Prop :=
  ∀ (s : State) (off : Offset) (n : Width) (v : Word) (rest : List PortEvent),
    s.resetAsserted = false → (n ≠ .word ∨ off.toNat % 4 ≠ 0) →
      (s.port = .access (.read off n) :: rest →
        step s = .next { s.withPort rest with accerr := true, reads := 0x00000000#32 :: s.reads }) ∧
      (s.port = .access (.write off n v) :: rest → step s = .next { s.withPort rest with accerr := true })

/-- R403: a legal read returns the register its offset names, by the offsets of R118, zero at a reserved one, and changes
nothing of the block; and the rule's two examples. -/
def Obligations.LegalReadReturnsItsRegister : Prop :=
  (∀ (s : State) (off : Offset) (rest : List PortEvent), TakesRead s off rest →
    step s = .next { s.withPort rest with reads := s.readReg off :: s.reads }) ∧
  (∀ (s : State) (off : Offset), locate s.numContexts off = .reserved → s.readReg off = 0x00000000#32) ∧
  State.reset.readReg 0x104#12 = 0x00000000#32 ∧ State.reset.readReg 0x004#12 = 0x00000142#32 ∧
  ∀ s : State, s.numContexts ≤ 15 →
    s.readReg 0x000#12 = 0x49495242#32 ∧
    s.readReg 0x004#12 = BitVec.ofNat 32 (0x100 + 0x10 * s.numContexts + 2) ∧
    s.readReg 0x008#12 = BitVec.ofNat 32 ((if s.accerr then 2 else 0) + (if s.illcmd then 1 else 0)) ∧
    s.readReg 0x00C#12 = 0x00000000#32 ∧ s.readReg 0x010#12 = s.xin ∧
    ∀ c, c < s.numContexts →
      s.readReg (windowOffset (contextBase c)) =
        BitVec.ofNat 32 (0x10 * (s.context c).nsec.toNat + (kindBits (s.context c).kind).toNat) ∧
      s.readReg (windowOffset (contextBase c + 0x04)) = (s.context c).out ∧
      s.readReg (windowOffset (contextBase c + 0x08)) = (s.context c).rg ∧
      s.readReg (windowOffset (contextBase c + 0x0C)) = (s.context c).sg ∧
      ∀ (i : Fin 2) (r : SecReg),
        s.readReg (windowOffset (sectionBase c i + r.offset)) = ((s.context c).sec i).get r

/-- R400 ("`Step` never fails"), R700, R7: a step never faults; it answers a next state but for one case, an access
presented while reset is asserted, which is refused by name (93_implementation_defined.md item 21); with nothing at the port
nothing changes. -/
def Obligations.StepNeverFaults : Prop :=
  ∀ s : State,
    ((∃ t, step s = .next t) ↔ ¬ (s.resetAsserted = true ∧ ∃ a rest, s.port = .access a :: rest)) ∧
    (s.resetAsserted = true → (∃ a rest, s.port = .access a :: rest) → step s = .refused .accessDuringReset) ∧
    (∀ e, step s ≠ .fault e) ∧ (s.port = [] → step s = .next s)

/-- R703: no single access sets both error bits, and an illegal access to `CMD` never sets `ILLCMD`. -/
def Obligations.NoAccessSetsBothErrorBits : Prop :=
  ∀ s t : State, step s = .next t →
    ¬ (s.illcmd = false ∧ s.accerr = false ∧ t.illcmd = true ∧ t.accerr = true) ∧
    ∀ (off : Offset) (n : Width) (v : Word) (rest : List PortEvent),
      s.port = .access (.write off n v) :: rest → (n ≠ .word ∨ off.toNat % 4 ≠ 0) → t.illcmd = s.illcmd

/-- R105 ("no event other than a write of 1 to the bit, or reset, clears them"). -/
def Obligations.ErrorBitsAreSticky : Prop :=
  ∀ s t : State, step s = .next t →
    (s.illcmd = true → t.illcmd = false →
      ReleasesReset s ∨ ∃ v rest, TakesWrite s 0x008#12 v rest ∧ v.getLsbD 0 = true) ∧
    (s.accerr = true → t.accerr = false →
      ReleasesReset s ∨ ∃ v rest, TakesWrite s 0x008#12 v rest ∧ v.getLsbD 1 = true)

/-- R701: each error bit rises only from its cause. -/
def Obligations.ErrorBitsRiseOnlyFromTheirCause : Prop :=
  ∀ s t : State, step s = .next t →
    (s.illcmd = false → t.illcmd = true →
      ∃ v rest e, TakesWrite s 0x00C#12 v rest ∧ decode s.numContexts v = .error e) ∧
    (s.accerr = false → t.accerr = true →
      ∃ a rest, s.port = .access a :: rest ∧
        ∃ off n, (a = .read off n ∨ ∃ v, a = .write off n v) ∧ (n ≠ .word ∨ off.toNat % 4 ≠ 0))

/-- R207: a legal read has no side effect on any register, so the same offset read twice returns the same value. -/
def Obligations.ReadsHaveNoSideEffect : Prop :=
  ∀ (s t : State) (off : Offset) (rest : List PortEvent), TakesRead s off rest → step s = .next t →
    t.xin = s.xin ∧ t.illcmd = s.illcmd ∧ t.accerr = s.accerr ∧ t.ctx = s.ctx ∧
    (∀ a, t.windowByte a = s.windowByte a) ∧
    ∀ rest', TakesRead t off rest' →
      step t = .next { t.withPort rest' with reads := s.readReg off :: s.readReg off :: s.reads }

/-- R405: a legal write to `ID`, `PARAM` or `OUT` changes nothing and sets no status bit; `OUT` is changed only by
`EVALU`, `EVALX`, `CLEAR` on its context and by reset. -/
def Obligations.ReadOnlyRegistersIgnoreWrites : Prop :=
  (∀ (s : State) (off : Offset) (v : Word) (rest : List PortEvent), TakesWrite s off v rest → s.numContexts ≤ 15 →
    (off = 0x000#12 ∨ off = 0x004#12 ∨ ∃ c, c < s.numContexts ∧ off = windowOffset (contextBase c + 0x04)) →
      step s = .next (s.withPort rest)) ∧
  ∀ (s t : State) (c : Nat), step s = .next t → (t.context c).out ≠ (s.context c).out →
    ReleasesReset s ∨
    ∃ v rest, TakesWrite s 0x00C#12 v rest ∧ ∃ d : CtxIndex, d.toNat = c ∧
      ((∃ n, decode s.numContexts v = .ok (.evalu d n)) ∨ decode s.numContexts v = .ok (.evalx d) ∨
        decode s.numContexts v = .ok (.clear d))

/-- R113, R114 ("No command writes a coefficient register"): a gain, a feedback coefficient, `RG`, `SG`, `KIND` or `NSEC`
changes only by the host's legal write to its own offset, or by reset. -/
def Obligations.CoefficientsChangeOnlyByTheirOwnWrite : Prop :=
  ∀ (s t : State) (c : Nat), step s = .next t → ¬ ReleasesReset s →
    (∀ (i : Fin 2) (r : SecReg), r.isDelay = false → ((t.context c).sec i).get r ≠ ((s.context c).sec i).get r →
      ∃ off v rest, TakesWrite s off v rest ∧ off.toNat = sectionBase c i + r.offset ∧
        ((t.context c).sec i).get r = v) ∧
    ((t.context c).rg ≠ (s.context c).rg →
      ∃ off v rest, TakesWrite s off v rest ∧ off.toNat = contextBase c + 0x08 ∧ (t.context c).rg = v) ∧
    ((t.context c).sg ≠ (s.context c).sg →
      ∃ off v rest, TakesWrite s off v rest ∧ off.toNat = contextBase c + 0x0C ∧ (t.context c).sg = v) ∧
    ((t.context c).kind ≠ (s.context c).kind ∨ (t.context c).nsec ≠ (s.context c).nsec →
      ∃ off v rest, TakesWrite s off v rest ∧ off.toNat = contextBase c)

/-! ### The register map and the register writes -/

/-- R401, R118: what every aligned offset of the window names, for every legal number of contexts. -/
def Obligations.LocateIsTheRegisterMap : Prop :=
  ∀ nctx, nctx ≤ 15 →
    locate nctx 0x000#12 = .id ∧ locate nctx 0x004#12 = .param ∧ locate nctx 0x008#12 = .status ∧
    locate nctx 0x00C#12 = .cmd ∧ locate nctx 0x010#12 = .xin ∧
    (∀ off : Offset, 0x014 ≤ off.toNat → off.toNat < 0x100 → locate nctx off = .reserved) ∧
    (∀ off : Offset, contextBase nctx ≤ off.toNat → locate nctx off = .reserved) ∧
    ∀ c, c < nctx →
      locate nctx (windowOffset (contextBase c)) = .ctrl c ∧
      locate nctx (windowOffset (contextBase c + 0x04)) = .out c ∧
      locate nctx (windowOffset (contextBase c + 0x08)) = .rg c ∧
      locate nctx (windowOffset (contextBase c + 0x0C)) = .sg c ∧
      (∀ (i : Fin 2) (r : SecReg), locate nctx (windowOffset (sectionBase c i + r.offset)) = .sec c i r) ∧
      (∀ (i : Fin 2) (q : Nat), q < 0x40 → q % 4 = 0 → (∀ r : SecReg, q ≠ r.offset) →
        locate nctx (windowOffset (sectionBase c i + q)) = .reserved) ∧
      (∀ r, 0x90 ≤ r → r < 0x100 → locate nctx (windowOffset (contextBase c + r)) = .reserved)

/-- R108, R121: no two offsets name one register, so no register of a context is an alias of another. -/
def Obligations.NoTwoOffsetsNameOneRegister : Prop :=
  ∀ (nctx : Nat) (a b : Offset), locate nctx a ≠ .reserved → locate nctx a = locate nctx b → a = b

/-- R411: a reserved offset reads zero, ignores writes and sets no status bit; the reserved offsets are the four ranges of
R118, and every offset of a context at or above `NUM_CONTEXTS`. -/
def Obligations.ReservedOffsetsReadZeroAndIgnoreWrites : Prop :=
  ∀ (s : State) (off : Offset) (rest : List PortEvent), s.numContexts ≤ 15 →
    ((0x014 ≤ off.toNat ∧ off.toNat < 0x100) ∨ contextBase s.numContexts ≤ off.toNat ∨
      (∃ c, c < s.numContexts ∧
        ((contextBase c + 0x90 ≤ off.toNat ∧ off.toNat < contextBase c + 0x100) ∨
          ∃ i : Fin 2, (sectionBase c i + 0x14 ≤ off.toNat ∧ off.toNat < sectionBase c i + 0x20) ∨
            (sectionBase c i + 0x34 ≤ off.toNat ∧ off.toNat < sectionBase c i + 0x40)))) →
      (TakesRead s off rest → step s = .next { s.withPort rest with reads := 0x00000000#32 :: s.reads }) ∧
      ∀ v, TakesWrite s off v rest → step s = .next (s.withPort rest)

/-- R406: a write to `STATUS` clears the bits written as 1, ignores bits 31:2 and sets nothing; zero changes nothing. -/
def Obligations.StatusWriteClearsTheOnesWritten : Prop :=
  (∀ (s : State) (v : Word) (rest : List PortEvent), TakesWrite s 0x008#12 v rest →
    step s = .next
      { s.withPort rest with
        illcmd := if v.toNat % 2 = 1 then false else s.illcmd
        accerr := if v.toNat / 2 % 2 = 1 then false else s.accerr }) ∧
  (∀ (s : State) (rest : List PortEvent), TakesWrite s 0x008#12 0x00000000#32 rest → step s = .next (s.withPort rest)) ∧
  ∀ (s : State) (rest : List PortEvent), s.illcmd = true → s.accerr = true → TakesWrite s 0x008#12 0x00000002#32 rest →
    ∃ t, step s = .next t ∧ t.readReg 0x008#12 = 0x00000001#32

/-- R409: a write to `CTRL` sets `KIND` and `NSEC <- min(v[5:4], 2)` and nothing else, so the next evaluation runs the new
kind on the old registers; the all-ones word reads back `0x00000023`. -/
def Obligations.CtrlWriteStoresALegalValue : Prop :=
  ∀ (s : State) (c : Nat) (v : Word) (rest : List PortEvent), s.numContexts ≤ 15 → c < s.numContexts →
    TakesWrite s (windowOffset (contextBase c)) v rest →
      (∃ k : Kind, (kindBits k).toNat = v.toNat % 4 ∧
        step s = .next ((s.withPort rest).updContext c
          (fun x => { x with kind := k, nsec := BitVec.ofNat 2 (min (v.toNat / 16 % 4) 2) })) ∧
        ∀ t x, step s = .next t → (t.context c).evaluate x =
          { s.context c with kind := k, nsec := BitVec.ofNat 2 (min (v.toNat / 16 % 4) 2) }.evaluate x) ∧
      ∃ t, step s = .next t ∧ ((t.context c).nsec.toNat = min (v.toNat / 16 % 4) 2) ∧
        t.readReg (windowOffset (contextBase c)) = BitVec.ofNat 32 (0x10 * min (v.toNat / 16 % 4) 2 + v.toNat % 4) ∧
        (v = 0xFFFFFFFF#32 → t.readReg (windowOffset (contextBase c)) = 0x00000023#32)

/-- R408, R410: a legal write to `XIN`, `RG`, `SG` or a section register stores all 32 bits verbatim in that register,
changes nothing else, and reads back. -/
def Obligations.RegisterWritesStoreVerbatim : Prop :=
  ∀ (s : State) (v : Word) (rest : List PortEvent), s.numContexts ≤ 15 →
    (TakesWrite s 0x010#12 v rest →
      ∃ t, step s = .next t ∧ t = { s.withPort rest with xin := v } ∧ t.readReg 0x010#12 = v) ∧
    ∀ c, c < s.numContexts →
      (TakesWrite s (windowOffset (contextBase c + 0x08)) v rest →
        ∃ t, step s = .next t ∧ t = (s.withPort rest).updContext c (fun k => { k with rg := v }) ∧
          t.readReg (windowOffset (contextBase c + 0x08)) = v) ∧
      (TakesWrite s (windowOffset (contextBase c + 0x0C)) v rest →
        ∃ t, step s = .next t ∧ t = (s.withPort rest).updContext c (fun k => { k with sg := v }) ∧
          t.readReg (windowOffset (contextBase c + 0x0C)) = v) ∧
      ∀ (i : Fin 2) (r : SecReg), TakesWrite s (windowOffset (sectionBase c i + r.offset)) v rest →
        ∃ t, step s = .next t ∧
          t = (s.withPort rest).updContext c (fun k => k.setSec i ((k.sec i).set r v)) ∧
          t.readReg (windowOffset (sectionBase c i + r.offset)) = v

/-- D24, R404: a legal write to any offset but `CMD` leaves every byte of every other word of the window as it was. -/
def Obligations.RegisterWriteLeavesEveryOtherOffset : Prop :=
  ∀ (s t : State) (off : Offset) (v : Word) (rest : List PortEvent), TakesWrite s off v rest → off ≠ 0x00C#12 →
    step s = .next t → ∀ a : Offset, wordOffsetOf a ≠ off.toNat → t.windowByte a = s.windowByte a

/-! ### Encoding -/

/-- R303, R305: decoding the word of a well-formed command gives it back, with every operand at every value. -/
def Obligations.DecodeOfEncodeIsTheInstruction : Prop :=
  ∀ (nctx : Nat) (i : Instr), i.wellFormed nctx = true → decode nctx (encode i) = .ok i

/-- R305 ("No two rows decode the same word"): a word that decodes is the word of what it decodes to, which is well formed
for this block. -/
def Obligations.DecodedWordsAreEncodings : Prop :=
  ∀ (nctx : Nat) (w : Word) (i : Instr), decode nctx w = .ok i → encode i = w ∧ i.wellFormed nctx = true

/-- R303: the mask and match of each row decide the row, the context index decides legality, and the value column gives the
word. -/
def Obligations.RowsMatchByMaskAndMatch : Prop :=
  (∀ (nctx : Nat) (w : Word),
    (w &&& 0xFFFFFFFF#32 = 0x00000000#32 → decode nctx w = .ok .nop) ∧
    (w &&& 0xF0FF0000#32 = 0x10000000#32 →
      (w.toNat / 2 ^ 24 % 16 < nctx →
        decode nctx w = .ok (.evalu (BitVec.ofNat 4 (w.toNat / 2 ^ 24)) (BitVec.ofNat 16 w.toNat))) ∧
      (nctx ≤ w.toNat / 2 ^ 24 % 16 → decode nctx w = .error .noSuchContext)) ∧
    (w &&& 0xF0FFFFFF#32 = 0x20000000#32 →
      (w.toNat / 2 ^ 24 % 16 < nctx → decode nctx w = .ok (.evalx (BitVec.ofNat 4 (w.toNat / 2 ^ 24)))) ∧
      (nctx ≤ w.toNat / 2 ^ 24 % 16 → decode nctx w = .error .noSuchContext)) ∧
    (w &&& 0xF0FFFFFF#32 = 0x30000000#32 →
      (w.toNat / 2 ^ 24 % 16 < nctx → decode nctx w = .ok (.clear (BitVec.ofNat 4 (w.toNat / 2 ^ 24)))) ∧
      (nctx ≤ w.toNat / 2 ^ 24 % 16 → decode nctx w = .error .noSuchContext))) ∧
  encode .nop = 0x00000000#32 ∧
  (∀ (c : CtxIndex) (n : BitVec 16),
    encode (.evalu c n) = 0x10000000#32 ||| (c.setWidth 32 <<< 24) ||| n.setWidth 32) ∧
  (∀ c : CtxIndex, encode (.evalx c) = 0x20000000#32 ||| (c.setWidth 32 <<< 24)) ∧
  ∀ c : CtxIndex, encode (.clear c) = 0x30000000#32 ||| (c.setWidth 32 <<< 24)

/-- R306: the words that are no command are exactly the five kinds listed, and each sets `ILLCMD` and does nothing else. -/
def Obligations.IllegalWordsAreExactlyTheListed : Prop :=
  (∀ (nctx : Nat) (w : Word), (∃ e, decode nctx w = .error e) ↔
    (4 ≤ w.toNat / 2 ^ 28 ∨
      (w.toNat / 2 ^ 28 = 0 ∧ w.toNat % 2 ^ 28 ≠ 0) ∨
      (w.toNat / 2 ^ 28 = 1 ∧ w.toNat / 2 ^ 16 % 2 ^ 8 ≠ 0) ∨
      ((w.toNat / 2 ^ 28 = 2 ∨ w.toNat / 2 ^ 28 = 3) ∧ w.toNat % 2 ^ 24 ≠ 0) ∨
      ((w.toNat / 2 ^ 28 = 1 ∨ w.toNat / 2 ^ 28 = 2 ∨ w.toNat / 2 ^ 28 = 3) ∧ nctx ≤ w.toNat / 2 ^ 24 % 16))) ∧
  ∀ (s : State) (w : Word) (rest : List PortEvent) (e : Illegal), decode s.numContexts w = .error e →
    TakesWrite s 0x00C#12 w rest → step s = .next { s.withPort rest with illcmd := true }

/-- R303: words written out bit by bit from the patterns, one for each row and the edges of the fields. -/
def Obligations.SampleWordsDecodeToTheirCommand : Prop :=
  decode 4 0b00000000000000000000000000000000#32 = .ok .nop ∧
  decode 4 0b00010011000000000000000000000111#32 = .ok (.evalu 3 7) ∧
  decode 4 0b00010000000000001111111111111111#32 = .ok (.evalu 0 65535) ∧
  decode 4 0b00100001000000000000000000000000#32 = .ok (.evalx 1) ∧
  decode 4 0b00110010000000000000000000000000#32 = .ok (.clear 2) ∧
  decode 15 0b00010100000000000000000000000000#32 = .ok (.evalu 4 0) ∧
  decode 4 0b00010100000000000000000000000000#32 = .error .noSuchContext ∧
  decode 15 0b00011111000000000000000000000000#32 = .error .noSuchContext

/-- R307: the assembler refuses an operand out of range, and never emits an illegal word. -/
def Obligations.AssemblerNeverEmitsAnIllegalWord : Prop :=
  ∀ nctx, nctx ≤ 15 →
    (∀ (l : AsmLine) (w : Word), assemble nctx l = some w → ∃ i, decode nctx w = .ok i) ∧
    (∀ c n : Nat, (assemble nctx (.evalu c n) = none ↔ nctx ≤ c ∨ 65535 < n)) ∧
    (∀ c n : Nat, c < nctx → n ≤ 65535 →
      assemble nctx (.evalu c n) = some (BitVec.ofNat 32 (0x10000000 + c * 2 ^ 24 + n))) ∧
    (∀ c : Nat, (assemble nctx (.evalx c) = none ↔ nctx ≤ c) ∧ (assemble nctx (.clear c) = none ↔ nctx ≤ c)) ∧
    (∀ c : Nat, c < nctx → assemble nctx (.evalx c) = some (BitVec.ofNat 32 (0x20000000 + c * 2 ^ 24)) ∧
      assemble nctx (.clear c) = some (BitVec.ofNat 32 (0x30000000 + c * 2 ^ 24))) ∧
    assemble nctx .nop = some 0x00000000#32

/-! ### Commands -/

/-- R420: `NOP` changes nothing; its word is zero, and any other word with `OP` = 0 is no command. -/
def Obligations.NopChangesNothing : Prop :=
  (∀ s : State, exec .nop s = .next s) ∧ (∀ nctx, decode nctx 0x00000000#32 = .ok .nop) ∧
  (∀ (s : State) (rest : List PortEvent), TakesWrite s 0x00C#12 0x00000000#32 rest → step s = .next (s.withPort rest)) ∧
  ∀ (nctx : Nat) (w : Word), w.toNat / 2 ^ 28 = 0 → w ≠ 0x00000000#32 → ∃ e, decode nctx w = .error e

/-- R550: an evaluation of `EVALU` (on `u2f32` of its immediate) and of `EVALX` (on `XIN`) runs the sections 0 to
`NSEC` − 1 in order with the kernel of the context's kind, each section on the previous one's output, puts the last output
in `OUT`, and writes nothing else. It completes for every state and every context that exists, at every legal `NSEC`. -/
def Obligations.EvaluationRunsTheCascade : Prop :=
  ∀ (s : State) (c : CtxIndex) (i : Instr) (x : Word), c.toNat < s.numContexts →
    ((∃ n : BitVec 16, i = .evalu c n ∧ x = u2f32 n.toNat) ∨ (i = .evalx c ∧ x = s.xin)) →
    let k := s.context c.toNat
    let r0 := runSection k.kind k.rg k.sg k.sec0 x
    let r1 := runSection k.kind k.rg k.sg k.sec1 r0.2
    (k.nsec = 0#2 → exec i s = .next (s.updContext c.toNat (fun k => { k with out := x }))) ∧
    (k.nsec = 1#2 → exec i s = .next (s.updContext c.toNat (fun k => { k with sec0 := r0.1, out := r0.2 }))) ∧
    (k.nsec = 2#2 →
      exec i s = .next (s.updContext c.toNat (fun k => { k with sec0 := r0.1, sec1 := r1.1, out := r1.2 })))

/-- R551: with `NSEC` = 0 the input passes to `OUT`, all 32 bits verbatim, a NaN payload and a −0.0 included, and no delay
register changes. -/
def Obligations.ZeroSectionsPassTheSampleThrough : Prop :=
  ∀ (s : State) (c : CtxIndex) (n : BitVec 16), c.toNat < s.numContexts → (s.context c.toNat).nsec = 0#2 →
    exec (.evalu c n) s = .next (s.updContext c.toNat (fun k => { k with out := u2f32 n.toNat })) ∧
    exec (.evalx c) s = .next (s.updContext c.toNat (fun k => { k with out := s.xin }))

/-- R560: the lowpass section on an `EVALX` of a one-section context: `w0 = d1·w1 + d2·w2 + x`, `y = A·(w0 + 2·w1 + w2)`,
then `w2 ← w1`, `w1 ← w0`, with the operations in the rule's order; and the rule's example. -/
def Obligations.LowpassEvaluationFollowsItsFormula : Prop :=
  (∀ (s : State) (c : CtxIndex), c.toNat < s.numContexts → (s.context c.toNat).kind = .lp →
    (s.context c.toNat).nsec = 1#2 →
    let q := (s.context c.toNat).sec0
    let w0 := fadd32 (fadd32 (fmul32 q.d1 q.w1) (fmul32 q.d2 q.w2)) s.xin
    let y := fmul32 q.a (fadd32 (fadd32 w0 (fmul32 0x40000000#32 q.w1)) q.w2)
    exec (.evalx c) s = .next (s.updContext c.toNat (fun k =>
      { k with out := y, sec0 := { q with w0 := w0, w1 := w0, w2 := q.w1 } }))) ∧
  runSection .lp 0 0 ⟨0x3E800000#32, 0x3F000000#32, 0xBE800000#32, 0, 0, 0, 0, 0, 0, 0⟩ 0x40800000#32 =
    (⟨0x3E800000#32, 0x3F000000#32, 0xBE800000#32, 0, 0, 0x40800000#32, 0x40800000#32, 0, 0, 0⟩, 0x3F800000#32)

/-- R565: the highpass section: the same recursion, `y = A·(w0 − 2·w1 + w2)`; and the rule's example. -/
def Obligations.HighpassEvaluationFollowsItsFormula : Prop :=
  (∀ (s : State) (c : CtxIndex), c.toNat < s.numContexts → (s.context c.toNat).kind = .hp →
    (s.context c.toNat).nsec = 1#2 →
    let q := (s.context c.toNat).sec0
    let w0 := fadd32 (fadd32 (fmul32 q.d1 q.w1) (fmul32 q.d2 q.w2)) s.xin
    let y := fmul32 q.a (fadd32 (fsub32 w0 (fmul32 0x40000000#32 q.w1)) q.w2)
    exec (.evalx c) s = .next (s.updContext c.toNat (fun k =>
      { k with out := y, sec0 := { q with w0 := w0, w1 := w0, w2 := q.w1 } }))) ∧
  (runSection .hp 0 0 ⟨0x3E800000#32, 0x3F000000#32, 0xBE800000#32, 0, 0, 0x40800000#32, 0x40800000#32, 0, 0, 0⟩
    0x40800000#32).2 = 0xBF000000#32

/-- R570: the bandpass section: four feedback terms, `y = A·(w0 − 2·w2 + w4)`, all four registers down by one; and the
rule's example. -/
def Obligations.BandpassEvaluationFollowsItsFormula : Prop :=
  (∀ (s : State) (c : CtxIndex), c.toNat < s.numContexts → (s.context c.toNat).kind = .bp →
    (s.context c.toNat).nsec = 1#2 →
    let q := (s.context c.toNat).sec0
    let w0 := fadd32 (fadd32 (fadd32 (fadd32 (fmul32 q.d1 q.w1) (fmul32 q.d2 q.w2)) (fmul32 q.d3 q.w3))
      (fmul32 q.d4 q.w4)) s.xin
    let y := fmul32 q.a (fadd32 (fsub32 w0 (fmul32 0x40000000#32 q.w2)) q.w4)
    exec (.evalx c) s = .next (s.updContext c.toNat (fun k =>
      { k with out := y, sec0 := { q with w0 := w0, w1 := w0, w2 := q.w1, w3 := q.w2, w4 := q.w3 } }))) ∧
  (runSection .bp 0 0
    ⟨0x3F000000#32, 0x3F000000#32, 0xBE800000#32, 0x3E000000#32, 0xBD800000#32, 0, 0, 0, 0, 0⟩ 0x41800000#32).2 =
      0x41000000#32

/-- R575: the bandstop section: the same recursion, `y = A·(w0 − r·w1 + s·w2 − r·w3 + w4)` with the context's `RG` and `SG`
in every section; and the rule's example. -/
def Obligations.BandstopEvaluationFollowsItsFormula : Prop :=
  (∀ (s : State) (c : CtxIndex), c.toNat < s.numContexts → (s.context c.toNat).kind = .bs →
    (s.context c.toNat).nsec = 1#2 →
    let q := (s.context c.toNat).sec0
    let r := (s.context c.toNat).rg
    let sg := (s.context c.toNat).sg
    let w0 := fadd32 (fadd32 (fadd32 (fadd32 (fmul32 q.d1 q.w1) (fmul32 q.d2 q.w2)) (fmul32 q.d3 q.w3))
      (fmul32 q.d4 q.w4)) s.xin
    let y := fmul32 q.a (fadd32 (fsub32 (fadd32 (fsub32 w0 (fmul32 r q.w1)) (fmul32 sg q.w2)) (fmul32 r q.w3)) q.w4)
    exec (.evalx c) s = .next (s.updContext c.toNat (fun k =>
      { k with out := y, sec0 := { q with w0 := w0, w1 := w0, w2 := q.w1, w3 := q.w2, w4 := q.w3 } }))) ∧
  (runSection .bs 0x40400000#32 0x40800000#32
    ⟨0x3F000000#32, 0x3F000000#32, 0xBE800000#32, 0x3E000000#32, 0xBD800000#32, 0x41800000#32, 0x41800000#32, 0, 0, 0⟩
    0).2 = 0xC1A00000#32

/-- R450: `CLEAR` completes for every state and every context that exists: every `W` register of both sections and `OUT` of
the context are +0.0, and nothing else changes. -/
def Obligations.ClearZeroesTheDelayLine : Prop :=
  ∀ (s : State) (c : CtxIndex), c.toNat < s.numContexts →
    ∃ t, exec (.clear c) s = .next t ∧ SameGlobals s t ∧
      (t.context c.toNat).out = 0x00000000#32 ∧
      (∀ i : Fin 2, ((t.context c.toNat).sec i).w0 = 0x00000000#32 ∧ ((t.context c.toNat).sec i).w1 = 0x00000000#32 ∧
        ((t.context c.toNat).sec i).w2 = 0x00000000#32 ∧ ((t.context c.toNat).sec i).w3 = 0x00000000#32 ∧
        ((t.context c.toNat).sec i).w4 = 0x00000000#32 ∧
        ((t.context c.toNat).sec i).coeffs = ((s.context c.toNat).sec i).coeffs) ∧
      (t.context c.toNat).kind = (s.context c.toNat).kind ∧ (t.context c.toNat).nsec = (s.context c.toNat).nsec ∧
      (t.context c.toNat).rg = (s.context c.toNat).rg ∧ (t.context c.toNat).sg = (s.context c.toNat).sg ∧
      ∀ d, d ≠ c.toNat → t.context d = s.context d

/-- R305, R470 through log 7 (the decoder lets no such command reach `exec`; the model's own choice there): a command on a
context at or above `NUM_CONTEXTS` sets `ILLCMD` and nothing else. -/
def Obligations.CommandsOnMissingContextsAreIllegal : Prop :=
  ∀ (s : State) (c : CtxIndex) (n : BitVec 16), s.numContexts ≤ c.toNat →
    exec (.evalu c n) s = .next { s with illcmd := true } ∧ exec (.evalx c) s = .next { s with illcmd := true } ∧
    exec (.clear c) s = .next { s with illcmd := true }

/-- R415, R550, R114: the frame of `EVALU` and `EVALX`. Everything outside the context is unchanged, every other context is;
in the context `KIND`, `NSEC`, `RG`, `SG` and every coefficient; and every byte of the window outside `OUT` and the delay
registers that the kind writes in the used sections. -/
def Obligations.EvaluationFrame : Prop :=
  ∀ (s t : State) (c : CtxIndex) (n : BitVec 16), c.toNat < s.numContexts →
    (exec (.evalu c n) s = .next t ∨ exec (.evalx c) s = .next t) →
    SameGlobals s t ∧ (∀ d, d ≠ c.toNat → t.context d = s.context d) ∧
    (t.context c.toNat).kind = (s.context c.toNat).kind ∧ (t.context c.toNat).nsec = (s.context c.toNat).nsec ∧
    (t.context c.toNat).rg = (s.context c.toNat).rg ∧ (t.context c.toNat).sg = (s.context c.toNat).sg ∧
    (∀ (i : Fin 2) (r : SecReg),
      (i.val < (s.context c.toNat).nsec.toNat → writtenDelay (s.context c.toNat).kind r = false) →
      ((t.context c.toNat).sec i).get r = ((s.context c.toNat).sec i).get r) ∧
    ∀ a : Offset, wordOffsetOf a ≠ contextBase c.toNat + 0x04 →
      (∀ (i : Fin 2) (r : SecReg), i.val < (s.context c.toNat).nsec.toNat →
        writtenDelay (s.context c.toNat).kind r = true → wordOffsetOf a ≠ sectionBase c.toNat i + r.offset) →
      t.windowByte a = s.windowByte a

/-- R450: the frame of `CLEAR` in the window: every byte outside `OUT` and the delay registers of both sections. -/
def Obligations.ClearFrame : Prop :=
  ∀ (s t : State) (c : CtxIndex), c.toNat < s.numContexts → exec (.clear c) s = .next t →
    SameGlobals s t ∧ (∀ d, d ≠ c.toNat → t.context d = s.context d) ∧
    ∀ a : Offset, wordOffsetOf a ≠ contextBase c.toNat + 0x04 →
      (∀ (i : Fin 2) (r : SecReg), r.isDelay = true → wordOffsetOf a ≠ sectionBase c.toNat i + r.offset) →
      t.windowByte a = s.windowByte a

/-- R415 ("a command on context `c` never reads or writes another context"): two blocks of one size that agree on the
context and on `XIN` agree on it after the command, whatever their other contexts hold. -/
def Obligations.CommandsReadOnlyTheirOwnContext : Prop :=
  ∀ (s t s' t' : State) (c : CtxIndex) (n : BitVec 16) (i : Instr),
    (i = .evalu c n ∨ i = .evalx c ∨ i = .clear c) → s.numContexts = t.numContexts → c.toNat < s.numContexts →
    s.xin = t.xin → s.context c.toNat = t.context c.toNat → exec i s = .next s' → exec i t = .next t' →
    s'.context c.toNat = t'.context c.toNat ∧ (∀ d, d ≠ c.toNat → s'.context d = s.context d) ∧
    ∀ d, d ≠ c.toNat → t'.context d = t.context d

/-- R115, R410: the old `W[i][0]` is never read: two contexts that differ only there evaluate to the same context, but for
the `W[i][0]` of sections that are not used. -/
def Obligations.OldW0IsNeverRead : Prop :=
  ∀ (k : Context) (x a0 a1 : Word),
    let l := { k with sec0 := { k.sec0 with w0 := a0 }, sec1 := { k.sec1 with w0 := a1 } }
    (l.evaluate x).out = (k.evaluate x).out ∧
    (∀ (i : Fin 2) (r : SecReg), (r ≠ .w0 ∨ i.val < k.nsec.toNat) →
      ((l.evaluate x).sec i).get r = ((k.evaluate x).sec i).get r) ∧
    ∀ i : Fin 2, k.nsec.toNat ≤ i.val → ((l.evaluate x).sec i).w0 = (l.sec i).w0

/-- R116: an evaluation of an `LP` or `HP` context neither reads nor writes `D3`, `D4`, `W[i][3]`, `W[i][4]`, `RG` or `SG`,
and one of a `BP` context neither reads nor writes `RG` or `SG`: those registers keep their values, and contexts that agree
on the rest answer the same. Every context stores all ten registers of both sections, whatever its kind. -/
def Obligations.KindsUseOnlyTheirRegisters : Prop :=
  (∀ (k l : Context) (x : Word), k.kind = l.kind → k.nsec = l.nsec → twoPole k.kind = true →
    SameUsedRegisters k.kind k.sec0 l.sec0 → SameUsedRegisters k.kind k.sec1 l.sec1 →
    (k.evaluate x).out = (l.evaluate x).out ∧
    (∀ i : Fin 2, ((k.evaluate x).sec i).w1 = ((l.evaluate x).sec i).w1 ∧
      ((k.evaluate x).sec i).w2 = ((l.evaluate x).sec i).w2 ∧
      (i.val < k.nsec.toNat → ((k.evaluate x).sec i).w0 = ((l.evaluate x).sec i).w0) ∧
      ((k.evaluate x).sec i).d3 = (k.sec i).d3 ∧ ((k.evaluate x).sec i).d4 = (k.sec i).d4 ∧
      ((k.evaluate x).sec i).w3 = (k.sec i).w3 ∧ ((k.evaluate x).sec i).w4 = (k.sec i).w4)) ∧
  (∀ (k : Context) (x r s : Word), k.kind = .bp →
    ({ k with rg := r, sg := s }.evaluate x).out = (k.evaluate x).out ∧
    ∀ i : Fin 2, ({ k with rg := r, sg := s }.evaluate x).sec i = (k.evaluate x).sec i) ∧
  (∀ (k : Context) (x : Word), (k.evaluate x).rg = k.rg ∧ (k.evaluate x).sg = k.sg) ∧
  ∀ (k : Context) (i : Fin 2) (r : SecReg) (v : Word),
    ((k.setSec i ((k.sec i).set r v)).sec i).get r = v ∧ (k.setSec i ((k.sec i).set r v)).kind = k.kind

/-- R117: an evaluation reads and writes only the sections 0 to `NSEC` − 1: a slot at or above `NSEC` keeps its registers,
and what it holds changes nothing. -/
def Obligations.SlotsAboveNsecAreUntouched : Prop :=
  ∀ (k : Context) (x : Word) (i : Fin 2) (q : Section), k.nsec.toNat ≤ i.val →
    (k.evaluate x).sec i = k.sec i ∧ (k.setSec i q).evaluate x = (k.evaluate x).setSec i q

/-- R450 (its corner case, the source's "Idempotent zero state"), R560: with finite coefficients and a delay line of zeros,
as after `CLEAR`, `EVALU c, #0` answers a zero and leaves a delay line of zeros, so it may be repeated; right after a
`CLEAR` the zero is +0.0 where the gain of every used section has sign bit 0. -/
def Obligations.ZeroStateAnswersZero : Prop :=
  (∀ (s t : State) (c : CtxIndex), c.toNat < s.numContexts →
    let k := s.context c.toNat
    isFinite k.rg = true → isFinite k.sg = true → finiteCoefficients k.sec0 → finiteCoefficients k.sec1 →
    zeroDelays k.sec0 → zeroDelays k.sec1 → exec (.evalu c 0) s = .next t →
    isZero (t.context c.toNat).out = true ∧ zeroDelays (t.context c.toNat).sec0 ∧ zeroDelays (t.context c.toNat).sec1) ∧
  ∀ (s t u : State) (c : CtxIndex), c.toNat < s.numContexts →
    let k := s.context c.toNat
    isFinite k.rg = true → isFinite k.sg = true → finiteCoefficients k.sec0 → finiteCoefficients k.sec1 →
    (∀ i : Fin 2, i.val < k.nsec.toNat → signBit (k.sec i).a = false) → exec (.clear c) s = .next t →
    exec (.evalu c 0) t = .next u → (u.context c.toNat).out = 0x00000000#32

/-- R440 (its corner case), R505: a NaN in `XIN` makes the output and the new `W[0][1]` of an evaluation with at least one
section the canonical NaN. -/
def Obligations.NanSamplePoisonsTheDelayLine : Prop :=
  ∀ (s t : State) (c : CtxIndex), c.toNat < s.numContexts → (s.context c.toNat).nsec ≠ 0#2 → isNaN s.xin = true →
    exec (.evalx c) s = .next t →
    (t.context c.toNat).out = 0x7FC00000#32 ∧ (t.context c.toNat).sec0.w1 = 0x7FC00000#32 ∧ t.xin = s.xin

/-! ### Numerics -/

/-- R502, R503, R505: every addition and subtraction of finite operands whose exact result is not zero, and every
multiplication of finite non-zero operands, is the exact result rounded once, to nearest with ties to even, to infinity
from `2^128 − 2^103` on. -/
def Obligations.ResultsAreRoundedToNearestEven : Prop :=
  ∀ a b : Word, isFinite a = true → isFinite b = true →
    (value a + value b ≠ 0 →
      RoundsTo (decide (value a + value b < 0)) (value a + value b).natAbs 1 (fadd32 a b)) ∧
    (value a - value b ≠ 0 →
      RoundsTo (decide (value a - value b < 0)) (value a - value b).natAbs 1 (fsub32 a b)) ∧
    (value a ≠ 0 → value b ≠ 0 →
      RoundsTo (signBit a ^^ signBit b) (magnitude a * magnitude b) (2 ^ 149) (fmul32 a b))

/-- R503: the special cases of the addition, and its three corner cases. -/
def Obligations.AdditionSpecialCases : Prop :=
  ∀ a b : Word,
    (isNaN a = true ∨ isNaN b = true → fadd32 a b = 0x7FC00000#32) ∧
    (isInf a = true → isInf b = true → signBit a ≠ signBit b → fadd32 a b = 0x7FC00000#32) ∧
    (isInf a = true → isNaN b = false → (isInf b = true → signBit a = signBit b) → fadd32 a b = a) ∧
    (isInf b = true → isNaN a = false → isInf a = false → fadd32 a b = b) ∧
    (isZero a = true → isZero b = true →
      fadd32 a b = if a = 0x80000000#32 ∧ b = 0x80000000#32 then 0x80000000#32 else 0x00000000#32) ∧
    (isZero a = true → isNaN b = false → isZero b = false → fadd32 a b = b) ∧
    (isZero b = true → isNaN a = false → isZero a = false → fadd32 a b = a) ∧
    (isFinite a = true → isZero a = false → isFinite b = true → isZero b = false → value a + value b = 0 →
      fadd32 a b = 0x00000000#32) ∧
    (isFinite a = true → isZero a = false → isFinite b = true → isZero b = false → value a + value b ≠ 0 →
      RoundsTo (decide (value a + value b < 0)) (value a + value b).natAbs 1 (fadd32 a b) ∧
      isZero (fadd32 a b) = false)

/-- R505: the special cases of the multiplication; a product that underflows to zero keeps its sign; every NaN result of
every operation is the canonical NaN. -/
def Obligations.MultiplicationSpecialCases : Prop :=
  ∀ a b : Word,
    (isNaN a = true ∨ isNaN b = true → fmul32 a b = 0x7FC00000#32) ∧
    ((isInf a = true ∧ isZero b = true) ∨ (isZero a = true ∧ isInf b = true) → fmul32 a b = 0x7FC00000#32) ∧
    (isNaN a = false → isNaN b = false → isZero a = false → isZero b = false → isInf a = true ∨ isInf b = true →
      fmul32 a b = if signBit a = signBit b then 0x7F800000#32 else 0xFF800000#32) ∧
    (isFinite a = true → isFinite b = true → isZero a = true ∨ isZero b = true →
      fmul32 a b = if signBit a = signBit b then 0x00000000#32 else 0x80000000#32) ∧
    (isFinite a = true → isFinite b = true → signBit (fmul32 a b) = (signBit a ^^ signBit b)) ∧
    (isNaN (fadd32 a b) = true → fadd32 a b = 0x7FC00000#32) ∧
    (isNaN (fsub32 a b) = true → fsub32 a b = 0x7FC00000#32) ∧
    (isNaN (fmul32 a b) = true → fmul32 a b = 0x7FC00000#32)

/-- R504: subtraction adds the negation; what follows from it for a NaN subtrahend, for two infinities of one sign (the rule
names +inf minus +inf) and for a finite datum minus itself. -/
def Obligations.SubtractionAddsTheNegation : Prop :=
  (∀ a b : Word, fsub32 a b = fadd32 a (b ^^^ 0x80000000#32)) ∧
  (∀ a b : Word, isNaN b = true → fsub32 a b = 0x7FC00000#32) ∧
  (∀ a b : Word, isInf a = true → isInf b = true → signBit a = signBit b → fsub32 a b = 0x7FC00000#32) ∧
  fsub32 0x7F800000#32 0x7F800000#32 = 0x7FC00000#32 ∧
  ∀ x : Word, isFinite x = true → fsub32 x x = 0x00000000#32

/-- R508: an integer below 2^24 converts exactly: +0.0 for zero, a normal number of that value otherwise; and the rule's
three examples. -/
def Obligations.SmallIntegersConvertExactly : Prop :=
  (∀ n : Nat, n < 2 ^ 24 →
    isFinite (u2f32 n) = true ∧ signBit (u2f32 n) = false ∧ value (u2f32 n) = (n * 2 ^ 149 : Nat) ∧
    (n = 0 → u2f32 n = 0x00000000#32) ∧ (n ≠ 0 → 1 ≤ expField (u2f32 n))) ∧
  u2f32 4095 = 0x457FF000#32 ∧ u2f32 1234 = 0x449A4000#32 ∧ u2f32 65535 = 0x477FFF00#32

/-- R510: the output mixes of `LP`, `HP` and `BP` multiply by the constant 2.0 = `0x40000000`; that product is exact for every
finite `w` below 2^127 in magnitude, overflows from there on, for an infinity too, keeps the sign of a zero, and is the
canonical NaN for a NaN. -/
def Obligations.DoublingIsExactOrOverflows : Prop :=
  (∀ (r s : Word) (k : Section) (v : Word),
    (runSection .lp r s k v).2 =
      fmul32 k.a (fadd32 (fadd32 (runSection .lp r s k v).1.w0 (fmul32 0x40000000#32 k.w1)) k.w2) ∧
    (runSection .hp r s k v).2 =
      fmul32 k.a (fadd32 (fsub32 (runSection .hp r s k v).1.w0 (fmul32 0x40000000#32 k.w1)) k.w2) ∧
    (runSection .bp r s k v).2 =
      fmul32 k.a (fadd32 (fsub32 (runSection .bp r s k v).1.w0 (fmul32 0x40000000#32 k.w2)) k.w4)) ∧
  ∀ w : Word,
    (isInf w = true → fmul32 0x40000000#32 w = signedInf (signBit w)) ∧
    (isFinite w = true → magnitude w < 2 ^ 150 * 2 ^ 126 →
      isFinite (fmul32 0x40000000#32 w) = true ∧ value (fmul32 0x40000000#32 w) = 2 * value w) ∧
    (isFinite w = true → 2 ^ 150 * 2 ^ 126 ≤ magnitude w → fmul32 0x40000000#32 w = signedInf (signBit w)) ∧
    (isZero w = true → fmul32 0x40000000#32 w = w) ∧
    (isNaN w = true → fmul32 0x40000000#32 w = 0x7FC00000#32)

/-- R575 (its corner case): with `RG` = +0.0 and `SG` = −2.0, and `W[i][1]`, `W[i][3]` finite, a bandstop section leaves the
registers a bandpass section leaves and answers its output, up to the sign of a zero. -/
def Obligations.BandstopWithTheBandpassMix : Prop :=
  ∀ (k : Section) (v : Word), isFinite k.w1 = true → isFinite k.w3 = true →
    (runSection .bs 0x00000000#32 0xC0000000#32 k v).1 = (runSection .bp 0x00000000#32 0xC0000000#32 k v).1 ∧
    ((runSection .bs 0x00000000#32 0xC0000000#32 k v).2 = (runSection .bp 0x00000000#32 0xC0000000#32 k v).2 ∨
      (isZero (runSection .bs 0x00000000#32 0xC0000000#32 k v).2 = true ∧
        isZero (runSection .bp 0x00000000#32 0xC0000000#32 k v).2 = true))

/-! ### The host's side -/

/-- R309, R820, R821: the accesses of `LOADFILTER`, and those of the boot sequence, taken from any state, leave the context
with the design's kind, count and words in the used sections, every delay register and `OUT` zero, and all else as it was,
whatever was evaluated before. `LOADFILTER` writes `RG` and `SG` for `BS` only (R309); the boot sequence writes them for every
kind, zero for a kind that is not `BS`, and zero in `D3` and `D4` for `LP` and `HP` (R820). That the two are two sequences is
the model's reading (log 23). -/
def Obligations.LoadFilterInstallsTheDesign : Prop :=
  ∀ (s : State) (c : CtxIndex) (d : Design) (rest : List PortEvent), s.resetAsserted = false → s.numContexts ≤ 15 →
    c.toNat < s.numContexts → d.secs.length ≤ 2 →
    (s.port = asEvents (loadFilter c d) ++ rest →
      ∃ t, runEvents (loadFilter c d).length s = .next t ∧ t.port = rest ∧ Configured s t c.toNat d.kind d.secs ∧
        (d.kind = .bs → (t.context c.toNat).rg = d.rg ∧ (t.context c.toNat).sg = d.sg) ∧
        (d.kind ≠ .bs → (t.context c.toNat).rg = (s.context c.toNat).rg ∧
          (t.context c.toNat).sg = (s.context c.toNat).sg)) ∧
    (s.port = asEvents (bootSequence c d) ++ rest →
      ∃ t, runEvents (bootSequence c d).length s = .next t ∧ t.port = rest ∧
        Configured s t c.toNat d.kind
          (d.secs.map (fun q => if d.kind = .lp ∨ d.kind = .hp then ⟨q.a, q.d1, q.d2, 0, 0⟩ else q)) ∧
        (d.kind = .bs → (t.context c.toNat).rg = d.rg ∧ (t.context c.toNat).sg = d.sg) ∧
        (d.kind ≠ .bs → (t.context c.toNat).rg = 0x00000000#32 ∧ (t.context c.toNat).sg = 0x00000000#32))

/-- R608: the worked values of the designer's trigonometry. -/
def Obligations.DesignerWorkedValues : Prop :=
  hsin 3 0x00000000#32 = some 0x00000000#32 ∧ hsin 3 0x3F000000#32 = some 0x3EF58BE3#32 ∧
  hsin 3 0x3F800000#32 = some 0x3F57188A#32 ∧ hsin 3 0x40400000#32 = some 0x3E120F2E#32 ∧
  hsin 3 0xBF800000#32 = some 0xBF57188A#32 ∧ hsin 3 0x40E00000#32 = some 0x3F27ED1A#32 ∧
  hsin 3 0xC0E00000#32 = some 0xBF27ED1A#32 ∧ hcos 3 0x00000000#32 = some 0x3F800001#32 ∧
  hcos 3 0x3F800000#32 = some 0x3F0A3D8C#32 ∧ hcos 3 0xBF800000#32 = some 0x3F0A3D8E#32 ∧
  htan Config.exampleParams 3 0x3F000000#32 = some 0x3F0C1364#32 ∧
  htan Config.exampleParams 3 0x3FC90FDB#32 = some 0x461C4000#32 ∧
  htan Config.exampleParams 3 0x3FC90CB3#32 = some 0x461F420B#32

/-- R630, R640: designs of valid inputs that differ only in the kind share their feedback words: `HP` with `LP` (`D1`, `D2`,
and zero `D3`, `D4`), `BS` with `BP` (`D1` to `D4`); and their section counts agree. -/
def Obligations.PairedDesignsShareTheirFeedback : Prop :=
  ∀ (p : Config.HostParams) (fuel : Nat) (i : DesignInput) (a b : Kind) (d e : Design),
    ((a = .lp ∧ b = .hp) ∨ (a = .bp ∧ b = .bs)) →
    ({ i with kind := a } : DesignInput).valid = true →
    ({ i with kind := a } : DesignInput).design p fuel = some d →
    ({ i with kind := b } : DesignInput).design p fuel = some e →
    d.secs.length = sectionCount a i.order.toNat ∧ e.secs.length = d.secs.length ∧
    ∀ (n : Nat) (x y : Coeffs), d.secs[n]? = some x → e.secs[n]? = some y →
      x.d1 = y.d1 ∧ x.d2 = y.d2 ∧ x.d3 = y.d3 ∧ x.d4 = y.d4

/-- R611: the section count is the truncated quotient of the order, at most 2; and the table of the rule. -/
def Obligations.SectionCountTruncatesAndClamps : Prop :=
  (∀ order, sectionCount .lp order = min (order / 2) 2 ∧ sectionCount .hp order = min (order / 2) 2 ∧
    sectionCount .bp order = min (order / 4) 2 ∧ sectionCount .bs order = min (order / 4) 2) ∧
  [1, 2, 3, 4, 5, 6, 7, 8].map (sectionCount .lp) = [0, 1, 1, 2, 2, 2, 2, 2] ∧
  [1, 2, 3, 4, 5, 6, 7, 8].map (sectionCount .bp) = [0, 0, 0, 1, 1, 1, 1, 2] ∧
  ∀ order, 8 ≤ order → ∀ kind, sectionCount kind order = 2

/-- R653: what the dispatcher delivers lies in the range whatever the output is, a NaN too, and a value already in the range is
delivered as it is. That the output, the bounds and the delivered value are binary32 words compared by `flt32` is the model's
choice (log 17), and so is the form of the free value a NaN delivers (log 18); the hypotheses leave out an empty range and a
bound that is a NaN (log 21). -/
def Obligations.ClampDeliversWithinTheRange : Prop :=
  ∀ z lo hi : Word, isNaN lo = false → isNaN hi = false → flt32 hi lo = false →
    (isNaN (clampOut z lo hi) = false ∧ flt32 (clampOut z lo hi) lo = false ∧ flt32 hi (clampOut z lo hi) = false) ∧
    (isNaN z = false → flt32 z lo = true → clampOut z lo hi = lo) ∧
    (isNaN z = false → flt32 hi z = true → clampOut z lo hi = hi) ∧
    (isNaN z = false → flt32 z lo = false → flt32 hi z = false → clampOut z lo hi = z)

/-- R651, R652, R656, R309, R800: out of reset, one tick of the reference dispatcher evaluates the selected context on the
sample, an integer by `EVALU`, any other by `EVALF` through `XIN`, reads its `OUT` back complete, leaves every other context
and what waits at the port alone, and delivers that output with the bias for `HP` and `BP` only, clamped; while reset is
asserted the block refuses it. The binary32 sum and clamp of the host are the model's choice (log 17), and so are the form of
the free value a NaN delivers (log 18), a tick without other traffic in it (log 25) and the refusal by name (log 5). -/
def Obligations.DispatchTickDeliversTheSelectedOutput : Prop :=
  ∀ (p : Config.HostParams) (c : CtxIndex) (kind : Kind) (x : HostSample) (s : State), s.numContexts ≤ 15 →
    c.toNat < s.numContexts →
    (s.resetAsserted = false →
      ∃ t z, dispatchTick p c kind x s = .next (t, z) ∧
        (∀ n, x = .integer n → t.context c.toNat = (s.context c.toNat).evaluate (u2f32 n.toNat) ∧ t.xin = s.xin) ∧
        (∀ f, x = .real f → t.context c.toNat = (s.context c.toNat).evaluate f ∧ t.xin = f) ∧
        (∀ d, d ≠ c.toNat → t.context d = s.context d) ∧ t.illcmd = s.illcmd ∧ t.accerr = s.accerr ∧
        t.port = s.port ∧ t.reads = (t.context c.toNat).out :: s.reads ∧
        z = clampOut (if kind = .hp ∨ kind = .bp then fadd32 (t.context c.toNat).out p.dispatchBias
          else (t.context c.toNat).out) p.outMin p.outMax) ∧
    (s.resetAsserted = true → dispatchTick p c kind x s = .refused .accessDuringReset)

/-- R580: in arithmetic without rounding, the outputs of a section from zero state satisfy the difference equation of its
transfer function: `D(z)·Y = A·N(z)·V`. Only the ideal kernels are meant; the machine's outputs differ by rounding. -/
def Obligations.IdealOutputsSatisfyTheTransferFunction : Prop :=
  ∀ (kind : Kind) (r s a d1 d2 d3 d4 : ℚ) (v : List ℚ) (n : Nat), n < v.length →
    let y := IdealSection.outputs kind r s (IdealSection.fresh a d1 d2 d3 d4) v
    let c := idealNumerator kind r s
    delayed y n 0 =
      d1 * delayed y n 1 + d2 * delayed y n 2 + d3 * delayed y n 3 + d4 * delayed y n 4 +
        a * (c.1 * delayed v n 0 + c.2.1 * delayed v n 1 + c.2.2.1 * delayed v n 2 + c.2.2.2.1 * delayed v n 3 +
          c.2.2.2.2 * delayed v n 4)

/-- R581: the DC gain of designed sections in arithmetic without rounding, from the formulas of R620, R630 and R640: 1 for
`LP` and `BS`, 0 for `HP` and `BP`, for any prototype, bandwidth and pole term at which the denominator does not vanish. -/
def Obligations.IdealDesignedDcGain : Prop :=
  ∀ a b r : ℚ,
    (a ≠ 0 → a ^ 2 + 2 * a * r + 1 ≠ 0 →
      let sv := a ^ 2 + 2 * a * r + 1
      let d1 := 2 * (1 - a ^ 2) / sv
      let d2 := -(a ^ 2 - 2 * a * r + 1) / sv
      idealDcGain .lp (a ^ 2 / sv) d1 d2 0 0 0 0 = 1 ∧ idealDcGain .hp (1 / sv) d1 d2 0 0 0 0 = 0) ∧
    (a ≠ 1 → b ^ 2 + 2 * b * r + 1 ≠ 0 →
      let sv := b ^ 2 + 2 * b * r + 1
      let d1 := 4 * a * (1 + b * r) / sv
      let d2 := 2 * (b ^ 2 - 2 * a ^ 2 - 1) / sv
      let d3 := 4 * a * (1 - b * r) / sv
      let d4 := -(b ^ 2 - 2 * b * r + 1) / sv
      idealDcGain .bp (b ^ 2 / sv) d1 d2 d3 d4 0 0 = 0 ∧
      idealDcGain .bs (1 / sv) d1 d2 d3 d4 (4 * a) (4 * a ^ 2 + 2) = 1)
end

