-- ==== Sys2Proof/Laws/Decode.lean ====
section
/-! SUPPORT. The fields of a packed command word, and the inversion of the decoder: what each verdict says of the word. -/

namespace Sys2Proof

/-- A word is its four fields packed (R301). -/
theorem packCommand_fields (w : Word) : packCommand (opField w) (ctxField w) (rsvField w) (immField w) = w := by
  apply BitVec.eq_of_getLsbD_eq
  intro i hi
  simp only [packCommand, opField, ctxField, rsvField, immField, BitVec.getLsbD_append, BitVec.getLsbD_extractLsb']
  by_cases h1 : i < 16
  · simp [h1]
  · by_cases h2 : i < 24
    · simp [h1, show i - 16 < 8 by omega, show 16 + (i - 16) = i by omega]
    · by_cases h3 : i < 28
      · simp [h1, show ¬ (i - 16 < 8) by omega, show i - 16 - 8 < 4 by omega, show 24 + (i - 16 - 8) = i by omega]
      · simp [h1, show ¬ (i - 16 < 8) by omega, show ¬ (i - 16 - 8 < 4) by omega,
          show i - 16 - 8 - 4 < 4 by omega, show 28 + (i - 16 - 8 - 4) = i by omega]

/-- An append is zero exactly when both parts are. -/
theorem append_eq_zero_iff {w v : Nat} (x : BitVec w) (y : BitVec v) : x ++ y = 0#(w + v) ↔ x = 0#w ∧ y = 0#v := by
  constructor
  · intro h
    have hb : ∀ i, (x ++ y).getLsbD i = false := by intro i; rw [h]; simp
    constructor
    · apply BitVec.eq_of_getLsbD_eq
      intro i hi
      have := hb (v + i)
      rw [BitVec.getLsbD_append, if_neg (by omega), show v + i - v = i by omega] at this
      simp [this]
    · apply BitVec.eq_of_getLsbD_eq
      intro i hi
      have := hb i
      rw [BitVec.getLsbD_append, if_pos hi] at this
      simp [this]
  · rintro ⟨rfl, rfl⟩
    apply BitVec.eq_of_getLsbD_eq
    intro i hi
    simp

section Pack
variable (op : BitVec 4) (c : CtxIndex) (rsv : BitVec 8) (imm : BitVec 16)

@[simp] theorem opField_pack : opField (packCommand op c rsv imm) = op := by
  apply BitVec.eq_of_getLsbD_eq
  intro i hi
  simp only [packCommand, opField, BitVec.getLsbD_append, BitVec.getLsbD_extractLsb']
  simp [hi, show ¬ (28 + i < 16) by omega,
    show ¬ (28 + i - 16 < 8) by omega, show ¬ (28 + i - 16 - 8 < 4) by omega, show 28 + i - 16 - 8 - 4 = i by omega]

@[simp] theorem ctxField_pack : ctxField (packCommand op c rsv imm) = c := by
  apply BitVec.eq_of_getLsbD_eq
  intro i hi
  simp only [packCommand, ctxField, BitVec.getLsbD_append, BitVec.getLsbD_extractLsb']
  simp [hi, show ¬ (24 + i < 16) by omega,
    show ¬ (24 + i - 16 < 8) by omega, show 24 + i - 16 - 8 = i by omega]

@[simp] theorem rsvField_pack : rsvField (packCommand op c rsv imm) = rsv := by
  apply BitVec.eq_of_getLsbD_eq
  intro i hi
  simp only [packCommand, rsvField, BitVec.getLsbD_append, BitVec.getLsbD_extractLsb']
  simp [hi]

@[simp] theorem immField_pack : immField (packCommand op c rsv imm) = imm := by
  apply BitVec.eq_of_getLsbD_eq
  intro i hi
  simp only [packCommand, immField, BitVec.getLsbD_append, BitVec.getLsbD_extractLsb']
  simp [hi]

/-- A mask acts field by field. -/
theorem packCommand_and (op' : BitVec 4) (c' : CtxIndex) (rsv' : BitVec 8) (imm' : BitVec 16) :
    packCommand op c rsv imm &&& packCommand op' c' rsv' imm' =
      packCommand (op &&& op') (c &&& c') (rsv &&& rsv') (imm &&& imm') := by
  apply BitVec.eq_of_getLsbD_eq
  intro i hi
  simp only [packCommand, BitVec.getLsbD_append, BitVec.getLsbD_and]
  split; · rfl
  split; · rfl
  split <;> rfl

/-- Bits 23:0 are clear exactly when both lower fields are. -/
theorem low24_pack : (packCommand op c rsv imm).extractLsb' 0 24 = 0#24 ↔ rsv = 0#8 ∧ imm = 0#16 := by
  have e : (packCommand op c rsv imm).extractLsb' 0 24 = (rsv ++ imm : BitVec 24) := by
    apply BitVec.eq_of_getLsbD_eq
    intro i hi
    simp only [packCommand, BitVec.getLsbD_append, BitVec.getLsbD_extractLsb', hi, Nat.zero_add, decide_true,
      Bool.true_and]
    by_cases h : i < 16
    · simp [h]
    · simp [h, show i - 16 < 8 by omega]
  rw [e]
  exact append_eq_zero_iff rsv imm

/-- Bits 27:0 are clear exactly when the three lower fields are. -/
theorem low28_pack : (packCommand op c rsv imm).extractLsb' 0 28 = 0#28 ↔ c = 0#4 ∧ rsv = 0#8 ∧ imm = 0#16 := by
  have e : (packCommand op c rsv imm).extractLsb' 0 28 = (c ++ (rsv ++ imm : BitVec 24) : BitVec 28) := by
    apply BitVec.eq_of_getLsbD_eq
    intro i hi
    simp only [packCommand, BitVec.getLsbD_append, BitVec.getLsbD_extractLsb', hi, Nat.zero_add, decide_true,
      Bool.true_and]
    by_cases h : i < 16
    · simp [h, show i < 24 by omega]
    · by_cases h' : i < 24
      · simp [h, h', show i - 16 < 8 by omega]
      · simp only [h, h', if_false, show ¬ (i - 16 < 8) by omega, show i - 16 - 8 = i - 24 by omega,
          if_pos (show i - 24 < 4 by omega)]
  rw [e]
  exact (append_eq_zero_iff c (rsv ++ imm)).trans (and_congr Iff.rfl (append_eq_zero_iff rsv imm))

end Pack

/-- The decoder on a word given by its fields (R305). -/
theorem decode_pack (nctx : Nat) (op : BitVec 4) (c : CtxIndex) (rsv : BitVec 8) (imm : BitVec 16) :
    decode nctx (packCommand op c rsv imm) =
      if op = 0x0#4 then
        if c = 0#4 ∧ rsv = 0#8 ∧ imm = 0#16 then .ok .nop else .error .nopBitsSet
      else if op = 0x1#4 then
        if rsv = 0#8 then if c.toNat < nctx then .ok (.evalu c imm) else .error .noSuchContext
        else .error .reservedFieldSet
      else if op = 0x2#4 then
        if rsv = 0#8 ∧ imm = 0#16 then if c.toNat < nctx then .ok (.evalx c) else .error .noSuchContext
        else .error .operandBitsSet
      else if op = 0x3#4 then
        if rsv = 0#8 ∧ imm = 0#16 then if c.toNat < nctx then .ok (.clear c) else .error .noSuchContext
        else .error .operandBitsSet
      else .error .reservedOp := by
  simp only [decode, opField_pack, ctxField_pack, rsvField_pack, immField_pack, low24_pack, low28_pack]

/-- The word of a command as its fields. -/
theorem encode_eq_pack (i : Instr) : ∃ op c rsv imm, encode i = packCommand op c rsv imm := by
  exact ⟨_, _, _, _, (packCommand_fields (encode i)).symm⟩

theorem encode_nop : encode .nop = packCommand 0#4 0#4 0#8 0#16 := rfl

/-- A word crosses the bus in its byte lanes and arrives whole (R202). -/
theorem wordOfLanes_lanes (w : Word) :
    wordOfLanes (laneByte w 0) (laneByte w 1) (laneByte w 2) (laneByte w 3) = w := by
  apply BitVec.eq_of_getLsbD_eq
  intro i hi
  simp only [wordOfLanes, laneByte, BitVec.getLsbD_append, BitVec.getLsbD_extractLsb']
  by_cases h1 : i < 8
  · simp [h1]
  · by_cases h2 : i < 16
    · simp [h1, show i - 8 < 8 by omega, show 8 + (i - 8) = i by omega]
    · by_cases h3 : i < 24
      · simp [h1, show ¬ (i - 8 < 8) by omega, show i - 8 - 8 < 8 by omega, show 16 + (i - 8 - 8) = i by omega]
      · simp [h1, show ¬ (i - 8 < 8) by omega, show ¬ (i - 8 - 8 < 8) by omega,
          show i - 8 - 8 - 8 < 8 by omega, show 24 + (i - 8 - 8 - 8) = i by omega]

/-- A decoded command names a context that exists. -/
theorem decode_wellFormed {nctx : Nat} {w : Word} {i : Instr} (h : decode nctx w = .ok i) : i.wellFormed nctx := by
  rw [← packCommand_fields w, decode_pack] at h
  repeat' split at h
  all_goals cases h
  all_goals simp_all [Instr.wellFormed]

/-! ### The fields as numbers -/

theorem opField_toNat (w : Word) : (opField w).toNat = w.toNat / 2 ^ 28 := by
  simp [opField, BitVec.extractLsb'_toNat, Nat.shiftRight_eq_div_pow]
  have := w.isLt
  omega

theorem ctxField_toNat (w : Word) : (ctxField w).toNat = w.toNat / 2 ^ 24 % 16 := by
  simp [ctxField, BitVec.extractLsb'_toNat, Nat.shiftRight_eq_div_pow]

theorem rsvField_toNat (w : Word) : (rsvField w).toNat = w.toNat / 2 ^ 16 % 2 ^ 8 := by
  simp [rsvField, BitVec.extractLsb'_toNat, Nat.shiftRight_eq_div_pow]

theorem low24_toNat (w : Word) : (w.extractLsb' 0 24).toNat = w.toNat % 2 ^ 24 := by
  simp [BitVec.extractLsb'_toNat]

theorem low28_toNat (w : Word) : (w.extractLsb' 0 28).toNat = w.toNat % 2 ^ 28 := by
  simp [BitVec.extractLsb'_toNat]

theorem ctxField_eq_ofNat (w : Word) : ctxField w = BitVec.ofNat 4 (w.toNat / 2 ^ 24) := by
  apply BitVec.eq_of_toNat_eq; rw [ctxField_toNat]; simp

theorem immField_eq_ofNat (w : Word) : immField w = BitVec.ofNat 16 w.toNat := by
  apply BitVec.eq_of_toNat_eq; simp [immField, BitVec.extractLsb'_toNat]

/-- The decoder with its tests as arithmetic on the word (R305). -/
theorem decode_toNat (nctx : Nat) (w : Word) :
    decode nctx w =
      if w.toNat / 2 ^ 28 = 0 then if w.toNat % 2 ^ 28 = 0 then .ok .nop else .error .nopBitsSet
      else if w.toNat / 2 ^ 28 = 1 then
        if w.toNat / 2 ^ 16 % 2 ^ 8 = 0 then
          if w.toNat / 2 ^ 24 % 16 < nctx then .ok (.evalu (ctxField w) (immField w)) else .error .noSuchContext
        else .error .reservedFieldSet
      else if w.toNat / 2 ^ 28 = 2 then
        if w.toNat % 2 ^ 24 = 0 then
          if w.toNat / 2 ^ 24 % 16 < nctx then .ok (.evalx (ctxField w)) else .error .noSuchContext
        else .error .operandBitsSet
      else if w.toNat / 2 ^ 28 = 3 then
        if w.toNat % 2 ^ 24 = 0 then
          if w.toNat / 2 ^ 24 % 16 < nctx then .ok (.clear (ctxField w)) else .error .noSuchContext
        else .error .operandBitsSet
      else .error .reservedOp := by
  have eq : ∀ {n : Nat} (b c : BitVec n), b = c ↔ b.toNat = c.toNat := fun _ _ => BitVec.toNat_inj.symm
  unfold decode
  simp only [eq (opField w), eq (rsvField w), eq (BitVec.extractLsb' _ _ _), opField_toNat, ctxField_toNat,
    rsvField_toNat, low24_toNat, low28_toNat]
  rfl

/-- A packed word as a number. -/
theorem packCommand_toNat (op : BitVec 4) (c : CtxIndex) (rsv : BitVec 8) (imm : BitVec 16) :
    (packCommand op c rsv imm).toNat = op.toNat * 2 ^ 28 + c.toNat * 2 ^ 24 + rsv.toNat * 2 ^ 16 + imm.toNat := by
  unfold packCommand
  simp only [BitVec.toNat_append]
  have h1 := op.isLt
  have h2 := c.isLt
  have h3 := rsv.isLt
  have h4 := imm.isLt
  rw [← Nat.shiftLeft_add_eq_or_of_lt h4, ← Nat.shiftLeft_add_eq_or_of_lt h3, ← Nat.shiftLeft_add_eq_or_of_lt h2]
  simp only [Nat.shiftLeft_eq]
  omega

/-- Equal packed words have equal fields. -/
theorem packCommand_inj {op op' : BitVec 4} {c c' : CtxIndex} {rsv rsv' : BitVec 8} {imm imm' : BitVec 16}
    (h : packCommand op c rsv imm = packCommand op' c' rsv' imm') : op = op' ∧ c = c' ∧ rsv = rsv' ∧ imm = imm' :=
  ⟨by simpa using congrArg opField h, by simpa using congrArg ctxField h, by simpa using congrArg rsvField h,
    by simpa using congrArg immField h⟩

end Sys2Proof
end

