-- ==== Sys2Proof/Laws/State.lean ====
section
/-! SUPPORT. One lemma per field per update of the state, true by `rfl`, so that no later proof unfolds a record update. -/

namespace Sys2Proof.Machine

section RecordError
variable (s : State)
@[simp] theorem recordError_illcmd_illcmd : (s.recordError .illcmd).illcmd = true := rfl
@[simp] theorem recordError_accerr_accerr : (s.recordError .accerr).accerr = true := rfl
@[simp] theorem recordError_illcmd_accerr : (s.recordError .illcmd).accerr = s.accerr := rfl
@[simp] theorem recordError_accerr_illcmd : (s.recordError .accerr).illcmd = s.illcmd := rfl
@[simp] theorem recordError_xin (e : ErrorCause) : (s.recordError e).xin = s.xin := by cases e <;> rfl
@[simp] theorem recordError_ctx (e : ErrorCause) : (s.recordError e).ctx = s.ctx := by cases e <;> rfl
@[simp] theorem recordError_port (e : ErrorCause) : (s.recordError e).port = s.port := by cases e <;> rfl
@[simp] theorem recordError_reads (e : ErrorCause) : (s.recordError e).reads = s.reads := by cases e <;> rfl
@[simp] theorem recordError_resetAsserted (e : ErrorCause) : (s.recordError e).resetAsserted = s.resetAsserted := by
  cases e <;> rfl
@[simp] theorem recordError_numContexts (e : ErrorCause) : (s.recordError e).numContexts = s.numContexts := by
  cases e <;> rfl
@[simp] theorem recordError_context (e : ErrorCause) (c : Nat) : (s.recordError e).context c = s.context c := by
  cases e <;> rfl
end RecordError

section ClearStatus
variable (s : State) (v : Word)
@[simp] theorem clearStatus_illcmd : (s.clearStatus v).illcmd = (s.illcmd && !v.getLsbD 0) := rfl
@[simp] theorem clearStatus_accerr : (s.clearStatus v).accerr = (s.accerr && !v.getLsbD 1) := rfl
@[simp] theorem clearStatus_xin : (s.clearStatus v).xin = s.xin := rfl
@[simp] theorem clearStatus_ctx : (s.clearStatus v).ctx = s.ctx := rfl
@[simp] theorem clearStatus_port : (s.clearStatus v).port = s.port := rfl
@[simp] theorem clearStatus_reads : (s.clearStatus v).reads = s.reads := rfl
@[simp] theorem clearStatus_resetAsserted : (s.clearStatus v).resetAsserted = s.resetAsserted := rfl
@[simp] theorem clearStatus_numContexts : (s.clearStatus v).numContexts = s.numContexts := rfl
@[simp] theorem clearStatus_context (c : Nat) : (s.clearStatus v).context c = s.context c := rfl
end ClearStatus

section UpdContext
variable (s : State) (c : Nat) (f : Context → Context)
@[simp] theorem updContext_xin : (s.updContext c f).xin = s.xin := rfl
@[simp] theorem updContext_illcmd : (s.updContext c f).illcmd = s.illcmd := rfl
@[simp] theorem updContext_accerr : (s.updContext c f).accerr = s.accerr := rfl
@[simp] theorem updContext_port : (s.updContext c f).port = s.port := rfl
@[simp] theorem updContext_reads : (s.updContext c f).reads = s.reads := rfl
@[simp] theorem updContext_resetAsserted : (s.updContext c f).resetAsserted = s.resetAsserted := rfl
@[simp] theorem updContext_statusWord : (s.updContext c f).statusWord = s.statusWord := rfl
@[simp] theorem updContext_numContexts : (s.updContext c f).numContexts = s.numContexts := by
  simp [State.updContext, State.numContexts]
end UpdContext

section WithPort
variable (s : State) (rest : List PortEvent)
@[simp] theorem withPort_port : (s.withPort rest).port = rest := rfl
@[simp] theorem withPort_xin : (s.withPort rest).xin = s.xin := rfl
@[simp] theorem withPort_illcmd : (s.withPort rest).illcmd = s.illcmd := rfl
@[simp] theorem withPort_accerr : (s.withPort rest).accerr = s.accerr := rfl
@[simp] theorem withPort_ctx : (s.withPort rest).ctx = s.ctx := rfl
@[simp] theorem withPort_reads : (s.withPort rest).reads = s.reads := rfl
@[simp] theorem withPort_resetAsserted : (s.withPort rest).resetAsserted = s.resetAsserted := rfl
@[simp] theorem withPort_numContexts : (s.withPort rest).numContexts = s.numContexts := rfl
@[simp] theorem withPort_context (c : Nat) : (s.withPort rest).context c = s.context c := rfl
@[simp] theorem withPort_readTarget (t : Target) : (s.withPort rest).readTarget t = s.readTarget t := by cases t <;> rfl
@[simp] theorem withPort_readReg (off : Offset) : (s.withPort rest).readReg off = s.readReg off := by
  unfold State.readReg; rw [withPort_readTarget, withPort_numContexts]
@[simp] theorem withPort_windowByte (a : Offset) : (s.withPort rest).windowByte a = s.windowByte a := by
  unfold State.windowByte; rw [withPort_readReg]
end WithPort

section ResetRegisters
variable (s : State)
@[simp] theorem resetRegisters_xin : s.resetRegisters.xin = 0 := rfl
@[simp] theorem resetRegisters_illcmd : s.resetRegisters.illcmd = false := rfl
@[simp] theorem resetRegisters_accerr : s.resetRegisters.accerr = false := rfl
@[simp] theorem resetRegisters_ctx : s.resetRegisters.ctx = List.replicate s.numContexts Context.reset := rfl
@[simp] theorem resetRegisters_port : s.resetRegisters.port = s.port := rfl
@[simp] theorem resetRegisters_reads : s.resetRegisters.reads = s.reads := rfl
@[simp] theorem resetRegisters_resetAsserted : s.resetRegisters.resetAsserted = s.resetAsserted := rfl
@[simp] theorem resetRegisters_numContexts : s.resetRegisters.numContexts = s.numContexts := by
  simp [State.numContexts]
end ResetRegisters

section DriveReset
variable (s : State) (b : Bool)
@[simp] theorem driveReset_port : (s.driveReset b).port = s.port := by
  unfold State.driveReset; split <;> [rfl; split <;> rfl]
@[simp] theorem driveReset_reads : (s.driveReset b).reads = s.reads := by
  unfold State.driveReset; split <;> [rfl; split <;> rfl]
@[simp] theorem driveReset_resetAsserted : (s.driveReset b).resetAsserted = b := by
  unfold State.driveReset
  cases b
  · cases h : s.resetAsserted <;> simp [h]
  · rfl
@[simp] theorem driveReset_numContexts : (s.driveReset b).numContexts = s.numContexts := by
  unfold State.driveReset; split <;> [rfl; split <;> [exact resetRegisters_numContexts s; rfl]]
end DriveReset

section PresentCommand
variable (s : State) (w : Word)
@[simp] theorem presentCommand_port : (s.presentCommand w).port = commandWrite w :: s.port := rfl
@[simp] theorem presentCommand_resetAsserted : (s.presentCommand w).resetAsserted = false := rfl
@[simp] theorem presentCommand_xin : (s.presentCommand w).xin = s.xin := rfl
@[simp] theorem presentCommand_illcmd : (s.presentCommand w).illcmd = s.illcmd := rfl
@[simp] theorem presentCommand_accerr : (s.presentCommand w).accerr = s.accerr := rfl
@[simp] theorem presentCommand_ctx : (s.presentCommand w).ctx = s.ctx := rfl
@[simp] theorem presentCommand_reads : (s.presentCommand w).reads = s.reads := rfl
end PresentCommand

section Resets
variable (n : Nat)
@[simp] theorem resetWith_xin : (State.resetWith n).xin = 0 := rfl
@[simp] theorem resetWith_illcmd : (State.resetWith n).illcmd = false := rfl
@[simp] theorem resetWith_accerr : (State.resetWith n).accerr = false := rfl
@[simp] theorem resetWith_ctx : (State.resetWith n).ctx = List.replicate n Context.reset := rfl
@[simp] theorem resetWith_numContexts : (State.resetWith n).numContexts = n := by simp [State.numContexts]
end Resets

section Sections
variable (k : Section) (r q : SecReg) (v : Word)
@[simp] theorem get_set_same : (k.set r v).get r = v := by cases r <;> rfl
theorem get_set_ne (h : q ≠ r) : (k.set r v).get q = k.get q := by
  cases r <;> cases q <;> first | rfl | exact absurd rfl h
@[simp] theorem section_reset_get : Section.reset.get r = 0 := by cases r <;> rfl
end Sections

section Contexts
variable (k : Context) (i j : Fin 2) (x : Section)
@[simp] theorem sec_zero : k.sec 0 = k.sec0 := rfl
@[simp] theorem sec_one : k.sec 1 = k.sec1 := rfl
@[simp] theorem setSec_zero : k.setSec 0 x = { k with sec0 := x } := rfl
@[simp] theorem setSec_one : k.setSec 1 x = { k with sec1 := x } := rfl
@[simp] theorem setSec_kind : (k.setSec i x).kind = k.kind := by unfold Context.setSec; split <;> rfl
@[simp] theorem setSec_nsec : (k.setSec i x).nsec = k.nsec := by unfold Context.setSec; split <;> rfl
@[simp] theorem setSec_out : (k.setSec i x).out = k.out := by unfold Context.setSec; split <;> rfl
@[simp] theorem setSec_rg : (k.setSec i x).rg = k.rg := by unfold Context.setSec; split <;> rfl
@[simp] theorem setSec_sg : (k.setSec i x).sg = k.sg := by unfold Context.setSec; split <;> rfl
@[simp] theorem sec_setSec_same : (k.setSec i x).sec i = x := by
  unfold Context.setSec Context.sec; split <;> simp_all
theorem sec_setSec_ne (h : j ≠ i) : (k.setSec i x).sec j = k.sec j := by
  unfold Context.setSec Context.sec; split <;> split <;> simp_all; omega
@[simp] theorem reset_sec : Context.reset.sec i = Section.reset := by unfold Context.sec; split <;> rfl
end Contexts

section WriteCtrl
variable (k : Context) (v : Word)
@[simp] theorem writeCtrl_out : (k.writeCtrl v).out = k.out := rfl
@[simp] theorem writeCtrl_rg : (k.writeCtrl v).rg = k.rg := rfl
@[simp] theorem writeCtrl_sg : (k.writeCtrl v).sg = k.sg := rfl
@[simp] theorem writeCtrl_sec0 : (k.writeCtrl v).sec0 = k.sec0 := rfl
@[simp] theorem writeCtrl_sec1 : (k.writeCtrl v).sec1 = k.sec1 := rfl
@[simp] theorem writeCtrl_sec (i : Fin 2) : (k.writeCtrl v).sec i = k.sec i := by unfold Context.sec; split <;> rfl
@[simp] theorem writeCtrl_kind : (k.writeCtrl v).kind = kindOfBits (v.extractLsb' 0 2) := rfl
@[simp] theorem writeCtrl_nsec : (k.writeCtrl v).nsec = clampNsec (v.extractLsb' 4 2) := rfl
end WriteCtrl

end Sys2Proof.Machine
end

