-- ==== Sys2Proof/Laws/Ops.lean ====
section
/-! SUPPORT. One spec lemma per shared operation over the registers: contexts, address decoding, reads and writes. -/

namespace Sys2Proof.Machine

/-! ### Contexts -/

theorem context_eq (s : State) (c : Nat) : s.context c = s.ctx[c]?.getD Context.reset := by
  simp [State.context, List.getD_eq_getElem?_getD]

@[simp] theorem context_updContext_same (s : State) (c : Nat) (f : Context → Context) (h : c < s.numContexts) :
    (s.updContext c f).context c = f (s.context c) := by
  have h' : c < s.ctx.length := h
  simp [context_eq, State.updContext, h']

theorem context_updContext_ne (s : State) (c d : Nat) (f : Context → Context) (h : d ≠ c) :
    (s.updContext c f).context d = s.context d := by
  simp [context_eq, State.updContext, Ne.symm h]

/-- A context beyond the last one is nobody's: updating it changes nothing. -/
theorem updContext_out_of_range (s : State) (c : Nat) (f : Context → Context) (h : s.numContexts ≤ c) :
    s.updContext c f = s := by
  have h' : s.ctx.length ≤ c := h
  unfold State.updContext
  rw [List.modify_eq_self h']

/-- Two states with the same registers are equal when they agree on every context. -/
theorem ctx_ext (s t : State) (hn : s.numContexts = t.numContexts)
    (h : ∀ c, c < s.numContexts → s.context c = t.context c) : s.ctx = t.ctx := by
  apply List.ext_getElem hn
  intro c h1 h2
  have := h c h1
  simpa [context_eq, h1, h2] using this

/-- Updates of one context that agree on it are the same update. -/
theorem updContext_congr (s : State) (c : Nat) (f g : Context → Context) (h : f (s.context c) = g (s.context c)) :
    s.updContext c f = s.updContext c g := by
  by_cases hc : c < s.numContexts
  · have : (s.updContext c f).ctx = (s.updContext c g).ctx := by
      apply ctx_ext
      · simp
      · intro d _
        by_cases hd : d = c
        · subst hd; simp [hc, h]
        · rw [context_updContext_ne _ _ _ _ hd, context_updContext_ne _ _ _ _ hd]
    unfold State.updContext at *
    simp_all
  · rw [updContext_out_of_range _ _ _ (by omega), updContext_out_of_range _ _ _ (by omega)]

theorem context_resetWith (n c : Nat) : (State.resetWith n).context c = Context.reset := by
  rw [context_eq]
  by_cases h : c < n
  · simp [h]
  · simp [h]

theorem context_resetRegisters (s : State) (c : Nat) : s.resetRegisters.context c = Context.reset := by
  rw [context_eq]
  by_cases h : c < s.numContexts
  · simp [h]
  · simp [h]

theorem context_mem (s : State) (c : Nat) (h : c < s.numContexts) : s.context c ∈ s.ctx := by
  have h' : c < s.ctx.length := h
  simp [context_eq, h']

/-! ### Legal accesses -/

theorem legalAccess_iff (off : Offset) (n : Width) : legalAccess off n = true ↔ n = .word ∧ off.toNat % 4 = 0 := by
  unfold legalAccess
  simp only [decide_eq_true_eq]
  constructor
  · rintro ⟨h, h'⟩
    refine ⟨h, ?_⟩
    have := congrArg BitVec.toNat h'
    simpa using this
  · rintro ⟨h, h'⟩
    refine ⟨h, ?_⟩
    apply BitVec.eq_of_toNat_eq
    simpa using h'

/-! ### Address decoding -/

@[simp] theorem windowOffset_toNat (a : Nat) : (windowOffset a).toNat = a % 4096 := by simp [windowOffset]

theorem secRegAt_offset (r : SecReg) : secRegAt r.offset = some r := by cases r <;> rfl

theorem secRegAt_some {q : Nat} {r : SecReg} (h : secRegAt q = some r) : q = r.offset := by
  unfold secRegAt at h
  repeat (split at h; · (cases h; assumption))
  cases h

theorem SecReg.offset_lt (r : SecReg) : r.offset < 0x34 := by cases r <;> decide

theorem SecReg.offset_mod (r : SecReg) : r.offset % 4 = 0 := by cases r <;> rfl

/-- Where a register of a context stands (R118): `locateInContext` read back. -/
theorem locateInContext_offset (c r : Nat) :
    locateInContext c r = .reserved ∨ (locateInContext c r).offset = some (contextBase c + r) := by
  unfold locateInContext
  split; · right; simp_all [Target.offset]
  split; · right; simp_all [Target.offset]
  split; · right; simp_all [Target.offset]
  split; · right; simp_all [Target.offset]
  split
  · rename_i hr
    cases hq : secRegAt ((r - 0x10) % 0x40) with
    | none => exact .inl rfl
    | some q =>
      right
      have hq' := secRegAt_some hq
      have hlt := q.offset_lt
      simp only [Target.offset, sectionBase, Option.some.injEq]
      by_cases h50 : r < 0x50
      · rw [if_pos h50]; show contextBase c + 0x10 + 0x40 * 0 + q.offset = _; omega
      · rw [if_neg h50]; show contextBase c + 0x10 + 0x40 * 1 + q.offset = _; omega
  · exact .inl rfl

/-- Where a located register stands (R118): the map of `locate` read back. -/
theorem locate_offset {nctx : Nat} {off : Offset} (h : locate nctx off ≠ .reserved) :
    (locate nctx off).offset = some off.toNat := by
  unfold locate at h ⊢
  by_cases h1 : off.toNat = 0x000
  · rw [if_pos h1, h1]; rfl
  by_cases h2 : off.toNat = 0x004
  · rw [if_neg h1, if_pos h2, h2]; rfl
  by_cases h3 : off.toNat = 0x008
  · rw [if_neg h1, if_neg h2, if_pos h3, h3]; rfl
  by_cases h4 : off.toNat = 0x00C
  · rw [if_neg h1, if_neg h2, if_neg h3, if_pos h4, h4]; rfl
  by_cases h5 : off.toNat = 0x010
  · rw [if_neg h1, if_neg h2, if_neg h3, if_neg h4, if_pos h5, h5]; rfl
  rw [if_neg h1, if_neg h2, if_neg h3, if_neg h4, if_neg h5] at h ⊢
  by_cases h6 : off.toNat < 0x100
  · rw [if_pos h6] at h; exact absurd rfl h
  rw [if_neg h6] at h ⊢
  by_cases h7 : off.toNat / 0x100 - 1 < nctx
  · rw [if_pos h7] at h ⊢
    rw [(locateInContext_offset _ _).resolve_left h]
    simp only [contextBase, Option.some.injEq]
    omega
  · rw [if_neg h7] at h; exact absurd rfl h

theorem locateInContext_context (c r : Nat) :
    (locateInContext c r).context? = none ∨ (locateInContext c r).context? = some c := by
  unfold locateInContext
  split; · exact .inr rfl
  split; · exact .inr rfl
  split; · exact .inr rfl
  split; · exact .inr rfl
  split
  · cases secRegAt ((r - 0x10) % 0x40) with
    | none => exact .inl rfl
    | some q => exact .inr rfl
  · exact .inl rfl

/-- The context of a located register exists. -/
theorem locate_context {nctx : Nat} {off : Offset} {c : Nat} (h : (locate nctx off).context? = some c) : c < nctx := by
  unfold locate at h
  split at h; · cases h
  split at h; · cases h
  split at h; · cases h
  split at h; · cases h
  split at h; · cases h
  split at h; · cases h
  split at h
  · rename_i hc
    rcases locateInContext_context (off.toNat / 0x100 - 1) (off.toNat % 0x100) with hn | hs
    · rw [hn] at h; cases h
    · rw [hs] at h; cases h; exact hc
  · cases h

/-- `ID`, `PARAM`, `STATUS`, `CMD`, `XIN` stand at the five global offsets (R118). -/
theorem locate_globals (nctx : Nat) :
    locate nctx 0x000#12 = .id ∧ locate nctx 0x004#12 = .param ∧ locate nctx 0x008#12 = .status ∧
      locate nctx 0x00C#12 = .cmd ∧ locate nctx 0x010#12 = .xin := ⟨rfl, rfl, rfl, rfl, rfl⟩

theorem locate_cmd {nctx : Nat} {off : Offset} (h : locate nctx off = .cmd) : off = 0x00C#12 := by
  have := locate_offset (nctx := nctx) (off := off) (by rw [h]; simp)
  rw [h] at this
  apply BitVec.eq_of_toNat_eq
  simpa [Target.offset] using this.symm

theorem locate_status {nctx : Nat} {off : Offset} (h : locate nctx off = .status) : off = 0x008#12 := by
  have := locate_offset (nctx := nctx) (off := off) (by rw [h]; simp)
  rw [h] at this
  apply BitVec.eq_of_toNat_eq
  simpa [Target.offset] using this.symm

/-- Inside a context that exists, decoding is `locateInContext`. -/
theorem locate_in_context {nctx c r : Nat} (hc : c < nctx) (hn : nctx ≤ 15) (hr : r < 0x100) :
    locate nctx (windowOffset (contextBase c + r)) = locateInContext c r := by
  unfold locate
  simp only [windowOffset_toNat, contextBase]
  have h1 : (0x100 * (c + 1) + r) % 4096 = 0x100 * (c + 1) + r := by omega
  have h2 : (0x100 * (c + 1) + r) / 0x100 - 1 = c := by omega
  have h3 : (0x100 * (c + 1) + r) % 0x100 = r := by omega
  rw [h1, h2, h3]
  rw [if_neg (by omega), if_neg (by omega), if_neg (by omega), if_neg (by omega), if_neg (by omega),
    if_neg (by omega), if_pos hc]

/-! ### Field encodings -/

@[simp] theorem kindOfBits_kindBits (k : Kind) : kindOfBits (kindBits k) = k := by cases k <;> rfl

@[simp] theorem kindBits_kindOfBits (b : BitVec 2) : kindBits (kindOfBits b) = b := by revert b; decide

theorem clampNsec_le (b : BitVec 2) : (clampNsec b).toNat ≤ Config.maxSections := by revert b; decide

theorem clampNsec_of_le {b : BitVec 2} (h : b.toNat ≤ 2) : clampNsec b = b := by revert b; decide

/-! ### Reads and writes of located registers -/

theorem numContexts_writeTarget (s : State) (t : Target) (v : Word) :
    (s.writeTarget t v).numContexts = s.numContexts := by
  cases t <;> (simp [State.writeTarget]; try rfl)

theorem port_writeTarget (s : State) (t : Target) (v : Word) : (s.writeTarget t v).port = s.port := by
  cases t <;> rfl

theorem reads_writeTarget (s : State) (t : Target) (v : Word) : (s.writeTarget t v).reads = s.reads := by
  cases t <;> rfl

theorem resetAsserted_writeTarget (s : State) (t : Target) (v : Word) :
    (s.writeTarget t v).resetAsserted = s.resetAsserted := by cases t <;> rfl

/-- A read depends only on the registers: equal registers read equal. -/
theorem readReg_congr {s t : State} (hx : s.xin = t.xin) (hi : s.illcmd = t.illcmd) (ha : s.accerr = t.accerr)
    (hc : s.ctx = t.ctx) (off : Offset) : s.readReg off = t.readReg off := by
  unfold State.readReg State.readTarget State.statusWord State.numContexts State.context
  rw [hx, hi, ha, hc]

/-! ### The registers of a context that exists -/

theorem locate_context_registers {nctx c : Nat} (hc : c < nctx) (hn : nctx ≤ 15) :
    locate nctx (windowOffset (contextBase c)) = .ctrl c ∧
      locate nctx (windowOffset (contextBase c + 0x04)) = .out c ∧
      locate nctx (windowOffset (contextBase c + 0x08)) = .rg c ∧
      locate nctx (windowOffset (contextBase c + 0x0C)) = .sg c :=
  ⟨locate_in_context (r := 0) hc hn (by norm_num), locate_in_context hc hn (by norm_num),
    locate_in_context hc hn (by norm_num), locate_in_context hc hn (by norm_num)⟩

theorem locate_section_register {nctx c : Nat} (hc : c < nctx) (hn : nctx ≤ 15) (i : Fin 2) (r : SecReg) :
    locate nctx (windowOffset (sectionBase c i + r.offset)) = .sec c i r := by
  have h := locate_in_context (nctx := nctx) (c := c) (r := 0x10 + 0x40 * i.val + r.offset) hc hn
    (by have := r.offset_lt; have := i.isLt; omega)
  rw [show contextBase c + (0x10 + 0x40 * i.val + r.offset) = sectionBase c i + r.offset by unfold sectionBase; omega]
    at h
  rw [h]
  match i with
  | 0 => cases r <;> rfl
  | 1 => cases r <;> rfl

/-- An offset of the window is the platform address of its own number. -/
theorem eq_windowOffset {off : Offset} {n : Nat} (h : off.toNat = n) : off = windowOffset n := by
  apply BitVec.eq_of_toNat_eq
  rw [windowOffset_toNat, h]
  have := off.isLt
  omega

/-- `CTRL` as a number (R109, R403). -/
theorem ctrlWord_eq (k : Context) : k.ctrlWord = BitVec.ofNat 32 (0x10 * k.nsec.toNat + (kindBits k.kind).toNat) := by
  unfold Context.ctrlWord
  generalize k.nsec = b
  cases k.kind <;> revert b <;> decide

/-- The clamp of `NSEC` on the word written (R409). -/
theorem clampNsec_field (v : Word) :
    clampNsec (v.extractLsb' 4 2) = BitVec.ofNat 2 (min (v.toNat / 16 % 4) 2) := by
  have h : ∀ b : BitVec 2, clampNsec b = BitVec.ofNat 2 (min b.toNat 2) := by decide
  rw [h]
  congr 1
  simp [BitVec.extractLsb'_toNat, Nat.shiftRight_eq_div_pow]

end Sys2Proof.Machine
end

