-- ==== Sys2Proof/Laws/Evaluate.lean ====
section
/-! SUPPORT. What a section run and an evaluation can do: the coefficients stay, the delay registers move, the cascade by
the value of `NSEC`. -/

namespace Sys2Proof.Machine

section Shifts
variable (k : Section) (w : Word)
@[simp] theorem shift2_a : (shift2 k w).a = k.a := rfl
@[simp] theorem shift2_d1 : (shift2 k w).d1 = k.d1 := rfl
@[simp] theorem shift2_d2 : (shift2 k w).d2 = k.d2 := rfl
@[simp] theorem shift2_d3 : (shift2 k w).d3 = k.d3 := rfl
@[simp] theorem shift2_d4 : (shift2 k w).d4 = k.d4 := rfl
@[simp] theorem shift2_w0 : (shift2 k w).w0 = w := rfl
@[simp] theorem shift2_w1 : (shift2 k w).w1 = w := rfl
@[simp] theorem shift2_w2 : (shift2 k w).w2 = k.w1 := rfl
@[simp] theorem shift2_w3 : (shift2 k w).w3 = k.w3 := rfl
@[simp] theorem shift2_w4 : (shift2 k w).w4 = k.w4 := rfl
@[simp] theorem shift4_a : (shift4 k w).a = k.a := rfl
@[simp] theorem shift4_d1 : (shift4 k w).d1 = k.d1 := rfl
@[simp] theorem shift4_d2 : (shift4 k w).d2 = k.d2 := rfl
@[simp] theorem shift4_d3 : (shift4 k w).d3 = k.d3 := rfl
@[simp] theorem shift4_d4 : (shift4 k w).d4 = k.d4 := rfl
@[simp] theorem shift4_w0 : (shift4 k w).w0 = w := rfl
@[simp] theorem shift4_w1 : (shift4 k w).w1 = w := rfl
@[simp] theorem shift4_w2 : (shift4 k w).w2 = k.w1 := rfl
@[simp] theorem shift4_w3 : (shift4 k w).w3 = k.w2 := rfl
@[simp] theorem shift4_w4 : (shift4 k w).w4 = k.w3 := rfl
end Shifts

/-- A section run keeps every coefficient register (R114). -/
theorem runSection_coefficient (kind : Kind) (r s : Word) (k : Section) (v : Word) (q : SecReg)
    (h : q.isDelay = false) : (runSection kind r s k v).1.get q = k.get q := by
  cases q <;> first | (cases h; done) | (cases kind <;> rfl)

/-- The five coefficient fields after a section run. -/
theorem runSection_coefficients (kind : Kind) (r s : Word) (k : Section) (v : Word) :
    (runSection kind r s k v).1.a = k.a ∧ (runSection kind r s k v).1.d1 = k.d1 ∧
      (runSection kind r s k v).1.d2 = k.d2 ∧ (runSection kind r s k v).1.d3 = k.d3 ∧
      (runSection kind r s k v).1.d4 = k.d4 := by
  cases kind <;> exact ⟨rfl, rfl, rfl, rfl, rfl⟩

/-- The new `w0` lands in `W[i][0]` and `W[i][1]` for every kind. -/
theorem runSection_w0 (kind : Kind) (r s : Word) (k : Section) (v : Word) :
    (runSection kind r s k v).1.w0 = (runSection kind r s k v).1.w1 := by cases kind <;> rfl

theorem usedSections_zero {k : Context} (h : k.nsec = 0#2) : k.usedSections = [] := by simp [Context.usedSections, h]
theorem usedSections_one {k : Context} (h : k.nsec = 1#2) : k.usedSections = [0] := by simp [Context.usedSections, h]
theorem usedSections_two {k : Context} (h : k.nsec = 2#2) : k.usedSections = [0, 1] := by simp [Context.usedSections, h]

/-- No section used: the input passes (R551). -/
theorem evaluate_zero (k : Context) (x : Word) (h : k.nsec = 0#2) : k.evaluate x = { k with out := x } := by
  simp [Context.evaluate, usedSections_zero h]

/-- One section used (R550). -/
theorem evaluate_one (k : Context) (x : Word) (h : k.nsec = 1#2) :
    k.evaluate x =
      { k with sec0 := (runSection k.kind k.rg k.sg k.sec0 x).1, out := (runSection k.kind k.rg k.sg k.sec0 x).2 } := by
  simp [Context.evaluate, usedSections_one h, cascadeTurn]

/-- Two sections used: section 1 consumes the output of section 0 (R550). -/
theorem evaluate_two (k : Context) (x : Word) (h : k.nsec = 2#2) :
    k.evaluate x =
      { k with
        sec0 := (runSection k.kind k.rg k.sg k.sec0 x).1
        sec1 := (runSection k.kind k.rg k.sg k.sec1 (runSection k.kind k.rg k.sg k.sec0 x).2).1
        out := (runSection k.kind k.rg k.sg k.sec1 (runSection k.kind k.rg k.sg k.sec0 x).2).2 } := by
  simp [Context.evaluate, usedSections_two h, cascadeTurn, Context.sec, Context.setSec]

/-- `NSEC` = 3, which no reachable state holds, runs the two sections that exist (log 13). -/
theorem evaluate_three (k : Context) (x : Word) (h : k.nsec = 3#2) :
    k.evaluate x =
      { k with
        sec0 := (runSection k.kind k.rg k.sg k.sec0 x).1
        sec1 := (runSection k.kind k.rg k.sg k.sec1 (runSection k.kind k.rg k.sg k.sec0 x).2).1
        out := (runSection k.kind k.rg k.sg k.sec1 (runSection k.kind k.rg k.sg k.sec0 x).2).2 } := by
  simp [Context.evaluate, Context.usedSections, h, cascadeTurn, Context.sec, Context.setSec]

theorem nsec_cases (b : BitVec 2) : b = 0#2 ∨ b = 1#2 ∨ b = 2#2 ∨ b = 3#2 := by revert b; decide

/-- An evaluation is one of three updates of the context (R550, R551). -/
theorem evaluate_cases (k : Context) (x : Word) :
    (k.nsec = 0#2 ∧ k.evaluate x = { k with out := x }) ∨
    (k.nsec = 1#2 ∧ k.evaluate x =
      { k with sec0 := (runSection k.kind k.rg k.sg k.sec0 x).1, out := (runSection k.kind k.rg k.sg k.sec0 x).2 }) ∨
    ((k.nsec = 2#2 ∨ k.nsec = 3#2) ∧ k.evaluate x =
      { k with
        sec0 := (runSection k.kind k.rg k.sg k.sec0 x).1
        sec1 := (runSection k.kind k.rg k.sg k.sec1 (runSection k.kind k.rg k.sg k.sec0 x).2).1
        out := (runSection k.kind k.rg k.sg k.sec1 (runSection k.kind k.rg k.sg k.sec0 x).2).2 }) := by
  rcases nsec_cases k.nsec with h | h | h | h
  · exact .inl ⟨h, evaluate_zero k x h⟩
  · exact .inr (.inl ⟨h, evaluate_one k x h⟩)
  · exact .inr (.inr ⟨.inl h, evaluate_two k x h⟩)
  · exact .inr (.inr ⟨.inr h, evaluate_three k x h⟩)

section EvaluateFrame
variable (k : Context) (x : Word)
@[simp] theorem evaluate_kind : (k.evaluate x).kind = k.kind := by
  rcases evaluate_cases k x with ⟨-, h⟩ | ⟨-, h⟩ | ⟨-, h⟩ <;> rw [h]
@[simp] theorem evaluate_nsec : (k.evaluate x).nsec = k.nsec := by
  rcases evaluate_cases k x with ⟨-, h⟩ | ⟨-, h⟩ | ⟨-, h⟩ <;> rw [h]
@[simp] theorem evaluate_rg : (k.evaluate x).rg = k.rg := by
  rcases evaluate_cases k x with ⟨-, h⟩ | ⟨-, h⟩ | ⟨-, h⟩ <;> rw [h]
@[simp] theorem evaluate_sg : (k.evaluate x).sg = k.sg := by
  rcases evaluate_cases k x with ⟨-, h⟩ | ⟨-, h⟩ | ⟨-, h⟩ <;> rw [h]

/-- An evaluation keeps every coefficient register of both sections (R114). -/
theorem evaluate_coefficient (i : Fin 2) (q : SecReg) (h : q.isDelay = false) :
    ((k.evaluate x).sec i).get q = (k.sec i).get q := by
  rcases evaluate_cases k x with ⟨-, e⟩ | ⟨-, e⟩ | ⟨-, e⟩ <;> rw [e] <;> unfold Context.sec <;> split <;>
    first | rfl | exact runSection_coefficient _ _ _ _ _ q h

/-- An evaluation does not touch a section at or above `NSEC` (R117). -/
theorem evaluate_unused (i : Fin 2) (h : k.nsec.toNat ≤ i.val) : (k.evaluate x).sec i = k.sec i := by
  rcases evaluate_cases k x with ⟨-, e⟩ | ⟨hn, e⟩ | ⟨hn, e⟩
  · rw [e]; rfl
  · rw [hn] at h
    have hi : i = 1 := by
      have : (1#2 : BitVec 2).toNat = 1 := rfl
      omega
    subst hi; rw [e]; rfl
  · exfalso
    have := i.isLt
    rcases hn with hn | hn <;> rw [hn] at h
    · have : (2#2 : BitVec 2).toNat = 2 := rfl
      omega
    · have : (3#2 : BitVec 2).toNat = 3 := rfl
      omega
end EvaluateFrame

section ClearLaws
variable (k : Context)
@[simp] theorem clear_kind : k.clear.kind = k.kind := rfl
@[simp] theorem clear_nsec : k.clear.nsec = k.nsec := rfl
@[simp] theorem clear_rg : k.clear.rg = k.rg := rfl
@[simp] theorem clear_sg : k.clear.sg = k.sg := rfl
@[simp] theorem clear_out : k.clear.out = 0 := rfl
theorem clear_sec (i : Fin 2) : k.clear.sec i = (k.sec i).clearDelays := by unfold Context.sec; split <;> rfl
theorem clearDelays_delay (x : Section) (q : SecReg) (h : q.isDelay = true) : x.clearDelays.get q = 0 := by
  cases q <;> first | (cases h; done) | rfl
theorem clearDelays_coefficient (x : Section) (q : SecReg) (h : q.isDelay = false) :
    x.clearDelays.get q = x.get q := by
  cases q <;> first | (cases h; done) | rfl
end ClearLaws

/-! ### The four meanings -/

theorem onContext_legal (s : State) (c : CtxIndex) (f : Context → Context) (h : c.toNat < s.numContexts) :
    onContext s c f = .next (s.updContext c.toNat f) := by simp [onContext, h]

theorem onContext_illegal (s : State) (c : CtxIndex) (f : Context → Context) (h : s.numContexts ≤ c.toNat) :
    onContext s c f = .next (s.recordError .illcmd) := by simp [onContext, Nat.not_lt.mpr h]

/-- The change of a context that a command makes: `none` for `NOP`. -/
def Instr.effect (s : State) : Instr → Option (CtxIndex × (Context → Context))
  | .nop => none
  | .evalu c n => some (c, fun k => k.evaluate (immediateSample n))
  | .evalx c => some (c, fun k => k.evaluate s.xin)
  | .clear c => some (c, Context.clear)

/-- Everything a command can do: nothing, one update of one context that exists, or `ILLCMD` for a context that does not
(R415, R470). -/
theorem exec_cases (i : Instr) (s : State) :
    (i = .nop ∧ exec i s = .next s) ∨
    (∃ c f, Instr.effect s i = some (c, f) ∧ c.toNat < s.numContexts ∧ exec i s = .next (s.updContext c.toNat f)) ∨
    (∃ c f, Instr.effect s i = some (c, f) ∧ s.numContexts ≤ c.toNat ∧
      exec i s = .next (s.recordError .illcmd)) := by
  have go : ∀ (c : CtxIndex) (f : Context → Context), Instr.effect s i = some (c, f) → exec i s = onContext s c f →
      (i = .nop ∧ exec i s = .next s) ∨
      (∃ c f, Instr.effect s i = some (c, f) ∧ c.toNat < s.numContexts ∧ exec i s = .next (s.updContext c.toNat f)) ∨
      (∃ c f, Instr.effect s i = some (c, f) ∧ s.numContexts ≤ c.toNat ∧
        exec i s = .next (s.recordError .illcmd)) := by
    intro c f he hx
    rcases Nat.lt_or_ge c.toNat s.numContexts with h | h
    · exact .inr (.inl ⟨c, f, he, h, by rw [hx, onContext_legal _ _ _ h]⟩)
    · exact .inr (.inr ⟨c, f, he, h, by rw [hx, onContext_illegal _ _ _ h]⟩)
  cases i with
  | nop => exact .inl ⟨rfl, rfl⟩
  | evalu c n => exact go _ _ rfl rfl
  | evalx c => exact go _ _ rfl rfl
  | clear c => exact go _ _ rfl rfl

/-- The change a command makes keeps `KIND`, `NSEC`, `RG`, `SG` and every coefficient register. -/
theorem effect_frame {s : State} {i : Instr} {c : CtxIndex} {f : Context → Context}
    (h : Instr.effect s i = some (c, f)) (k : Context) :
    (f k).kind = k.kind ∧ (f k).nsec = k.nsec ∧ (f k).rg = k.rg ∧ (f k).sg = k.sg ∧
      ∀ i q, SecReg.isDelay q = false → ((f k).sec i).get q = (k.sec i).get q := by
  cases i with
  | nop => cases h
  | evalu c' n =>
    cases h
    exact ⟨evaluate_kind _ _, evaluate_nsec _ _, evaluate_rg _ _, evaluate_sg _ _,
      fun i q hq => evaluate_coefficient _ _ i q hq⟩
  | evalx c' =>
    cases h
    exact ⟨evaluate_kind _ _, evaluate_nsec _ _, evaluate_rg _ _, evaluate_sg _ _,
      fun i q hq => evaluate_coefficient _ _ i q hq⟩
  | clear c' =>
    cases h
    exact ⟨rfl, rfl, rfl, rfl, fun i q hq => by rw [clear_sec, clearDelays_coefficient _ _ hq]⟩

/-- An evaluation is one update of its context, for both sources of the sample (R430, R440). -/
theorem exec_evaluation {s : State} {c : CtxIndex} {i : Instr} {x : Word} (h : c.toNat < s.numContexts)
    (hi : (∃ n : BitVec 16, i = .evalu c n ∧ x = u2f32 n.toNat) ∨ (i = .evalx c ∧ x = s.xin)) :
    exec i s = .next (s.updContext c.toNat (fun k => k.evaluate x)) := by
  rcases hi with ⟨n, rfl, rfl⟩ | ⟨rfl, rfl⟩
  · exact onContext_legal _ _ _ h
  · exact onContext_legal _ _ _ h

/-- A section run keeps `W[i][3]` and `W[i][4]` where the kernel has two poles. -/
theorem runSection_two_pole_high (kind : Kind) (r s : Word) (k : Section) (v : Word)
    (h : kind = .lp ∨ kind = .hp) :
    (runSection kind r s k v).1.w3 = k.w3 ∧ (runSection kind r s k v).1.w4 = k.w4 := by
  rcases h with rfl | rfl <;> exact ⟨rfl, rfl⟩

/-- No kernel reads the old `W[i][0]` (R115). -/
theorem runSection_old_w0 (kind : Kind) (r s : Word) (k : Section) (v a : Word) :
    runSection kind r s { k with w0 := a } v = runSection kind r s k v := by cases kind <;> rfl

end Sys2Proof.Machine
end

