-- ==== Sys2Proof/Laws/Step.lean ====
section
/-! SUPPORT. Everything a step can do, said once: one inversion lemma per operation of the bus side, and `step_cases`. -/

namespace Sys2Proof.Machine

theorem exec_continues (i : Instr) (s : State) : ∃ t, exec i s = .next t := by
  rcases exec_cases i s with ⟨-, h⟩ | ⟨c, f, -, -, h⟩ | ⟨c, f, -, -, h⟩ <;> exact ⟨_, h⟩

theorem runCommand_ok {s : State} {v : Word} {i : Instr} (h : decode s.numContexts v = .ok i) :
    runCommand s v = exec i s := by simp [runCommand, h]

theorem runCommand_error {s : State} {v : Word} {e : Illegal} (h : decode s.numContexts v = .error e) :
    runCommand s v = .next (s.recordError .illcmd) := by simp [runCommand, h, execIllegal]

/-- Everything a command word can do (R407): `NOP`, one update of one context, or `ILLCMD`. -/
theorem runCommand_cases (s : State) (v : Word) :
    (decode s.numContexts v = .ok .nop ∧ runCommand s v = .next s) ∨
    (∃ i c f, decode s.numContexts v = .ok i ∧ Instr.effect s i = some (c, f) ∧ c.toNat < s.numContexts ∧
      runCommand s v = .next (s.updContext c.toNat f)) ∨
    (∃ e, decode s.numContexts v = .error e ∧ runCommand s v = .next (s.recordError .illcmd)) := by
  cases hd : decode s.numContexts v with
  | error e => exact .inr (.inr ⟨e, rfl, runCommand_error hd⟩)
  | ok i =>
    rw [runCommand_ok hd]
    rcases exec_cases i s with ⟨rfl, h⟩ | ⟨c, f, he, hc, h⟩ | ⟨c, f, he, hc, h⟩
    · exact .inl ⟨rfl, h⟩
    · exact .inr (.inl ⟨i, c, f, rfl, he, hc, h⟩)
    · exfalso
      have wf := decode_wellFormed hd
      cases i with
      | nop => cases he
      | evalu c' n => cases he; simp [Instr.wellFormed] at wf; omega
      | evalx c' => cases he; simp [Instr.wellFormed] at wf; omega
      | clear c' => cases he; simp [Instr.wellFormed] at wf; omega

theorem writeReg_cmd {s : State} {off : Offset} {v : Word} (h : locate s.numContexts off = .cmd) :
    writeReg s off v = runCommand s v := by simp [writeReg, h]

theorem writeReg_plain {s : State} {off : Offset} {v : Word} (h : locate s.numContexts off ≠ .cmd) :
    writeReg s off v = .next (s.writeTarget (locate s.numContexts off) v) := by
  unfold writeReg
  split
  · rename_i h'; exact absurd h' h
  · rfl

theorem takeAccess_read_legal {s : State} {off : Offset} {n : Width} (h : legalAccess off n = true) :
    takeAccess s (.read off n) = .next { s with reads := s.readReg off :: s.reads } := by
  simp [takeAccess, accessData, h]

theorem takeAccess_read_illegal {s : State} {off : Offset} {n : Width} (h : legalAccess off n = false) :
    takeAccess s (.read off n) = .next { s with accerr := true, reads := 0 :: s.reads } := by
  simp [takeAccess, accessData, h, State.recordError]

theorem takeAccess_write_legal {s : State} {off : Offset} {n : Width} {v : Word} (h : legalAccess off n = true) :
    takeAccess s (.write off n v) = writeReg s off v := by simp [takeAccess, h]

theorem takeAccess_write_illegal {s : State} {off : Offset} {n : Width} {v : Word} (h : legalAccess off n = false) :
    takeAccess s (.write off n v) = .next { s with accerr := true } := by
  simp [takeAccess, h, State.recordError]

theorem step_idle {s : State} (h : s.port = []) : step s = .next s := by simp [step, stepPort, h]

theorem step_event {s : State} {e : PortEvent} {rest : List PortEvent} (h : s.port = e :: rest) :
    step s = takeEvent (s.withPort rest) e := by simp [step, stepPort, h]

theorem step_reset {s : State} {b : Bool} {rest : List PortEvent} (h : s.port = .reset b :: rest) :
    step s = .next ((s.withPort rest).driveReset b) := by rw [step_event h]; rfl

theorem step_access {s : State} {a : Access} {rest : List PortEvent} (h : s.port = .access a :: rest)
    (hr : s.resetAsserted = false) : step s = takeAccess (s.withPort rest) a := by
  rw [step_event h]; simp [takeEvent, hr]

theorem step_access_in_reset {s : State} {a : Access} {rest : List PortEvent} (h : s.port = .access a :: rest)
    (hr : s.resetAsserted = true) : step s = .refused .accessDuringReset := by
  rw [step_event h]; simp [takeEvent, hr]

/-- A legal write of a command word is that command, run (R407). -/
theorem step_command {s : State} {v : Word} {rest : List PortEvent}
    (h : s.port = .access (.write 0x00C#12 .word v) :: rest) (hr : s.resetAsserted = false) :
    step s = runCommand (s.withPort rest) v := by
  rw [step_access h hr, takeAccess_write_legal rfl, writeReg_cmd rfl]

/-- Everything a step that answers a next state can have done. In each case `s0` is the state with the event taken off the
port, and `t` is the state after. -/
inductive StepCase (s t : State) : Prop where
  /-- nothing at the port (R7) -/
  | idle (h : s.port = []) (ht : t = s)
  /-- the reset input is driven (R800) -/
  | reset (b : Bool) (rest : List PortEvent) (h : s.port = .reset b :: rest)
      (ht : t = (s.withPort rest).driveReset b)
  /-- a legal read (R403) -/
  | read (off : Offset) (rest : List PortEvent) (h : s.port = .access (.read off .word) :: rest)
      (hr : s.resetAsserted = false) (hl : off.toNat % 4 = 0)
      (ht : t = { s.withPort rest with reads := s.readReg off :: s.reads })
  /-- an illegal read (R402) -/
  | badRead (off : Offset) (n : Width) (rest : List PortEvent) (h : s.port = .access (.read off n) :: rest)
      (hr : s.resetAsserted = false) (hl : legalAccess off n = false)
      (ht : t = { s.withPort rest with accerr := true, reads := 0 :: s.reads })
  /-- an illegal write (R402) -/
  | badWrite (off : Offset) (n : Width) (v : Word) (rest : List PortEvent)
      (h : s.port = .access (.write off n v) :: rest) (hr : s.resetAsserted = false)
      (hl : legalAccess off n = false) (ht : t = { s.withPort rest with accerr := true })
  /-- a legal write of a register other than `CMD` (R404) -/
  | write (off : Offset) (v : Word) (rest : List PortEvent) (h : s.port = .access (.write off .word v) :: rest)
      (hr : s.resetAsserted = false) (hl : off.toNat % 4 = 0) (hc : locate s.numContexts off ≠ .cmd)
      (ht : t = (s.withPort rest).writeTarget (locate s.numContexts off) v)
  /-- `NOP` (R420) -/
  | nop (v : Word) (rest : List PortEvent) (h : s.port = .access (.write 0x00C#12 .word v) :: rest)
      (hr : s.resetAsserted = false) (hd : decode s.numContexts v = .ok .nop) (ht : t = s.withPort rest)
  /-- a command on a context that exists (R430, R440, R450) -/
  | command (v : Word) (rest : List PortEvent) (i : Instr) (c : CtxIndex) (f : Context → Context)
      (h : s.port = .access (.write 0x00C#12 .word v) :: rest) (hr : s.resetAsserted = false)
      (hd : decode s.numContexts v = .ok i) (he : Instr.effect s i = some (c, f)) (hc : c.toNat < s.numContexts)
      (ht : t = (s.withPort rest).updContext c.toNat f)
  /-- a word that is no command (R470) -/
  | illegal (v : Word) (rest : List PortEvent) (e : Illegal)
      (h : s.port = .access (.write 0x00C#12 .word v) :: rest) (hr : s.resetAsserted = false)
      (hd : decode s.numContexts v = .error e) (ht : t = { s.withPort rest with illcmd := true })

theorem step_cases {s t : State} (h : step s = .next t) : StepCase s t := by
  cases hp : s.port with
  | nil => rw [step_idle hp] at h; cases h; exact .idle hp rfl
  | cons e rest =>
    cases e with
    | reset b => rw [step_reset hp] at h; cases h; exact .reset b rest hp rfl
    | access a =>
      cases hr : s.resetAsserted with
      | true => rw [step_access_in_reset hp hr] at h; cases h
      | false =>
        rw [step_access hp hr] at h
        cases a with
        | read off n =>
          cases hl : legalAccess off n with
          | true =>
            rw [takeAccess_read_legal hl] at h
            obtain ⟨rfl, hl'⟩ := (legalAccess_iff off n).mp hl
            cases h
            exact .read off rest hp hr hl' rfl
          | false => rw [takeAccess_read_illegal hl] at h; cases h; exact .badRead off n rest hp hr hl rfl
        | write off n v =>
          cases hl : legalAccess off n with
          | false => rw [takeAccess_write_illegal hl] at h; cases h; exact .badWrite off n v rest hp hr hl rfl
          | true =>
            rw [takeAccess_write_legal hl] at h
            obtain ⟨rfl, hl'⟩ := (legalAccess_iff off n).mp hl
            by_cases hc : locate s.numContexts off = .cmd
            · rw [writeReg_cmd (by exact hc)] at h
              have ho := locate_cmd hc
              subst ho
              rcases runCommand_cases (s.withPort rest) v with ⟨hd, e⟩ | ⟨i, c, f, hd, he, hlt, e⟩ | ⟨e', hd, e⟩
              · rw [e] at h; cases h; exact .nop v rest hp hr hd rfl
              · rw [e] at h; cases h; exact .command v rest i c f hp hr hd he hlt rfl
              · rw [e] at h; cases h; exact .illegal v rest e' hp hr hd rfl
            · rw [writeReg_plain (by exact hc)] at h; cases h; exact .write off v rest hp hr hl' hc rfl

/-- A legal write taken off the port is `WriteReg` (R404). -/
theorem step_write {s : State} {off : Offset} {v : Word} {rest : List PortEvent} (hr : s.resetAsserted = false)
    (h4 : off.toNat % 4 = 0) (h : s.port = .access (.write off .word v) :: rest) :
    step s = writeReg (s.withPort rest) off v := by
  rw [step_access h hr, takeAccess_write_legal ((legalAccess_iff _ _).mpr ⟨rfl, h4⟩)]

/-- A legal read taken off the port returns the register (R403). -/
theorem step_read {s : State} {off : Offset} {rest : List PortEvent} (hr : s.resetAsserted = false)
    (h4 : off.toNat % 4 = 0) (h : s.port = .access (.read off .word) :: rest) :
    step s = .next { s.withPort rest with reads := s.readReg off :: s.reads } := by
  rw [step_access h hr, takeAccess_read_legal ((legalAccess_iff _ _).mpr ⟨rfl, h4⟩)]
  simp

/-- A run of one event more is the step, and the run from where it goes on. -/
theorem runEvents_next {n : Nat} {s t : State} (h : step s = .next t) : runEvents (n + 1) s = runEvents n t := by
  rw [runEvents, h]

/-- A run stops where its first step is refused. -/
theorem runEvents_refused {n : Nat} {s : State} {e : Refusal} (h : step s = .refused e) :
    runEvents (n + 1) s = .refused e := by rw [runEvents, h]

/-- What is not a legal access is of another size or misaligned (R203). -/
theorem legalAccess_eq_false_iff (off : Offset) (n : Width) :
    legalAccess off n = false ↔ n ≠ .word ∨ off.toNat % 4 ≠ 0 := by
  rw [Bool.eq_false_iff, Ne, legalAccess_iff]
  tauto

end Sys2Proof.Machine
end

