-- ==== Sys2Proof/Laws/BusMaster.lean ====
section
/-! SUPPORT. Runs of register writes to one context: the machine that takes them all has composed their updates. The two
sequences that load a filter, the dispatcher's tick as a run, and the duties of a host on a whole reconfiguration. -/

namespace Sys2Proof.Machine

/-- On a block with `nctx` contexts that is out of reset, taking `a` is the update `f` of context `c`. -/
def Updates (nctx c : Nat) (a : Access) (f : Context → Context) : Prop :=
  ∀ (s : State) (rest : List PortEvent), s.resetAsserted = false → s.numContexts = nctx →
    s.port = .access a :: rest → step s = .next ((s.withPort rest).updContext c f)

/-- A legal write of a register of context `c`. -/
theorem updates_write {nctx c n : Nat} {v : Word} {t : Target} {f : Context → Context}
    (hl : locate nctx (windowOffset n) = t) (h4 : n % 4 = 0) (ht : t ≠ .cmd)
    (hf : ∀ s : State, s.writeTarget t v = s.updContext c f) : Updates nctx c (wr n v) f := by
  intro s rest hr hN hp
  rw [step_write hr (by rw [windowOffset_toNat]; omega) hp,
    writeReg_plain (by rw [withPort_numContexts, hN, hl]; exact ht), withPort_numContexts, hN, hl, hf]

/-- A legal write of a section register of context `c`. -/
theorem updates_section {nctx c : Nat} (hc : c < nctx) (hn : nctx ≤ 15) (i : Fin 2) (r : SecReg) (v : Word) :
    Updates nctx c (wr (sectionBase c i + r.offset) v) (fun k => k.setSec i ((k.sec i).set r v)) :=
  updates_write (locate_section_register hc hn i r)
    (by unfold sectionBase contextBase; have := r.offset_mod; omega) (by simp) (fun _ => rfl)

/-- Taking a list of accesses, each an update of context `c`, composes the updates and changes nothing else. -/
theorem runEvents_updates {nctx c : Nat} {l : List Access} {fs : List (Context → Context)}
    (h : List.Forall₂ (Updates nctx c) l fs) :
    ∀ (s : State) (rest : List PortEvent), s.resetAsserted = false → s.numContexts = nctx → c < nctx →
      s.port = asEvents l ++ rest →
      ∃ t, runEvents l.length s = .next t ∧ t.port = rest ∧ t.reads = s.reads ∧ t.illcmd = s.illcmd ∧
        t.accerr = s.accerr ∧ t.xin = s.xin ∧ t.context c = fs.foldl (fun k f => f k) (s.context c) ∧
        ∀ e, e ≠ c → t.context e = s.context e := by
  induction h with
  | nil =>
    intro s rest hr hN hc hp
    exact ⟨s, rfl, by simpa [asEvents] using hp, rfl, rfl, rfl, rfl, rfl, fun _ _ => rfl⟩
  | @cons a f l fs ha hl ih =>
    intro s rest hr hN hc hp
    have st := ha s (asEvents l ++ rest) hr hN hp
    obtain ⟨t, h1, h2, h3, h4, h5, h6, h7, h8⟩ :=
      ih ((s.withPort (asEvents l ++ rest)).updContext c f) rest hr (by simpa using hN) hc rfl
    refine ⟨t, ?_, h2, h3, h4, h5, h6, ?_, ?_⟩
    · exact (runEvents_next st).trans h1
    · rw [h7, context_updContext_same _ _ _ (by simpa using hN ▸ hc)]
      rfl
    · intro e he
      rw [h8 e he, context_updContext_ne _ _ _ _ he]
      rfl

/-! ### The sequences that load a filter -/

@[simp] theorem bootWords_kind (d : Design) : d.bootWords.kind = d.kind := rfl

@[simp] theorem bootWords_secs (d : Design) : d.bootWords.secs = d.secs.map (Coeffs.forKind d.kind) := rfl

/-- R820 writes every word of a `BS` design as it is. -/
theorem bootWords_bs {d : Design} (h : d.kind = .bs) : d.bootWords = d := by
  obtain ⟨kind, secs, rg, sg⟩ := d
  cases h
  simp [Design.bootWords, show Coeffs.forKind .bs = id from rfl]

/-- For `BS` the expansion of R309 and the sequence of R820 are one. -/
theorem loadFilter_bs {d : Design} (c : CtxIndex) (h : d.kind = .bs) : loadFilter c d = bootSequence c d := by
  simp [loadFilter, bootSequence, bootWords_bs h, h]

/-- For every other kind R309 writes neither `RG` nor `SG`. -/
theorem loadFilter_not_bs {d : Design} (c : CtxIndex) (h : d.kind ≠ .bs) :
    loadFilter c d = cfgDesign c.toNat d ++ setSections c.toNat d.secs ++ [cmd (.clear c)] := by
  simp [loadFilter, h]

/-! ### The dispatcher's tick -/

/-- A tick answers the end of its run, and the newest read data after the bias and the clamp. -/
theorem dispatchTick_next {p : Config.HostParams} {c : CtxIndex} {kind : Kind} {x : HostSample} {s t : State}
    (h : tickRun c x s = .next t) : dispatchTick p c kind x s = .next (t, postProcess p kind (t.reads.headD 0)) := by
  rw [dispatchTick, h]

/-- A tick is refused where its run is. -/
theorem dispatchTick_refused {p : Config.HostParams} {c : CtxIndex} {kind : Kind} {x : HostSample} {s : State}
    {e : Refusal} (h : tickRun c x s = .refused e) : dispatchTick p c kind x s = .refused e := by
  rw [dispatchTick, h]

/-! ### The duties of a host -/

theorem presented_accesses (l : List Access) (k : List HostAction) :
    HostAction.presented (l.map .access ++ k) = l ++ HostAction.presented k := by
  induction l with
  | nil => rfl
  | cons a l ih => simp [HostAction.presented, ih]

/-- The marks of a reconfiguration present nothing. -/
@[simp] theorem presented_reconfigure (c : CtxIndex) (l : List Access) :
    HostAction.presented (reconfigure c l) = l := by
  simpa [reconfigure, HostAction.presented] using presented_accesses l [.ends c]

/-- Inside a reconfiguration of context `c` every access but an evaluation of it keeps the duty of R811. -/
theorem sequencesReconfiguration_inside (nctx c : Nat) (l : List Access) (k : List HostAction) :
    sequencesReconfiguration nctx c true (l.map .access ++ k) =
      (l.all (fun a => accessDuty nctx c a != .evaluates) && sequencesReconfiguration nctx c true k) := by
  induction l with
  | nil => simp
  | cons a l ih =>
    simp only [List.map_cons, List.cons_append, sequencesReconfiguration, ih, List.all_cons, Bool.and_assoc]
    cases accessDuty nctx c a <;> rfl

/-- A reconfiguration keeps the duty of R811 exactly where none of its accesses is an evaluation of the context, wherever
among them `CLEAR` stands. -/
theorem sequencesReconfiguration_reconfigure (nctx : Nat) (c : CtxIndex) (b : Bool) (l : List Access)
    (k : List HostAction) :
    sequencesReconfiguration nctx c.toNat b (reconfigure c l ++ k) =
      (l.all (fun a => accessDuty nctx c.toNat a != .evaluates) && sequencesReconfiguration nctx c.toNat false k) := by
  simp [reconfigure, sequencesReconfiguration, sequencesReconfiguration_inside]

/-- Accesses among which there is no evaluation of context `c` keep the duty of R820, and move its phase one by one. -/
theorem startsZeroed_accesses {nctx c : Nat} {l : List Access} (h : ∀ a ∈ l, accessDuty nctx c a ≠ .evaluates)
    (b : BootPhase) (k : List HostAction) :
    startsZeroed nctx c b (l.map .access ++ k) =
      startsZeroed nctx c ((l.map (accessDuty nctx c)).foldl BootPhase.after b) k := by
  induction l generalizing b with
  | nil => rfl
  | cons a l ih =>
    have ha : accessDuty nctx c a ≠ .evaluates := h a (by simp)
    simp [startsZeroed, ha, ih (fun a' h' => h a' (by simp [h']))]

end Sys2Proof.Machine
end

