-- ==== Sys2Proof/Laws/Numerics.lean ====
section
/-! SUPPORT. The datapath's arithmetic: the three fields of a word built by `withSign`, the classes of the special values,
and what rounding can answer. -/

namespace Sys2Proof.Machine

/-! ### Fields -/

theorem expField_eq (b : Word) : expField b = b.toNat / 2 ^ 23 % 2 ^ 8 := by
  simp [expField, BitVec.extractLsb'_toNat, Nat.shiftRight_eq_div_pow]

theorem fracField_eq (b : Word) : fracField b = b.toNat % 2 ^ 23 := by
  simp [fracField, BitVec.extractLsb'_toNat]

theorem signBit_eq (b : Word) : signBit b = decide (2 ^ 31 ≤ b.toNat) := by
  simp [signBit, BitVec.msb_eq_decide]

theorem expField_lt (b : Word) : expField b < 256 := by rw [expField_eq]; omega

theorem fracField_lt (b : Word) : fracField b < 2 ^ 23 := by rw [fracField_eq]; omega

/-- The magnitude that the lower 31 bits `m` encode, in units (R501). -/
def bitsMagnitude (m : Nat) : Nat :=
  if m / 2 ^ 23 = 0 then m % 2 ^ 23 else (2 ^ 23 + m % 2 ^ 23) * 2 ^ (m / 2 ^ 23 - 1)

section WithSign
variable (s : Bool) {m : Nat} (h : m < 2 ^ 31)
include h

theorem withSign_toNat : (withSign s m).toNat = if s then 2 ^ 31 + m else m := by
  unfold withSign
  cases s
  · simp; omega
  · simp; omega

theorem signBit_withSign : signBit (withSign s m) = s := by
  rw [signBit_eq, withSign_toNat s h]
  cases s
  · simp; omega
  · simp

theorem expField_withSign : expField (withSign s m) = m / 2 ^ 23 := by
  rw [expField_eq, withSign_toNat s h]
  cases s
  · simp; omega
  · simp; omega

theorem fracField_withSign : fracField (withSign s m) = m % 2 ^ 23 := by
  rw [fracField_eq, withSign_toNat s h]
  cases s
  · simp
  · simp; omega

theorem magnitude_withSign : magnitude (withSign s m) = bitsMagnitude m := by
  unfold magnitude bitsMagnitude
  rw [expField_withSign s h, fracField_withSign s h]

end WithSign

/-- A word is its sign and its lower 31 bits. -/
theorem withSign_self (b : Word) : withSign (signBit b) (b.toNat % 2 ^ 31) = b := by
  apply BitVec.eq_of_toNat_eq
  rw [withSign_toNat _ (Nat.mod_lt _ (by norm_num)), signBit_eq]
  have := b.isLt
  by_cases hb : 2 ^ 31 ≤ b.toNat
  · simp only [hb, decide_true, if_true]; omega
  · simp only [hb, decide_false]; simp; omega

theorem lower_lt (b : Word) : b.toNat % 2 ^ 31 < 2 ^ 31 := Nat.mod_lt _ (by norm_num)

/-- A word is determined by its three fields. -/
theorem word_ext {a b : Word} (hs : signBit a = signBit b) (he : expField a = expField b)
    (hf : fracField a = fracField b) : a = b := by
  apply BitVec.eq_of_toNat_eq
  rw [expField_eq, expField_eq] at he
  rw [fracField_eq, fracField_eq] at hf
  rw [signBit_eq, signBit_eq, decide_eq_decide] at hs
  have := a.isLt
  have := b.isLt
  omega

/-! ### `neg32` -/

@[simp] theorem signBit_neg32 (b : Word) : signBit (neg32 b) = !signBit b := by
  unfold signBit neg32
  rw [BitVec.msb_xor]
  have : (0x80000000#32 : BitVec 32).msb = true := by decide
  rw [this, Bool.xor_true]

@[simp] theorem expField_neg32 (b : Word) : expField (neg32 b) = expField b := by
  unfold expField neg32
  rw [BitVec.extractLsb'_xor]
  have : (0x80000000#32 : BitVec 32).extractLsb' 23 8 = 0#8 := by decide
  rw [this, BitVec.xor_zero]

@[simp] theorem fracField_neg32 (b : Word) : fracField (neg32 b) = fracField b := by
  unfold fracField neg32
  rw [BitVec.extractLsb'_xor]
  have : (0x80000000#32 : BitVec 32).extractLsb' 0 23 = 0#23 := by decide
  rw [this, BitVec.xor_zero]

@[simp] theorem magnitude_neg32 (b : Word) : magnitude (neg32 b) = magnitude b := by simp [magnitude]
@[simp] theorem isNaN_neg32 (b : Word) : isNaN (neg32 b) = isNaN b := by simp [isNaN]
@[simp] theorem isInf_neg32 (b : Word) : isInf (neg32 b) = isInf b := by simp [isInf]
@[simp] theorem isZero_neg32 (b : Word) : isZero (neg32 b) = isZero b := by simp [isZero]
@[simp] theorem isFinite_neg32 (b : Word) : isFinite (neg32 b) = isFinite b := by simp [isFinite]

@[simp] theorem value_neg32 (b : Word) : value (neg32 b) = -value b := by
  unfold value
  rw [signBit_neg32, magnitude_neg32]
  cases signBit b <;> simp

/-! ### Classes -/

theorem isFinite_iff (b : Word) : isFinite b = true ↔ expField b ≠ 255 := by simp [isFinite]

theorem not_isNaN_of_isFinite {b : Word} (h : isFinite b = true) : isNaN b = false := by
  simp_all [isFinite, isNaN]

theorem not_isInf_of_isFinite {b : Word} (h : isFinite b = true) : isInf b = false := by
  simp_all [isFinite, isInf]

theorem isFinite_of_isZero {b : Word} (h : isZero b = true) : isFinite b = true := by
  simp_all [isFinite, isZero]

/-- Every word is a NaN, an infinity or finite. -/
theorem class_cases (b : Word) : isNaN b = true ∨ isInf b = true ∨ isFinite b = true := by
  simp only [isNaN, isInf, isFinite]
  by_cases h : expField b = 255 <;> by_cases h' : fracField b = 0 <;> simp [h, h']

theorem magnitude_eq_zero_iff (b : Word) : magnitude b = 0 ↔ isZero b = true := by
  unfold magnitude isZero
  by_cases h : expField b = 0
  · simp [h]
  · simp [h]

theorem value_eq_zero_iff (b : Word) : value b = 0 ↔ isZero b = true := by
  rw [← magnitude_eq_zero_iff]
  unfold value
  cases signBit b <;> simp

theorem value_natAbs (b : Word) : (value b).natAbs = magnitude b := by
  unfold value
  cases signBit b <;> simp

/-- A non-zero value has the sign of its word. -/
theorem value_neg_iff {b : Word} (h : isZero b = false) : value b < 0 ↔ signBit b = true := by
  have hm : magnitude b ≠ 0 := by rw [Ne, magnitude_eq_zero_iff, h]; simp
  unfold value
  cases signBit b
  · simp
  · simp; omega

section Constants
@[simp] theorem isNaN_canonicalNaN : isNaN canonicalNaN = true := by decide
@[simp] theorem isNaN_signedZero (s : Bool) : isNaN (signedZero s) = false := by cases s <;> decide
@[simp] theorem isInf_signedZero (s : Bool) : isInf (signedZero s) = false := by cases s <;> decide
@[simp] theorem isZero_signedZero (s : Bool) : isZero (signedZero s) = true := by cases s <;> decide
@[simp] theorem signBit_signedZero (s : Bool) : signBit (signedZero s) = s := by cases s <;> decide
@[simp] theorem isNaN_signedInf (s : Bool) : isNaN (signedInf s) = false := by cases s <;> decide
@[simp] theorem isInf_signedInf (s : Bool) : isInf (signedInf s) = true := by cases s <;> decide
@[simp] theorem isZero_signedInf (s : Bool) : isZero (signedInf s) = false := by cases s <;> decide
@[simp] theorem signBit_signedInf (s : Bool) : signBit (signedInf s) = s := by cases s <;> decide
end Constants

/-- A zero is the zero of its sign. -/
theorem eq_signedZero {b : Word} (h : isZero b = true) : b = signedZero (signBit b) := by
  apply word_ext
  · simp
  · have : expField (signedZero (signBit b)) = 0 := by cases signBit b <;> decide
    rw [this]; simp_all [isZero]
  · have : fracField (signedZero (signBit b)) = 0 := by cases signBit b <;> decide
    rw [this]; simp_all [isZero]

/-- An infinity is the infinity of its sign. -/
theorem eq_signedInf {b : Word} (h : isInf b = true) : b = signedInf (signBit b) := by
  apply word_ext
  · simp
  · have : expField (signedInf (signBit b)) = 255 := by cases signBit b <;> decide
    rw [this]; simp_all [isInf]
  · have : fracField (signedInf (signBit b)) = 0 := by cases signBit b <;> decide
    rw [this]; simp_all [isInf]

/-! ### Rounding -/

theorem spacing_low {k : Nat} (h : k < 2 ^ 24) : spacing k = 0 := by unfold spacing; rw [if_pos h]

/-- Above the smallest normals, `k` has 24 significant bits at its spacing. -/
theorem spacing_bounds {k : Nat} (h : 2 ^ 24 ≤ k) :
    1 ≤ spacing k ∧ 2 ^ 23 * 2 ^ spacing k ≤ k ∧ k < 2 ^ 24 * 2 ^ spacing k := by
  have hk : k ≠ 0 := by omega
  have h1 := Nat.log2_self_le hk
  have h2 := @Nat.lt_log2_self k
  have h3 : 24 ≤ k.log2 := (Nat.le_log2 hk).mpr h
  have e : spacing k = k.log2 - 23 := by unfold spacing; rw [if_neg (Nat.not_lt.mpr h)]
  rw [e]
  refine ⟨by omega, ?_, ?_⟩
  · rw [← pow_add, show 23 + (k.log2 - 23) = k.log2 by omega]; exact h1
  · rw [← pow_add, show 24 + (k.log2 - 23) = k.log2 + 1 by omega]; exact h2

theorem lt_spacing (k : Nat) : k < 2 ^ 24 * 2 ^ spacing k := by
  by_cases h : k < 2 ^ 24
  · rw [spacing_low h]; omega
  · exact (spacing_bounds (Nat.not_lt.mp h)).2.2

/-- `roundHalfEven p q` is the quotient or the one above it. -/
theorem roundHalfEven_mem (p q : Nat) : roundHalfEven p q = p / q ∨ roundHalfEven p q = p / q + 1 := by
  simp only [roundHalfEven]
  split; · exact .inl rfl
  split; · exact .inr rfl
  split; · exact .inl rfl
  exact .inr rfl

/-- The distance of a fraction `p/q` from a whole number `m`, times `q`. -/
def fracDist (p q m : Nat) : Nat := ((p : Int) - (m * q : Nat)).natAbs

/-- `roundHalfEven p q` is a whole number nearest to `p/q`, and the even one on a tie. -/
theorem roundHalfEven_nearest {p q : Nat} (hq : 0 < q) (n : Nat) :
    fracDist p q (roundHalfEven p q) ≤ fracDist p q n ∧
      (fracDist p q (roundHalfEven p q) = fracDist p q n → n ≠ roundHalfEven p q → roundHalfEven p q % 2 = 0) := by
  have hdm := Nat.div_add_mod p q
  have hlt := Nat.mod_lt p hq
  have hn : n ≤ p / q ∨ n = p / q + 1 ∨ p / q + 2 ≤ n := by omega
  have cast : ∀ m : Nat, fracDist p q m = ((q * (p / q) + p % q : Nat) - (m * q : Nat) : Int).natAbs := by
    intro m; unfold fracDist; rw [hdm]
  have key : ∀ m, m = p / q ∨ m = p / q + 1 →
      fracDist p q m = if m = p / q then p % q else q - p % q := by
    intro m hm
    rw [cast]
    rcases hm with rfl | rfl
    · rw [if_pos rfl, Nat.mul_comm (p / q) q]; omega
    · rw [if_neg (by omega), Nat.add_mul, Nat.mul_comm (p / q) q]; omega
  have far : n ≤ p / q → n ≠ p / q → q + p % q ≤ fracDist p q n := by
    intro h1 h2
    rw [cast]
    have : (n + 1) * q ≤ q * (p / q) := by rw [Nat.mul_comm q]; exact Nat.mul_le_mul_right q (by omega)
    rw [Nat.add_mul] at this
    omega
  have far' : p / q + 2 ≤ n → q + (q - p % q) ≤ fracDist p q n := by
    intro h1
    rw [cast]
    have : (p / q + 2) * q ≤ n * q := Nat.mul_le_mul_right q h1
    rw [Nat.add_mul, Nat.mul_comm (p / q) q] at this
    omega
  have kn : n = p / q → fracDist p q n = p % q := by
    intro h; rw [key n (.inl h), if_pos h]
  have kn' : n = p / q + 1 → fracDist p q n = q - p % q := by
    intro h; rw [key n (.inr h), if_neg (by omega)]
  rw [key _ (roundHalfEven_mem p q)]
  simp only [roundHalfEven]
  by_cases c0 : n = p / q
  · rw [kn c0]; split_ifs <;> constructor <;> intros <;> omega
  · by_cases c1 : n = p / q + 1
    · rw [kn' c1]; split_ifs <;> constructor <;> intros <;> omega
    · by_cases c2 : n ≤ p / q
      · have := far c2 c0; split_ifs <;> constructor <;> intros <;> omega
      · have := far' (by omega); split_ifs <;> constructor <;> intros <;> omega

/-- The significand and the exponent that `roundBits` packs, for a fraction below the overflow threshold. -/
theorem roundBits_spec {p q : Nat} (hq : 0 < q) (h : p < overflowUnits * q) :
    ∃ e m, roundBits p q = e * 2 ^ 23 + m ∧ e = spacing (p / q) ∧ m = roundHalfEven p (q * 2 ^ e) ∧
      m ≤ 2 ^ 24 ∧ (1 ≤ e → 2 ^ 23 ≤ m) ∧ e * 2 ^ 23 + m < infBits := by
  refine ⟨spacing (p / q), roundHalfEven p (q * 2 ^ spacing (p / q)), ?_, rfl, rfl, ?_⟩
  · simp only [roundBits, if_neg (Nat.not_le.mpr h)]
  have hk : p / q < overflowUnits := by rw [Nat.div_lt_iff_lt_mul hq]; exact h
  have hlt := lt_spacing (p / q)
  have hmem := roundHalfEven_mem p (q * 2 ^ spacing (p / q))
  rw [← Nat.div_div_eq_div_mul] at hmem
  have hpos : 0 < 2 ^ spacing (p / q) := by positivity
  have hfl : p / q / 2 ^ spacing (p / q) < 2 ^ 24 := by rw [Nat.div_lt_iff_lt_mul hpos]; exact hlt
  have hge : 1 ≤ spacing (p / q) → 2 ^ 23 ≤ p / q / 2 ^ spacing (p / q) := by
    intro h1
    have : 2 ^ 24 ≤ p / q := by
      by_contra hc
      rw [spacing_low (by omega)] at h1
      omega
    exact (Nat.le_div_iff_mul_le hpos).mpr (spacing_bounds this).2.1
  refine ⟨by omega, fun h1 => by have := hge h1; omega, ?_⟩
  -- the exponent is at most 253, and at 253 the significand does not carry
  have he : spacing (p / q) ≤ 253 := by
    by_contra hc
    have h24 : 2 ^ 24 ≤ p / q := by
      by_contra hc'
      rw [spacing_low (by omega)] at hc
      omega
    have h1 := (spacing_bounds h24).2.1
    have h2 : 2 ^ 23 * 2 ^ 254 ≤ 2 ^ 23 * 2 ^ spacing (p / q) :=
      Nat.mul_le_mul_left _ (Nat.pow_le_pow_right (by norm_num) (by omega))
    have h3 : overflowUnits ≤ 2 ^ 23 * 2 ^ 254 := by decide
    omega
  unfold infBits
  rcases Nat.lt_or_ge (spacing (p / q)) 253 with h1 | h1
  · omega
  · have he' : spacing (p / q) = 253 := by omega
    rw [he'] at hfl hmem ⊢
    -- twice the fraction is below (2^25 - 1) steps, so it does not round up to 2^24
    have hQ : 0 < q * 2 ^ 253 := by positivity
    have hlow : 2 * p < (2 ^ 25 - 1) * (q * 2 ^ 253) := by
      have : overflowUnits * q * 2 = (2 ^ 25 - 1) * (q * 2 ^ 253) := by
        unfold overflowUnits
        rw [show (2 : Nat) ^ 253 = 2 ^ 252 * 2 from pow_succ 2 252]
        ring
      omega
    have hn := (roundHalfEven_nearest (p := p) hQ (2 ^ 24 - 1)).1
    have hm : roundHalfEven p (q * 2 ^ 253) ≠ 2 ^ 24 := by
      intro hc
      rw [hc] at hn
      unfold fracDist at hn
      generalize q * 2 ^ 253 = Q at *
      omega
    omega

/-- The magnitude of a packed significand and exponent. -/
theorem bitsMagnitude_pack {e m : Nat} (hm : m ≤ 2 ^ 24) (he : 1 ≤ e → 2 ^ 23 ≤ m) :
    bitsMagnitude (e * 2 ^ 23 + m) = m * 2 ^ e := by
  unfold bitsMagnitude
  rcases Nat.lt_or_ge m (2 ^ 23) with h | h
  · have h0 : e = 0 := by omega
    subst h0
    rw [if_pos (by omega)]
    omega
  · rw [if_neg (by omega)]
    rcases Nat.lt_or_ge m (2 ^ 24) with h' | h'
    · rw [show (e * 2 ^ 23 + m) / 2 ^ 23 - 1 = e by omega, show 2 ^ 23 + (e * 2 ^ 23 + m) % 2 ^ 23 = m by omega]
    · rw [show (e * 2 ^ 23 + m) / 2 ^ 23 - 1 = e + 1 by omega,
        show 2 ^ 23 + (e * 2 ^ 23 + m) % 2 ^ 23 = 2 ^ 23 by omega, show m = 2 ^ 24 by omega, pow_succ]
      ring

theorem roundBits_lt (p q : Nat) (hq : 0 < q) : roundBits p q < 2 ^ 31 := by
  by_cases h : overflowUnits * q ≤ p
  · simp only [roundBits, if_pos h]; decide
  · obtain ⟨e, m, hb, -, -, -, -, hlt⟩ := roundBits_spec hq (Nat.not_le.mp h)
    rw [hb]; unfold infBits at hlt; omega

theorem signBit_rne (s : Bool) (p q : Nat) (hq : 0 < q) : signBit (rne s p q) = s :=
  signBit_withSign s (roundBits_lt p q hq)

/-- At or above the threshold the result is the infinity of the sign (R502). -/
theorem rne_overflow (s : Bool) (p q : Nat) (h : overflowUnits * q ≤ p) : rne s p q = signedInf s := by
  simp [rne, roundBits, h, signedInf]

theorem isFinite_rne (s : Bool) {p q : Nat} (hq : 0 < q) (h : p < overflowUnits * q) :
    isFinite (rne s p q) = true := by
  obtain ⟨e, m, hb, -, -, -, -, hlt⟩ := roundBits_spec hq h
  rw [isFinite_iff, rne, expField_withSign s (roundBits_lt p q hq), hb]
  unfold infBits at hlt
  omega

theorem isNaN_rne (s : Bool) (p q : Nat) (hq : 0 < q) : isNaN (rne s p q) = false := by
  by_cases h : overflowUnits * q ≤ p
  · rw [rne_overflow s p q h]; simp
  · exact not_isNaN_of_isFinite (isFinite_rne s hq (Nat.not_le.mp h))

/-- A magnitude that is a binary32 number already is its own rounding. -/
theorem finite_magnitude_grid (c : Word) (e : Nat) : magnitude c < 2 ^ 23 * 2 ^ e ∨ 2 ^ e ∣ magnitude c := by
  unfold magnitude
  have hf := fracField_lt c
  by_cases h0 : expField c = 0
  · rw [if_pos h0]
    left
    have : 1 ≤ 2 ^ e := Nat.one_le_two_pow
    calc fracField c < 2 ^ 23 := hf
      _ = 2 ^ 23 * 1 := by ring
      _ ≤ 2 ^ 23 * 2 ^ e := Nat.mul_le_mul_left _ this
  · rw [if_neg h0]
    by_cases he : e ≤ expField c - 1
    · right
      exact Dvd.dvd.mul_left (pow_dvd_pow 2 he) _
    · left
      have h1 : 2 * 2 ^ (expField c - 1) ≤ 2 ^ e := by
        rw [← pow_succ']
        exact Nat.pow_le_pow_right (by norm_num) (by omega)
      have hpos : 0 < 2 ^ (expField c - 1) := by positivity
      nlinarith

/-- A fraction that is whole rounds to itself. -/
theorem roundHalfEven_exact {p q n : Nat} (hq : 0 < q) (h : p = n * q) : roundHalfEven p q = n := by
  have e1 : p / q = n := by rw [h]; exact Nat.mul_div_cancel _ hq
  have e2 : p % q = 0 := by rw [h]; exact Nat.mul_mod_left _ _
  simp [roundHalfEven, e1, e2, hq]

end Sys2Proof.Machine
end

