-- ==== Sys2Proof/Laws/PerInstr.lean ====
section
/-! SUPPORT. Statements about every instruction as syntax, one lemma per constructor. Family `TableRow`: the encoder agrees
with the match and mask columns of R303. -/

namespace Sys2Proof.Laws.TableRow

/-- The word of `i` under its row's mask is the row's match word (R303). -/
def Statement (i : Instr) : Prop := encode i &&& rowMask i = rowMatch i

theorem nop : Statement .nop := rfl

theorem evalu (c : CtxIndex) (n : BitVec 16) : Statement (.evalu c n) := by
  have h : rowMask (.evalu c n) = packCommand 0xF#4 0#4 0xFF#8 0#16 := rfl
  unfold Statement
  rw [h, encode, packCommand_and, BitVec.and_zero, BitVec.and_zero]
  rfl

theorem evalx (c : CtxIndex) : Statement (.evalx c) := by
  have h : rowMask (.evalx c) = packCommand 0xF#4 0#4 0xFF#8 0xFFFF#16 := rfl
  unfold Statement
  rw [h, encode, packCommand_and, BitVec.and_zero]
  rfl

theorem clear (c : CtxIndex) : Statement (.clear c) := by
  have h : rowMask (.clear c) = packCommand 0xF#4 0#4 0xFF#8 0xFFFF#16 := rfl
  unfold Statement
  rw [h, encode, packCommand_and, BitVec.and_zero]
  rfl

end Sys2Proof.Laws.TableRow
end

