-- ==== Sys2Proof/Laws/Rounding.lean ====
section
/-! SUPPORT. The rounding of an exact fraction: `rne` answers a nearest binary32 datum, and a datum that is exact already is
its own rounding. -/

namespace Sys2Proof.Machine

/-- `rne` rounds as R502 says. -/
theorem rne_roundsTo (s : Bool) {p q : Nat} (hq : 0 < q) : RoundsTo s p q (rne s p q) := by
  refine ⟨rne_overflow s p q, fun h => ⟨isFinite_rne s hq h, signBit_rne s p q hq, fun c hc => ?_⟩⟩
  obtain ⟨e, m, hb, he, hm, hm24, hm23, hlt⟩ := roundBits_spec hq h
  have h31 := roundBits_lt p q hq
  have hmag : magnitude (rne s p q) = m * 2 ^ e := by
    rw [rne, magnitude_withSign s h31, hb, bitsMagnitude_pack hm24 hm23]
  have hfr : fracField (rne s p q) % 2 = m % 2 := by
    rw [rne, fracField_withSign s h31, hb]; omega
  have hQ : 0 < q * 2 ^ e := by positivity
  have err : ∀ (n : Nat) (b : Word), magnitude b = n * 2 ^ e → roundingError p q b = fracDist p (q * 2 ^ e) n := by
    intro n b hb
    unfold roundingError fracDist
    rw [hb, show n * 2 ^ e * q = n * (q * 2 ^ e) by ring]
  rw [err m _ hmag, hfr]
  -- a datum on the grid of step `2^e` is compared by `roundHalfEven_nearest`
  have grid : ∀ n, magnitude c = n * 2 ^ e →
      fracDist p (q * 2 ^ e) m ≤ roundingError p q c ∧
        (fracDist p (q * 2 ^ e) m = roundingError p q c → magnitude c ≠ magnitude (rne s p q) → m % 2 = 0) := by
    intro n hn
    have := roundHalfEven_nearest (p := p) hQ n
    rw [← hm] at this
    rw [err n c hn]
    exact ⟨this.1, fun t hne => this.2 t (fun h => hne (by rw [hn, h, hmag]))⟩
  rcases finite_magnitude_grid c e with hlow | ⟨n, hn⟩
  · by_cases he0 : e = 0
    · exact grid (magnitude c) (by rw [he0]; ring)
    · -- below the binade of the exact value every datum is strictly farther than the binade's lowest one
      have h24 : 2 ^ 24 ≤ p / q := by
        by_contra hcon
        exact he0 (by rw [he, spacing_low (by omega)])
      have h1 := (spacing_bounds h24).2.1
      rw [← he] at h1
      have h2 : 2 ^ 23 * 2 ^ e * q ≤ p := (Nat.le_div_iff_mul_le hq).mp h1
      have h3 : magnitude c * q < 2 ^ 23 * 2 ^ e * q := (Nat.mul_lt_mul_right hq).mpr hlow
      have h4 := (roundHalfEven_nearest (p := p) hQ (2 ^ 23)).1
      rw [← hm] at h4
      have h5 : fracDist p (q * 2 ^ e) (2 ^ 23) < roundingError p q c := by
        unfold fracDist roundingError
        rw [show 2 ^ 23 * (q * 2 ^ e) = 2 ^ 23 * 2 ^ e * q by ring]
        generalize 2 ^ 23 * 2 ^ e * q = A at *
        generalize magnitude c * q = B at *
        omega
      exact ⟨by omega, fun t => by omega⟩
  · exact grid n (by rw [hn]; ring)

/-- On finite data the magnitude decides exponent and fraction. -/
theorem fields_of_magnitude {a b : Word} (h : magnitude a = magnitude b) :
    expField a = expField b ∧ fracField a = fracField b := by
  have fa := fracField_lt a
  have fb := fracField_lt b
  have step : ∀ {x y : Nat}, 1 ≤ x → x < y → 2 * 2 ^ (x - 1) ≤ 2 ^ (y - 1) := by
    intro x y hx hxy
    rw [← pow_succ']
    exact Nat.pow_le_pow_right (by norm_num) (by omega)
  unfold magnitude at h
  split at h <;> split at h
  · exact ⟨by omega, h⟩
  · exfalso
    have : 1 ≤ 2 ^ (expField b - 1) := Nat.one_le_two_pow
    nlinarith
  · exfalso
    have : 1 ≤ 2 ^ (expField a - 1) := Nat.one_le_two_pow
    nlinarith
  · rcases Nat.lt_trichotomy (expField a) (expField b) with hlt | heq | hgt
    · exfalso
      have h1 := step (by omega) hlt
      have : 0 < 2 ^ (expField a - 1) := by positivity
      nlinarith
    · rw [heq] at h
      have := Nat.eq_of_mul_eq_mul_right (by positivity) h
      exact ⟨heq, by omega⟩
    · exfalso
      have h1 := step (by omega) hgt
      have : 0 < 2 ^ (expField b - 1) := by positivity
      nlinarith

/-- A finite magnitude is below the threshold of R502. -/
theorem magnitude_lt_overflow {c : Word} (h : isFinite c = true) : magnitude c < overflowUnits := by
  have h1 := fracField_lt c
  have h2 : expField c ≤ 254 := by
    have := expField_lt c
    rw [isFinite_iff] at h
    omega
  unfold magnitude overflowUnits
  split
  · calc fracField c < 2 ^ 23 := h1
      _ ≤ _ := by norm_num
  · calc (2 ^ 23 + fracField c) * 2 ^ (expField c - 1) ≤ (2 ^ 24 - 1) * 2 ^ 253 :=
          Nat.mul_le_mul (by omega) (Nat.pow_le_pow_right (by norm_num) (by omega))
      _ < _ := by norm_num

/-- The rounding of a finite datum's own magnitude is that datum. -/
theorem rne_exact (c : Word) (hc : isFinite c = true) {p q : Nat} (hq : 0 < q) (hp : p = magnitude c * q) :
    rne (signBit c) p q = c := by
  have hlt : p < overflowUnits * q := by rw [hp]; exact (Nat.mul_lt_mul_right hq).mpr (magnitude_lt_overflow hc)
  obtain ⟨-, hsb, hn⟩ := (rne_roundsTo (signBit c) (p := p) hq).2 hlt
  have h1 := (hn c hc).1
  have h2 : roundingError p q c = 0 := by unfold roundingError; rw [hp]; simp
  have h3 : roundingError p q (rne (signBit c) p q) = 0 := by omega
  have hm : magnitude (rne (signBit c) p q) = magnitude c := by
    unfold roundingError at h3
    have : magnitude (rne (signBit c) p q) * q = magnitude c * q := by rw [← hp]; omega
    exact Nat.eq_of_mul_eq_mul_right hq this
  obtain ⟨he, hf⟩ := fields_of_magnitude hm
  exact word_ext hsb he hf

/-- A whole number of units on the grid of its own binade rounds to itself. -/
theorem rne_grid (s : Bool) {M p q : Nat} (hq : 0 < q) (hp : p = M * q) (hM : M < overflowUnits)
    (hd : 2 ^ spacing M ∣ M) :
    magnitude (rne s p q) = M ∧ isFinite (rne s p q) = true ∧ signBit (rne s p q) = s := by
  have hlt : p < overflowUnits * q := by rw [hp]; exact (Nat.mul_lt_mul_right hq).mpr hM
  refine ⟨?_, isFinite_rne s hq hlt, signBit_rne s p q hq⟩
  obtain ⟨e, m, hb, he, hm, hm24, hm23, -⟩ := roundBits_spec hq hlt
  rw [rne, magnitude_withSign s (roundBits_lt p q hq), hb, bitsMagnitude_pack hm24 hm23]
  have hdiv : p / q = M := by rw [hp]; exact Nat.mul_div_cancel _ hq
  rw [hdiv] at he
  rw [← he] at hd
  obtain ⟨n, hn⟩ := hd
  have : m = n := by rw [hm]; exact roundHalfEven_exact (by positivity) (by rw [hp, hn]; ring)
  rw [this, hn]
  ring

/-- A whole number of units other than zero does not round to zero. -/
theorem rne_ne_zero (s : Bool) {p : Nat} (hp : p ≠ 0) : isZero (rne s p 1) = false := by
  by_cases h : overflowUnits * 1 ≤ p
  · rw [rne_overflow s p 1 h]; simp
  · rw [Bool.eq_false_iff, Ne, ← magnitude_eq_zero_iff]
    obtain ⟨e, m, hb, he, hm, hm24, hm23, -⟩ := roundBits_spec (by norm_num) (Nat.not_le.mp h)
    rw [rne, magnitude_withSign s (roundBits_lt p 1 (by norm_num)), hb, bitsMagnitude_pack hm24 hm23]
    have : m ≠ 0 := by
      by_cases h0 : e = 0
      · rw [hm, h0, roundHalfEven_exact (n := p) (by norm_num) (by ring)]; exact hp
      · have := hm23 (by omega); omega
    have : 0 < m * 2 ^ e := by positivity
    omega

/-- Negation goes through rounding. -/
theorem neg32_rne (s : Bool) (p q : Nat) (hq : 0 < q) : neg32 (rne s p q) = rne (!s) p q := by
  have h := roundBits_lt p q hq
  apply word_ext
  · rw [signBit_neg32, signBit_rne _ _ _ hq, signBit_rne _ _ _ hq]
  · rw [expField_neg32]; unfold rne; rw [expField_withSign _ h, expField_withSign _ h]
  · rw [fracField_neg32]; unfold rne; rw [fracField_withSign _ h, fracField_withSign _ h]

/-! ### The operations on finite non-zero operands -/

theorem fadd32_finite {a b : Word} (ha : isFinite a = true) (hb : isFinite b = true) (hz : isZero a = false)
    (hz' : isZero b = false) (h : value a + value b ≠ 0) :
    fadd32 a b = rne (decide (value a + value b < 0)) (value a + value b).natAbs 1 := by
  simp [fadd32, not_isNaN_of_isFinite ha, not_isNaN_of_isFinite hb, not_isInf_of_isFinite ha,
    not_isInf_of_isFinite hb, hz, hz', h]

theorem fmul32_finite {a b : Word} (ha : isFinite a = true) (hb : isFinite b = true) (hz : isZero a = false)
    (hz' : isZero b = false) :
    fmul32 a b = rne (signBit a ^^ signBit b) (magnitude a * magnitude b) (2 ^ 149) := by
  simp [fmul32, not_isNaN_of_isFinite ha, not_isNaN_of_isFinite hb, not_isInf_of_isFinite ha,
    not_isInf_of_isFinite hb, hz, hz']

theorem fmul32_zero {a b : Word} (ha : isFinite a = true) (hb : isFinite b = true)
    (h : isZero a = true ∨ isZero b = true) : fmul32 a b = signedZero (signBit a ^^ signBit b) := by
  simp [fmul32, not_isNaN_of_isFinite ha, not_isNaN_of_isFinite hb, not_isInf_of_isFinite ha,
    not_isInf_of_isFinite hb, h]

theorem fadd32_zeros {a b : Word} (ha : isZero a = true) (hb : isZero b = true) :
    fadd32 a b = signedZero (signBit a && signBit b) := by
  have fa := isFinite_of_isZero ha
  have fb := isFinite_of_isZero hb
  simp [fadd32, not_isNaN_of_isFinite fa, not_isNaN_of_isFinite fb, not_isInf_of_isFinite fa,
    not_isInf_of_isFinite fb, ha, hb]

end Sys2Proof.Machine
end

