-- ==== Sys2Proof/Laws/Window.lean ====
section
/-! SUPPORT. Which reads of the window a write or an update of one context can change. -/

namespace Sys2Proof.Machine

theorem alignedOffset_toNat (a : Offset) : (a &&& 0xFFC#12).toNat = a.toNat / 4 * 4 := by
  have h : ∀ b : BitVec 12, (b &&& 0xFFC#12).toNat = b.toNat / 4 * 4 := by
    intro b
    have e : b &&& 0xFFC#12 = (b >>> 2) <<< 2 := by
      apply BitVec.eq_of_getLsbD_eq
      intro i hi
      simp only [BitVec.getLsbD_and, BitVec.getLsbD_shiftLeft, BitVec.getLsbD_ushiftRight]
      have hc : ∀ j : Fin 12, (0xFFC#12).getLsbD j.val = decide (2 ≤ j.val) := by decide
      rw [hc ⟨i, hi⟩]
      by_cases h2 : 2 ≤ i
      · simp [h2, hi, show ¬ i < 2 by omega, show 2 + (i - 2) = i by omega]
      · simp [h2, show i < 2 by omega]
    rw [e, BitVec.toNat_shiftLeft, BitVec.toNat_ushiftRight, Nat.shiftLeft_eq, Nat.shiftRight_eq_div_pow]
    have := b.isLt
    omega
  exact h a

/-- Equal words at the located target are equal bytes. -/
theorem windowByte_eq {s t : State} {a : Offset} (hn : t.numContexts = s.numContexts)
    (h : t.readTarget (locate s.numContexts (a &&& 0xFFC#12)) = s.readTarget (locate s.numContexts (a &&& 0xFFC#12))) :
    t.windowByte a = s.windowByte a := by
  unfold State.windowByte State.readReg
  rw [hn, h]

/-- A target outside context `c` reads the same after an update of `c`. -/
theorem readTarget_updContext_other {s : State} {c : Nat} {f : Context → Context} {t : Target}
    (h : t.context? ≠ some c) : (s.updContext c f).readTarget t = s.readTarget t := by
  cases t <;> simp only [State.readTarget, updContext_numContexts, updContext_statusWord, updContext_xin] <;>
    rw [context_updContext_ne _ _ _ _ (by rintro rfl; exact h rfl)]

/-- A legal write to anything but `CMD` changes the read of its own target only. -/
theorem readTarget_writeTarget_other {s : State} {t u : Target} {v : Word} (hne : u ≠ t) :
    (s.writeTarget t v).readTarget u = s.readTarget u := by
  cases t with
  | id => rfl
  | param => rfl
  | cmd => rfl
  | reserved => rfl
  | out c => rfl
  | status => cases u <;> first | rfl | exact absurd rfl hne
  | xin => cases u <;> first | rfl | exact absurd rfl hne
  | ctrl c =>
    by_cases h : u.context? = some c
    · by_cases hc : c < s.numContexts
      · cases u <;> simp_all [Target.context?, State.readTarget, State.writeTarget]
      · simp only [State.writeTarget]; rw [updContext_out_of_range _ _ _ (by omega)]
    · exact readTarget_updContext_other h
  | rg c =>
    by_cases h : u.context? = some c
    · by_cases hc : c < s.numContexts
      · cases u <;> simp_all [Target.context?, State.readTarget, State.writeTarget, Context.ctrlWord, Context.sec]
      · simp only [State.writeTarget]; rw [updContext_out_of_range _ _ _ (by omega)]
    · exact readTarget_updContext_other h
  | sg c =>
    by_cases h : u.context? = some c
    · by_cases hc : c < s.numContexts
      · cases u <;> simp_all [Target.context?, State.readTarget, State.writeTarget, Context.ctrlWord, Context.sec]
      · simp only [State.writeTarget]; rw [updContext_out_of_range _ _ _ (by omega)]
    · exact readTarget_updContext_other h
  | sec c i r =>
    by_cases h : u.context? = some c
    · by_cases hc : c < s.numContexts
      · cases u with
        | sec d j q =>
          cases h
          simp only [State.readTarget, State.writeTarget, context_updContext_same _ _ _ hc]
          by_cases hj : j = i
          · subst hj
            have hq : q ≠ r := by rintro rfl; exact hne rfl
            rw [sec_setSec_same, get_set_ne _ _ _ _ hq]
          · rw [sec_setSec_ne _ _ _ _ hj]
        | _ => simp_all [Target.context?, State.readTarget, State.writeTarget, Context.ctrlWord]
      · simp only [State.writeTarget]; rw [updContext_out_of_range _ _ _ (by omega)]
    · exact readTarget_updContext_other h

/-- An update of one context that keeps its `CTRL`, `RG` and `SG` changes no byte of the window outside its `OUT` and the
section registers that it changes. -/
theorem windowByte_updContext {s : State} {c : Nat} {f : Context → Context} (hc : c < s.numContexts)
    (hk : ∀ k, (f k).ctrlWord = k.ctrlWord ∧ (f k).rg = k.rg ∧ (f k).sg = k.sg) {a : Offset}
    (h1 : a.toNat / 4 * 4 ≠ contextBase c + 0x04)
    (h2 : ∀ i r, a.toNat / 4 * 4 = sectionBase c i + SecReg.offset r →
      ((f (s.context c)).sec i).get r = ((s.context c).sec i).get r) :
    (s.updContext c f).windowByte a = s.windowByte a := by
  apply windowByte_eq (by simp)
  have ho := @locate_offset s.numContexts (a &&& 0xFFC#12)
  rw [alignedOffset_toNat] at ho
  by_cases hcc : (locate s.numContexts (a &&& 0xFFC#12)).context? = some c
  · cases hl : locate s.numContexts (a &&& 0xFFC#12) with
    | ctrl d => rw [hl] at hcc; cases hcc; simp only [State.readTarget, context_updContext_same _ _ _ hc, hk]
    | rg d => rw [hl] at hcc; cases hcc; simp only [State.readTarget, context_updContext_same _ _ _ hc, hk]
    | sg d => rw [hl] at hcc; cases hcc; simp only [State.readTarget, context_updContext_same _ _ _ hc, hk]
    | out d =>
      rw [hl] at hcc ho
      cases hcc
      exact absurd (by simpa [Target.offset] using (ho (by simp)).symm) h1
    | sec d i r =>
      rw [hl] at hcc ho
      cases hcc
      simp only [State.readTarget, context_updContext_same _ _ _ hc]
      exact h2 i r (by simpa [Target.offset] using (ho (by simp)).symm)
    | _ => rw [hl] at hcc; cases hcc
  · exact readTarget_updContext_other hcc

end Sys2Proof.Machine
end

