-- ==== Sys2Proof/Tests/Slice0.lean ====
section
/-! SUPPORT. The model's own tests. Every expected value is the spec's: 95_test_vectors.md, the examples of the rules, or the
bit patterns of R303 written out. The `witness_…` theorems show, for each statement with hypotheses, a state and operands
that meet them. -/

namespace Sys2Proof.Tests

open Sys2Proof.Machine

/-! ### The states the tests run on -/

/-- A block with `n` contexts, each of them `k`, and `evs` at its port. -/
def block (n : Nat) (k : Context) (evs : List PortEvent) : State :=
  { State.resetWith n with ctx := List.replicate n k, port := evs }

/-- The block of this hardware after reset, with one access at its port. -/
def presented (a : Access) : State := block 4 Context.reset [.access a]

/-- The next state of an outcome, where it has one. -/
def next? (o : Host.Outcome State Fault Refusal) : Option State :=
  match o with
  | .next t => some t
  | .fault _ => none
  | .refused _ => none

/-- The state a step answers; where it stops, the state before. -/
def after (s : State) : State := (next? (step s)).getD s

/-- Section 0 of V-LP and V-HP: `A` = 0.25, `D1` = 0.5, `D2` = −0.25, with the delay registers given. -/
def secTwo (w0 w1 w2 : Word) : Section := ⟨0x3E800000#32, 0x3F000000#32, 0xBE800000#32, 0, 0, w0, w1, w2, 0, 0⟩

/-- Section 0 of V-BP and V-BS, with the delay registers given. -/
def secFour (w0 w1 w2 w3 w4 : Word) : Section :=
  ⟨0x3F000000#32, 0x3F000000#32, 0xBE800000#32, 0x3E000000#32, 0xBD800000#32, w0, w1, w2, w3, w4⟩

/-- A one-section context. -/
def oneSection (kind : Kind) (rg sg : Word) (q : Section) : Context := ⟨kind, 1, 0, rg, sg, q, Section.reset⟩

/-- V-CASCADE: two `LP` sections. -/
def cascadeContext : Context :=
  ⟨.lp, 2, 0, 0, 0, secTwo 0 0 0, ⟨0x3F000000#32, 0x3E800000#32, 0, 0, 0, 0, 0, 0, 0, 0⟩⟩

/-! ### Well-formed commands: each check refuses an ill-formed term (R305, R307) -/

theorem test_wf_evalu_refused : Instr.wellFormed 4 (.evalu 4 0) = false := by decide
theorem test_wf_evalx_refused : Instr.wellFormed 4 (.evalx 15) = false := by decide
theorem test_wf_clear_refused : Instr.wellFormed 15 (.clear 15) = false := by decide
theorem test_wf_accepted : Instr.wellFormed 4 .nop = true ∧ Instr.wellFormed 4 (.evalu 3 0xFFFF) = true ∧
    Instr.wellFormed 15 (.evalx 14) = true ∧ Instr.wellFormed 1 (.clear 0) = true := by decide

/-! ### Decoding: the words of R303 bit by bit, and the vectors V-CMD -/

theorem test_decode_nop : decode 4 0b0000_0000_00000000_0000000000000000#32 = .ok .nop := by decide
theorem test_decode_evalu : decode 4 0b0001_0011_00000000_0000000000000111#32 = .ok (.evalu 3 7) := by decide
theorem test_decode_evalx : decode 4 0b0010_0001_00000000_0000000000000000#32 = .ok (.evalx 1) := by decide
theorem test_decode_clear : decode 4 0b0011_0010_00000000_0000000000000000#32 = .ok (.clear 2) := by decide

/-- V-CMD-2, 6, 7, 9, 11, 12, 13, 14. -/
theorem test_decode_illegal :
    decode 4 0x00000001#32 = .error .nopBitsSet ∧ decode 4 0x10010000#32 = .error .reservedFieldSet ∧
      decode 4 0x14000000#32 = .error .noSuchContext ∧ decode 4 0x20000001#32 = .error .operandBitsSet ∧
      decode 4 0x30000100#32 = .error .operandBitsSet ∧ decode 4 0x40000000#32 = .error .reservedOp ∧
      decode 4 0xF0000000#32 = .error .reservedOp ∧ decode 4 0x1F000000#32 = .error .noSuchContext := by decide

/-- With 15 contexts `0x14000000` is `EVALU 4, #0` and `0x1F000000` is still illegal. -/
theorem test_decode_fifteen_contexts :
    decode 15 0x14000000#32 = .ok (.evalu 4 0) ∧ decode 15 0x1F000000#32 = .error .noSuchContext := by decide

/-- The lanes of `0x1300002A`, lowest address first (R202). -/
theorem test_decode_bytes : decodeBytes 4 0x2A#8 0x00#8 0x00#8 0x13#8 = .ok (.evalu 3 42) := by decide

theorem test_decode_table_word :
    decodeTableWord 32 0x13000007 = some (.evalu 3 7) ∧ decodeTableWord 32 0x14000000 = none := by decide

theorem test_encode_evalu : encode (.evalu 3 77) = 0x1300004D#32 := by decide

/-- R307: an operand out of range is refused. -/
theorem test_assemble :
    assemble 4 (.evalu 3 65535) = some 0x1300FFFF#32 ∧ assemble 4 (.evalu 3 65536) = none ∧
      assemble 4 (.clear 4) = none := by decide

theorem test_asm_text : Instr.asm (.evalu 3 4095) = "EVALU 3, #4095" := by decide

/-- The fetch interface runs exactly the word given, out of reset. -/
theorem test_withFetchWord_runs :
    step (State.reset.withFetchWord 32 0x1000FFFF) = exec (.evalu 0 0xFFFF) State.reset ∧
      ((after (State.reset.withFetchWord 32 0x1000FFFF)).context 0).out = 0x477FFF00#32 := ⟨rfl, by decide⟩

/-! ### Register accesses: V-ACC -/

theorem test_acc_id_param : State.reset.readReg 0x000#12 = 0x49495242#32 ∧ State.reset.readReg 0x004#12 = 0x00000142#32 := by
  decide

/-- V-ACC-3: a write to `OUT` is ignored. -/
theorem test_acc_out_read_only : (after (presented (wr 0x104 0x3F800000#32))).readReg 0x104#12 = 0 := by decide

/-- V-ACC-5. -/
theorem test_acc_ctrl_all_ones : (after (presented (wr 0x100 0xFFFFFFFF#32))).readReg 0x100#12 = 0x00000023#32 := by decide

/-- V-ACC-6: a reserved offset. -/
theorem test_acc_reserved :
    after (presented (wr 0x050 0x12345678#32)) = State.reset ∧ State.reset.readReg 0x050#12 = 0 := by decide

/-- V-ACC-7: a context that does not exist. -/
theorem test_acc_missing_context : locate 4 0x504#12 = .reserved ∧ locate 5 0x504#12 = .out 4 := by decide

/-- V-ACC-8: a byte write to `CMD` runs nothing. -/
theorem test_acc_byte_write_cmd :
    next? (step (presented (wr8 0x00C 0x10#32))) = some { State.reset with accerr := true } := by decide

/-- V-ACC-10: an illegal read returns zero. -/
theorem test_acc_half_read :
    next? (step (presented (rd16 0x008))) = some { State.reset with accerr := true, reads := [0] } := by decide

/-- V-ACC-11: write 1 to clear. -/
theorem test_acc_status_w1c :
    (after { presented (wr 0x008 0x00000002#32) with illcmd := true, accerr := true }).readReg 0x008#12 = 1 := by decide

/-- V-ACC-13: a signalling NaN is kept verbatim. -/
theorem test_acc_xin_verbatim : (after (presented (wr 0x010 0x7F800001#32))).xin = 0x7F800001#32 := by decide

/-- V-ACC-14: `0x37C` is `CTX[2].W[1][3]`. -/
theorem test_acc_delay_register :
    locate 4 0x37C#12 = .sec 2 1 .w3 ∧
      ((after (presented (wr 0x37C 0x40400000#32))).context 2).sec1.w3 = 0x40400000#32 := by decide

/-- R202: byte lane `k` of a register holds bits `8k+7 : 8k`. -/
theorem test_window_bytes : State.reset.windowByte 0x000#12 = 0x42#8 ∧ State.reset.windowByte 0x003#12 = 0x49#8 := by decide

/-! ### Reset -/

theorem test_reset_release :
    after { block 2 cascadeContext [.reset false] with resetAsserted := true, xin := 7, accerr := true } =
      State.resetWith 2 := by decide

theorem test_reset_access_refused :
    step { presented (rd 0x000) with resetAsserted := true } = .refused .accessDuringReset ∧
      next? (step { presented (.read 0x000#12 .word) with resetAsserted := true }) = none := ⟨rfl, by decide⟩

/-! ### Numerics: V-NUM -/

theorem test_num_add :
    fadd32 0x3F800000#32 0xBF800000#32 = 0x00000000#32 ∧ fadd32 0x80000000#32 0x80000000#32 = 0x80000000#32 ∧
      fadd32 0x00000000#32 0x80000000#32 = 0x00000000#32 ∧ fadd32 0x4B800000#32 0x3F800000#32 = 0x4B800000#32 ∧
      fadd32 0x7F800001#32 0x3F800000#32 = 0x7FC00000#32 := by decide

theorem test_num_sub : fsub32 0x7F800000#32 0x7F800000#32 = 0x7FC00000#32 := by decide

theorem test_num_mul :
    fmul32 0x7F800000#32 0x00000000#32 = 0x7FC00000#32 ∧ fmul32 0x40000000#32 0x7F7FFFFF#32 = 0x7F800000#32 ∧
      fmul32 0x3F000000#32 0x00000003#32 = 0x00000002#32 ∧ fmul32 0xBF800000#32 0x00000000#32 = 0x80000000#32 := by decide

theorem test_num_u2f : u2f32 4095 = 0x457FF000#32 ∧ u2f32 1234 = 0x449A4000#32 ∧ u2f32 65535 = 0x477FFF00#32 := by decide

/-! ### Commands: the kernels of 95_test_vectors.md, one tick each -/

theorem test_nop : next? (exec .nop (block 4 cascadeContext [])) = some (block 4 cascadeContext []) := by decide

/-- V-LP, tick 2. -/
theorem test_evalu_lowpass :
    next? (exec (.evalu 0 4) (block 1 (oneSection .lp 0 0 (secTwo 0x40800000#32 0x40800000#32 0)) [])) =
      some (block 1 { oneSection .lp 0 0 (secTwo 0x40C00000#32 0x40C00000#32 0x40800000#32) with
        out := 0x40600000#32 } []) := by decide

/-- V-HP, tick 2. -/
theorem test_evalu_highpass :
    next? (exec (.evalu 0 4) (block 1 (oneSection .hp 0 0 (secTwo 0x40800000#32 0x40800000#32 0)) [])) =
      some (block 1 { oneSection .hp 0 0 (secTwo 0x40C00000#32 0x40C00000#32 0x40800000#32) with
        out := 0xBF000000#32 } []) := by decide

/-- V-BP, tick 3: from (8, 8, 16, 0, 0). -/
theorem test_evalx_bandpass :
    next? (exec (.evalx 0) (block 1 (oneSection .bp 0 0 (secFour 0x41000000#32 0x41000000#32 0x41800000#32 0 0)) [])) =
      some (block 1 { oneSection .bp 0 0 (secFour 0 0 0x41000000#32 0x41800000#32 0) with
        out := 0xC1800000#32 } []) := by decide

/-- V-BS, tick 3: the registers of V-BP, the output mix of `RG` = 3 and `SG` = 4. -/
theorem test_evalx_bandstop :
    runSection .bs 0x40400000#32 0x40800000#32 (secFour 0x41000000#32 0x41000000#32 0x41800000#32 0 0) 0 =
      (secFour 0 0 0x41000000#32 0x41800000#32 0, 0x41A00000#32) := by decide

/-- V-CASCADE, tick 1: section 1 consumes the output 1.0 of section 0. -/
theorem test_cascade :
    (cascadeContext.evaluate 0x40800000#32).out = 0x3F000000#32 ∧
      (cascadeContext.evaluate 0x40800000#32).sec1.w1 = 0x3F800000#32 := by decide

/-- V-ORDER: the sums run left to right. -/
theorem test_order_of_operations :
    ((oneSection .lp 0 0 ⟨0x3F800000#32, 0x3F800000#32, 0x3F800000#32, 0, 0, 0, 0x4B800000#32, 0x3F800000#32, 0, 0⟩).evaluate
      0x3F800000#32).out = 0x4C400000#32 := by decide

/-- V-NSEC0: the input passes verbatim, a NaN payload included. -/
theorem test_pass_through : (Context.reset.evaluate 0x7F800001#32).out = 0x7F800001#32 := by decide

/-- `CLEAR` zeroes section 1 and `OUT` and keeps the coefficients (R450). -/
theorem test_clear :
    let t := (cascadeContext.evaluate 0x40800000#32).clear
    t.out = 0 ∧ t.sec1.w1 = 0 ∧ t.sec1.a = 0x3F000000#32 ∧ t = cascadeContext := by decide

/-- V-CMD-7: an illegal word sets `ILLCMD` and evaluates nothing. -/
theorem test_illegal_word :
    next? (step (presented (wr 0x00C 0x14000000#32))) = some { State.reset with illcmd := true } := by decide

/-! ### The host's side -/

/-- R645: the order-4 lowpass at 15 Hz of 1000 Hz has two sections. -/
theorem test_section_count : sectionCount .lp 4 = 2 ∧ sectionCount .bs 7 = 1 ∧ sectionCount .hp 1 = 0 := by decide

/-- R653: the clamp of 4539 to 4095. -/
theorem test_clamp : clampOut (u2f32 4539) (u2f32 0) (u2f32 4095) = u2f32 4095 := by decide

/-- R309: `LOADFILTER` of a two-section `LP` design is twelve writes; P4 of 95_test_vectors.md, the sequence of R820, has the
two writes of zeros besides. For `BS` the two sequences are one. -/
theorem test_load_filter :
    let lp4 : Design := ⟨.lp, [⟨0x3B10B698, 0x3FF5D0F2, 0xBF6DE4BF, 0, 0⟩, ⟨0x3B09DB1C, 0x3FEA2B01, 0xBF567D6F, 0, 0⟩], 7, 7⟩
    (loadFilter 0 lp4).length = 12 ∧
      bootSequence 0 lp4 =
        [wr 0x100 0x00000020#32, wr 0x108 0, wr 0x10C 0, wr 0x110 0x3B10B698#32, wr 0x114 0x3FF5D0F2#32,
         wr 0x118 0xBF6DE4BF#32, wr 0x11C 0, wr 0x120 0, wr 0x150 0x3B09DB1C#32, wr 0x154 0x3FEA2B01#32,
         wr 0x158 0xBF567D6F#32, wr 0x15C 0, wr 0x160 0, wr 0x00C 0x30000000#32] ∧
      loadFilter 2 { lp4 with kind := .bs } = bootSequence 2 { lp4 with kind := .bs } := by decide

/-- R811: an evaluation inside the reconfiguration breaks it, from its first write `CFG` on; one of another context, or after
the end, does not. R812: a coefficient written outside one breaks it, a change of `CTRL` does not. -/
theorem test_reconfiguration_duty :
    let load := loadFilter 0 ⟨.lp, [⟨1, 2, 3, 0, 0⟩], 0, 0⟩
    let among (a : Access) := reconfigure 0 (load.take 1 ++ [a] ++ load.drop 1)
    sequencesReconfiguration 4 0 false (reconfigure 0 load ++ [.access (cmd (.evalu 0 5))]) = true ∧
      sequencesReconfiguration 4 0 false (among (cmd (.evalx 0))) = false ∧
      sequencesReconfiguration 4 0 false (among (cmd (.evalx 1))) = true ∧
      sequencesReconfiguration 4 0 false [.access (wr 0x110 1)] = false ∧
      sequencesReconfiguration 4 0 false [.access (wr 0x100 1), .access (cmd (.evalx 0))] = true := by decide

/-- R820: `CLEAR` may stand first; a delay register written after it, or no `CLEAR` at all, breaks the duty. R810, R812. -/
theorem test_boot_duty :
    let run (l : List Access) := startsZeroed 4 0 .running (reconfigure 0 l ++ [.access (cmd (.evalx 0))])
    run [cmd (.clear 0), wr 0x100 0x10, wr 0x110 1] = true ∧
      sequencesReconfiguration 4 0 false (reconfigure 0 [cmd (.clear 0), wr 0x110 1]) = true ∧
      run [cmd (.clear 0), wr 0x130 1, wr 0x110 1] = false ∧ run [wr 0x100 0x10, wr 0x110 1] = false ∧
      evaluatesOncePerTick 4 0 [[cmd (.evalu 0 5), rd 0x104], [cmd (.evalx 1)]] = false ∧
      keepsHistory 4 0 [wr 0x110 0] = true ∧ keepsHistory 4 0 [wr 0x134 0] = false := by decide

/-- R651: the command word `0x10000000 | c << 24 | sample` and the read of `CTX[c].OUT`; the `EVALF` form. -/
theorem test_tick_accesses :
    tickAccesses 2 (.integer 1234) = [wr 0x00C 0x120004D2#32, rd 0x304] ∧
      tickAccesses 2 (.real 0x3F000000#32) = [wr 0x010 0x3F000000#32, wr 0x00C 0x22000000#32, rd 0x304] := by decide

/-- R600 to R620: one section of an `LP` design with `a` = `r` = 1, by hand: `sv` = 4, `A` = 0.25, `D1` = 0, `D2` = −0.0. -/
theorem test_coeffs_lowpass :
    coeffsLPHP .lp 0x3F800000#32 0x3F800000#32 = ⟨0x3E800000#32, 0x00000000#32, 0x80000000#32, 0, 0⟩ := by decide

/-! ### Witnesses: each statement's hypotheses can be met, each clause at the edge of its range -/

/-- A context in use: `BS`, two sections, every register different. -/
def busy : Context :=
  ⟨.bs, 2, 0x11#32, 0x40400000#32, 0x40800000#32, secFour 1 2 3 4 5, ⟨6, 7, 8, 9, 10, 11, 12, 13, 14, 15⟩⟩

/-- A block of 15 busy contexts with one legal write of `v` to the platform offset `off` at its port. -/
def writing (off : Nat) (v : Word) : State := block 15 busy [.access (wr off v)]

/-- The same with one legal read. -/
def reading (off : Nat) : State := block 15 busy [.access (rd off)]

theorem witness_reset_table : (3 : Nat) < 4 := by decide

theorem witness_release_reset :
    let s := { block 15 busy [.reset false, .access (rd 0)] with resetAsserted := true }
    s.resetAsserted = true ∧ s.port = .reset false :: [.access (rd 0)] ∧ 14 < s.numContexts := by decide

theorem witness_reset_invariant : (1 ≤ 1 ∧ 1 ≤ 15) ∧ (1 ≤ 15 ∧ 15 ≤ 15) := by decide

theorem witness_step_keeps_invariant :
    (writing 0x100 0x33#32).Inv ∧ ∃ t, step (writing 0x100 0x33#32) = .next t := ⟨by decide, _, rfl⟩

theorem witness_step_runs :
    TakesWrite (writing 0x00C 0x1E000007#32) 0x00C#12 0x1E000007#32 [] ∧
      decode (writing 0x00C 0x1E000007#32).numContexts 0x1E000007#32 = .ok (.evalu 14 7) :=
  ⟨⟨rfl, rfl, rfl⟩, by decide⟩

theorem witness_illegal_word :
    (TakesWrite (writing 0x00C 0x1F000000#32) 0x00C#12 0x1F000000#32 [] ∧
      decode (writing 0x00C 0x1F000000#32).numContexts 0x1F000000#32 = .error .noSuchContext) ∧
    ∃ s : State, s.illcmd = true ∧ s.accerr = false :=
  ⟨⟨⟨rfl, rfl, rfl⟩, by decide⟩, { State.reset with illcmd := true }, rfl, rfl⟩

/-- A read of one byte at an aligned offset, and a write of a word at a misaligned one. -/
theorem witness_illegal_access :
    ((presented (.read 0x00C#12 .byte)).resetAsserted = false ∧ (Width.byte ≠ .word ∨ (0x00C#12).toNat % 4 ≠ 0) ∧
      (presented (.read 0x00C#12 .byte)).port = .access (.read 0x00C#12 .byte) :: []) ∧
    ((presented (.write 0xFFF#12 .word 1)).resetAsserted = false ∧ (Width.word ≠ .word ∨ (0xFFF#12).toNat % 4 ≠ 0) ∧
      (presented (.write 0xFFF#12 .word 1)).port = .access (.write 0xFFF#12 .word 1) :: []) := by decide

theorem witness_legal_read :
    TakesRead (reading 0xF80) 0xF80#12 [] ∧ (reading 0xF80).numContexts ≤ 15 ∧ 14 < (reading 0xF80).numContexts :=
  ⟨⟨rfl, rfl, rfl⟩, by decide, by decide⟩

theorem witness_access_in_reset :
    let s := { reading 0x000 with resetAsserted := true }
    s.resetAsserted = true ∧ s.port = .access (rd 0x000) :: [] := by decide

theorem witness_idle : State.reset.port = [] := rfl

theorem witness_both_bits :
    (∃ t, step (presented (wr8 0x00C 0x10#32)) = .next t) ∧
      (presented (wr8 0x00C 0x10#32)).port = .access (.write 0x00C#12 .byte 0x10#32) :: [] ∧ Width.byte ≠ .word :=
  ⟨⟨_, rfl⟩, rfl, by decide⟩

/-- Each bit falls to a 1 written to it. -/
theorem witness_sticky :
    (∃ t, step { writing 0x008 1 with illcmd := true } = .next t ∧ t.illcmd = false) ∧
      ∃ t, step { writing 0x008 2 with accerr := true } = .next t ∧ t.accerr = false := ⟨⟨_, rfl, rfl⟩, _, rfl, rfl⟩

theorem witness_rise :
    (∃ t, step (writing 0x00C 0x40000000#32) = .next t ∧ t.illcmd = true) ∧
      ∃ t, step (presented (rd8 0x000)) = .next t ∧ t.accerr = true := ⟨⟨_, rfl, rfl⟩, _, rfl, rfl⟩

theorem witness_read_twice :
    let s := block 15 busy [.access (rd 0xF88), .access (rd 0xF88)]
    TakesRead s 0xF88#12 [.access (rd 0xF88)] ∧ ∃ t, step s = .next t ∧ TakesRead t 0xF88#12 [] :=
  ⟨⟨rfl, rfl, rfl⟩, _, rfl, rfl, rfl, rfl⟩

/-- `OUT` of context 14, and an `OUT` that an evaluation changes. -/
theorem witness_read_only :
    (TakesWrite (writing 0xF04 9) 0xF04#12 9 [] ∧ 14 < (writing 0xF04 9).numContexts ∧
      0xF04#12 = windowOffset (contextBase 14 + 0x04)) ∧
    ∃ t, step (presented (cmd (.evalu 3 7))) = .next t ∧
      (t.context 3).out ≠ ((presented (cmd (.evalu 3 7))).context 3).out :=
  ⟨⟨⟨rfl, rfl, rfl⟩, by decide, by decide⟩, _, rfl, by decide⟩

/-- A coefficient, `RG`, `SG` and `CTRL` of context 14 changed by the write of each. -/
theorem witness_coefficients :
    (¬ ReleasesReset (writing 0xF60 77) ∧ ∃ t, step (writing 0xF60 77) = .next t ∧
      ((t.context 14).sec 1).get .d4 ≠ (((writing 0xF60 77).context 14).sec 1).get .d4) ∧
    (∃ t, step (writing 0xF08 77) = .next t ∧ (t.context 14).rg ≠ busy.rg) ∧
    (∃ t, step (writing 0xF0C 77) = .next t ∧ (t.context 14).sg ≠ busy.sg) ∧
    ∃ t, step (writing 0xF00 0) = .next t ∧ ((t.context 14).kind ≠ busy.kind ∨ (t.context 14).nsec ≠ busy.nsec) :=
  ⟨⟨fun h => absurd h.1 (by decide), _, rfl, by decide⟩, ⟨_, rfl, by decide⟩, ⟨_, rfl, by decide⟩, _, rfl, by decide⟩

/-- The edges of the reserved ranges (R118), with 15 contexts and with 1. -/
theorem witness_map :
    (0x014 ≤ (0x014#12).toNat ∧ (0x0FF#12).toNat < 0x100) ∧ contextBase 1 ≤ (0x200#12).toNat ∧ (14 < 15 ∧ 15 ≤ 15) ∧
      (0x14 < 0x40 ∧ 0x14 % 4 = 0 ∧ ∀ r : SecReg, 0x14 ≠ r.offset) ∧ (∀ r : SecReg, 0x3C ≠ r.offset) ∧
      (0x90 ≤ 0x90 ∧ 0xFF < 0x100) := by
  refine ⟨by decide, by decide, by decide, ⟨by decide, by decide, ?_⟩, ?_, by decide⟩ <;> (intro r; cases r <;> decide)

theorem witness_one_offset : locate 15 0xF80#12 ≠ .reserved := by decide

/-- One offset of each of the four ranges, at an edge; each is taken by a read and by a write. -/
theorem witness_reserved :
    (0x014 ≤ (0x0FC#12).toNat ∧ (0x0FC#12).toNat < 0x100) ∧ contextBase 4 ≤ (0x500#12).toNat ∧
      (contextBase 14 + 0x90 ≤ (0xFFC#12).toNat ∧ (0xFFC#12).toNat < contextBase 14 + 0x100) ∧
      (sectionBase 14 1 + 0x14 ≤ (0xF6C#12).toNat ∧ (0xF6C#12).toNat < sectionBase 14 1 + 0x20) ∧
      (sectionBase 14 1 + 0x34 ≤ (0xF84#12).toNat ∧ (0xF84#12).toNat < sectionBase 14 1 + 0x40) ∧
      TakesRead (reading 0xFFC) 0xFFC#12 [] ∧ TakesWrite (writing 0xFFC 1) 0xFFC#12 1 [] ∧
      (writing 0xFFC 1).numContexts ≤ 15 :=
  ⟨by decide, by decide, by decide, by decide, by decide, ⟨rfl, rfl, rfl⟩, ⟨rfl, rfl, rfl⟩, by decide⟩

theorem witness_status_write :
    TakesWrite (writing 0x008 0xFFFFFFFF#32) 0x008#12 0xFFFFFFFF#32 [] ∧
      TakesWrite (writing 0x008 0) 0x008#12 0x00000000#32 [] ∧
      TakesWrite { writing 0x008 2 with illcmd := true, accerr := true } 0x008#12 0x00000002#32 [] :=
  ⟨⟨rfl, rfl, rfl⟩, ⟨rfl, rfl, rfl⟩, rfl, rfl, rfl⟩

theorem witness_ctrl_write :
    TakesWrite (writing 0xF00 0xFFFFFFFF#32) (windowOffset (contextBase 14)) 0xFFFFFFFF#32 [] ∧
      (writing 0xF00 0xFFFFFFFF#32).numContexts ≤ 15 ∧ 14 < (writing 0xF00 0xFFFFFFFF#32).numContexts :=
  ⟨⟨rfl, by decide, rfl⟩, by decide, by decide⟩

/-- `XIN`, and `RG`, `SG`, `W[1][4]` of context 14. -/
theorem witness_verbatim :
    TakesWrite (writing 0x010 0x7F800001#32) 0x010#12 0x7F800001#32 [] ∧
      TakesWrite (writing 0xF08 1) (windowOffset (contextBase 14 + 0x08)) 1 [] ∧
      TakesWrite (writing 0xF0C 1) (windowOffset (contextBase 14 + 0x0C)) 1 [] ∧
      TakesWrite (writing 0xF80 1) (windowOffset (sectionBase 14 1 + SecReg.w4.offset)) 1 [] ∧
      14 < (writing 0xF80 1).numContexts :=
  ⟨⟨rfl, rfl, rfl⟩, ⟨rfl, by decide, rfl⟩, ⟨rfl, by decide, rfl⟩, ⟨rfl, by decide, rfl⟩, by decide⟩

theorem witness_other_offsets :
    TakesWrite (writing 0x008 1) 0x008#12 1 [] ∧ 0x008#12 ≠ 0x00C#12 ∧ (∃ t, step (writing 0x008 1) = .next t) ∧
      wordOffsetOf 0x00C#12 ≠ (0x008#12).toNat := ⟨⟨rfl, rfl, rfl⟩, by decide, ⟨_, rfl⟩, by decide⟩

theorem witness_decoded : decode 15 0x2E000000#32 = .ok (.evalx 14) := by decide

/-- One word of each row with its context index below and at the number of contexts. -/
theorem witness_rows :
    0x00000000#32 &&& 0xFFFFFFFF#32 = 0x00000000#32 ∧ 0x1300FFFF#32 &&& 0xF0FF0000#32 = 0x10000000#32 ∧
      (0x1300FFFF#32).toNat / 2 ^ 24 % 16 < 4 ∧ 0x14000000#32 &&& 0xF0FF0000#32 = 0x10000000#32 ∧
      4 ≤ (0x14000000#32).toNat / 2 ^ 24 % 16 ∧ 0x23000000#32 &&& 0xF0FFFFFF#32 = 0x20000000#32 ∧
      0x24000000#32 &&& 0xF0FFFFFF#32 = 0x20000000#32 ∧ 0x33000000#32 &&& 0xF0FFFFFF#32 = 0x30000000#32 ∧
      0x34000000#32 &&& 0xF0FFFFFF#32 = 0x30000000#32 := by decide

theorem witness_assembler :
    assemble 15 (.evalu 14 65535) = some 0x1E00FFFF#32 ∧ (14 < 15 ∧ 65535 ≤ 65535) := by decide

theorem witness_nop_words : (0x0FFFFFFF#32).toNat / 2 ^ 28 = 0 ∧ 0x0FFFFFFF#32 ≠ 0x00000000#32 := by decide

/-- Context 14 of 15, with each number of sections. -/
theorem witness_evaluation (n : BitVec 2) :
    (14#4).toNat < (block 15 { busy with nsec := n } []).numContexts ∧
      ((block 15 { busy with nsec := n } []).context (14#4).toNat).nsec = n := by
  revert n; decide

/-- Context 14 of 15, one section, each kind. -/
theorem witness_kinds (kind : Kind) :
    let s := block 15 { busy with kind := kind, nsec := 1 } []
    (14#4).toNat < s.numContexts ∧ (s.context (14#4).toNat).kind = kind ∧ (s.context (14#4).toNat).nsec = 1#2 := by
  cases kind <;> decide

theorem witness_missing_context : (block 4 busy []).numContexts ≤ (4#4).toNat := by decide

theorem witness_frames :
    (14#4).toNat < (block 15 busy []).numContexts ∧ (∃ t, exec (.evalu 14 7) (block 15 busy []) = .next t) ∧
      (∃ t, exec (.evalx 14) (block 15 busy []) = .next t) ∧ (∃ t, exec (.clear 14) (block 15 busy []) = .next t) ∧
      wordOffsetOf 0xF03#12 ≠ contextBase 14 + 0x04 := ⟨by decide, ⟨_, rfl⟩, ⟨_, rfl⟩, ⟨_, rfl⟩, by decide⟩

/-- Two blocks that agree on context 0 and `XIN` only. -/
theorem witness_own_context :
    let s : State := { State.reset with ctx := [busy, Context.reset] }
    let t : State := { State.reset with ctx := [busy, busy], accerr := true }
    s.numContexts = t.numContexts ∧ (0#4).toNat < s.numContexts ∧ s.xin = t.xin ∧
      s.context (0#4).toNat = t.context (0#4).toNat := by decide

/-- Two contexts that differ only in registers their kind does not use. -/
theorem witness_unused_registers :
    let l := { busy with kind := .lp, rg := 0, sg := 0, sec0 := { busy.sec0 with d3 := 0, d4 := 0, w3 := 0, w4 := 0, w0 := 0 } }
    let k := { busy with kind := .lp }
    k.kind = l.kind ∧ k.nsec = l.nsec ∧ twoPole k.kind = true ∧ SameUsedRegisters k.kind k.sec0 l.sec0 ∧
      SameUsedRegisters k.kind k.sec1 l.sec1 :=
  ⟨rfl, rfl, rfl, ⟨rfl, rfl, rfl, rfl, rfl, fun h => absurd h (by decide)⟩,
    ⟨rfl, rfl, rfl, rfl, rfl, fun h => absurd h (by decide)⟩⟩

theorem witness_bandpass : ({ busy with kind := .bp } : Context).kind = .bp := rfl

theorem witness_unused_slot : ({ busy with nsec := 1 } : Context).nsec.toNat ≤ (1 : Fin 2).val := by decide

/-- A context with finite coefficients and zero delays, and positive gains, of two sections. -/
theorem witness_zero_state :
    let k : Context := { cascadeContext with kind := .bs, rg := 0x40000000#32, sg := 0x40400000#32 }
    let s := block 15 k []
    (14#4).toNat < s.numContexts ∧ s.context (14#4).toNat = k ∧ isFinite k.rg = true ∧ isFinite k.sg = true ∧
      finiteCoefficients k.sec0 ∧ finiteCoefficients k.sec1 ∧ zeroDelays k.sec0 ∧ zeroDelays k.sec1 ∧
      (∀ i : Fin 2, i.val < k.nsec.toNat → signBit (k.sec i).a = false) ∧
      (∃ t, exec (.evalu 14 0) s = .next t) ∧
      ∃ t u, exec (.clear 14) s = .next t ∧ exec (.evalu 14 0) t = .next u :=
  ⟨by decide, rfl, by decide, by decide, by unfold finiteCoefficients; decide, by unfold finiteCoefficients; decide,
    by unfold zeroDelays; decide, by unfold zeroDelays; decide, by decide, ⟨_, rfl⟩, _, _, rfl, rfl⟩

theorem witness_nan_sample :
    let s := { block 15 busy [] with xin := 0x7F800001#32 }
    (14#4).toNat < s.numContexts ∧ (s.context (14#4).toNat).nsec ≠ 0#2 ∧ isNaN s.xin = true ∧
      ∃ t, exec (.evalx 14) s = .next t := ⟨by decide, by decide, by decide, _, rfl⟩

/-- 2^24 and 1, whose sum, difference and product are not zero. -/
theorem witness_rounding :
    isFinite 0x4B800000#32 = true ∧ isFinite 0x3F800000#32 = true ∧ value 0x4B800000#32 + value 0x3F800000#32 ≠ 0 ∧
      value 0x4B800000#32 - value 0x3F800000#32 ≠ 0 ∧ value 0x4B800000#32 ≠ 0 ∧ value 0x3F800000#32 ≠ 0 := by decide

/-- Operands for each clause of the special cases of addition. -/
theorem witness_addition :
    isNaN 0x7F800001#32 = true ∧ (isInf 0x7F800000#32 = true ∧ isInf 0xFF800000#32 = true ∧
      signBit 0x7F800000#32 ≠ signBit 0xFF800000#32) ∧ (isNaN 0x3F800000#32 = false ∧ isInf 0x3F800000#32 = false) ∧
      (isZero 0x80000000#32 = true ∧ isZero 0x00000000#32 = true ∧ isZero 0x00000001#32 = false) ∧
      (isFinite 0x3F800000#32 = true ∧ isFinite 0xBF800000#32 = true ∧
        value 0x3F800000#32 + value 0xBF800000#32 = 0 ∧ value 0x3F800000#32 + value 0x3F800000#32 ≠ 0) := by decide

/-- Operands for each clause of the special cases of multiplication. -/
theorem witness_multiplication :
    isNaN 0xFFFFFFFF#32 = true ∧ (isInf 0x7F800000#32 = true ∧ isZero 0x80000000#32 = true) ∧
      (isNaN 0x00000001#32 = false ∧ isZero 0x00000001#32 = false ∧ isFinite 0x00000001#32 = true) ∧
      isNaN (fadd32 0x7F800000#32 0xFF800000#32) = true ∧ isNaN (fsub32 0x7F800000#32 0x7F800000#32) = true ∧
      isNaN (fmul32 0x7F800000#32 0x00000000#32) = true := by decide

theorem witness_subtraction :
    isNaN 0x7F800001#32 = true ∧ isFinite 0x7F7FFFFF#32 = true ∧
      (isInf 0xFF800000#32 = true ∧ signBit 0xFF800000#32 = signBit 0xFF800000#32) := by decide

theorem witness_small_integers : (0 : Nat) < 2 ^ 24 ∧ 2 ^ 24 - 1 < 2 ^ 24 := by decide

/-- The greatest datum that doubles exactly, the least that overflows, a negative zero and a NaN. -/
theorem witness_doubling :
    (isFinite 0x7EFFFFFF#32 = true ∧ magnitude 0x7EFFFFFF#32 < 2 ^ 150 * 2 ^ 126) ∧
      (isFinite 0x7F000000#32 = true ∧ 2 ^ 150 * 2 ^ 126 ≤ magnitude 0x7F000000#32) ∧ isZero 0x80000000#32 = true ∧
      isNaN 0x7FC00000#32 = true := by decide

theorem witness_bandstop_mix :
    isFinite (secFour 0 0x7F7FFFFF#32 0 0x80000000#32 0).w1 = true ∧
      isFinite (secFour 0 0x7F7FFFFF#32 0 0x80000000#32 0).w3 = true := by decide

/-- A design of two sections, one of one and one of none, loaded in the last context of 15 that were busy, by either
sequence: a `BS`, a `HP` and a `BP` design. -/
theorem witness_load_filter :
    let ok (d : Design) (l : List Access) : Prop :=
      let s := block 15 busy (asEvents l ++ [.access (rd 0)])
      s.resetAsserted = false ∧ s.numContexts ≤ 15 ∧ (14#4).toNat < s.numContexts ∧ d.secs.length ≤ 2 ∧
        s.port = asEvents l ++ [.access (rd 0)]
    let bs : Design := ⟨.bs, [⟨1, 2, 3, 4, 5⟩, ⟨6, 7, 8, 9, 10⟩], 11, 12⟩
    let hp : Design := ⟨.hp, [⟨1, 2, 3, 4, 5⟩], 11, 12⟩
    let bp : Design := ⟨.bp, [], 11, 12⟩
    ok bs (loadFilter 14 bs) ∧ ok bs (bootSequence 14 bs) ∧ ok hp (loadFilter 14 hp) ∧ ok hp (bootSequence 14 hp) ∧
      ok bp (loadFilter 14 bp) ∧ ok bp (bootSequence 14 bp) := by decide

/-- The inputs of R645's order-4 designs: 15 Hz of 1000 Hz, band 45 Hz to 55 Hz. -/
def orderFour (kind : Kind) : DesignInput := ⟨kind, 4, 0x447A0000#32, 0x41700000#32, 0x42340000#32, 0x425C0000#32⟩

/-- Both kinds of each pair are designed from them, with at least one section. -/
theorem witness_paired_designs (kind : Kind) :
    (orderFour kind).valid = true ∧
      (((orderFour kind).design Config.exampleParams 3).map (fun d => decide (1 ≤ d.secs.length))) = some true := by
  cases kind <;> decide

/-- The range 0 to 4095, with values below, above, inside and at its ends, and a NaN. -/
theorem witness_clamp :
    isNaN 0x00000000#32 = false ∧ isNaN 0x457FF000#32 = false ∧ flt32 0x457FF000#32 0x00000000#32 = false ∧
      flt32 0xBF800000#32 0x00000000#32 = true ∧ flt32 0x457FF000#32 0x45800000#32 = true ∧
      (flt32 0x457FF000#32 0x00000000#32 = false ∧ flt32 0x457FF000#32 0x457FF000#32 = false) ∧
      isNaN 0x7FC00000#32 = true := by decide

/-- The last of 15 contexts, out of reset and in it. -/
theorem witness_dispatch_tick :
    let s := block 15 busy [.access (rd 0)]
    (s.numContexts ≤ 15 ∧ (14#4).toNat < s.numContexts ∧ s.resetAsserted = false) ∧
      ({ s with resetAsserted := true }.numContexts ≤ 15 ∧ (14#4).toNat < { s with resetAsserted := true }.numContexts ∧
        { s with resetAsserted := true }.resetAsserted = true) := by decide

theorem witness_ideal_outputs : 5 < ([1, 0, 0, 0, 0, 0] : List ℚ).length := by decide

theorem witness_ideal_dc :
    ((1 : ℚ) ≠ 0 ∧ (1 : ℚ) ^ 2 + 2 * 1 * 1 + 1 ≠ 0) ∧ ((2 : ℚ) ≠ 1 ∧ (1 : ℚ) ^ 2 + 2 * 1 * 1 + 1 ≠ 0) := by norm_num

end Sys2Proof.Tests
end

section
/-! The reset state holds the table of R123. -/

namespace Sys2Proof.Machine

/-- Every context of the reset state, whatever its number, is the context after reset. -/
@[simp] theorem context_reset (c : Nat) : State.reset.context c = Context.reset := context_resetWith _ c

/-- Settles O1: each context is `Context.reset`, whose registers are the values of the table. -/
theorem resetHoldsTheResetTable : Obligations.ResetHoldsTheResetTable := by
  refine ⟨rfl, rfl, rfl, rfl, fun c _ => ?_⟩
  rw [context_reset]
  refine ⟨rfl, rfl, rfl, rfl, rfl, fun i r => ?_⟩
  rw [reset_sec, section_reset_get]
  rfl

end Sys2Proof.Machine
end

section
/-! An evaluation slot by slot: the kernel a slot runs, the signal between the slots, and what each slot and `OUT` hold
afterwards (R550). Two contexts whose used slots answer alike therefore evaluate alike. -/

namespace Sys2Proof.Machine

/-- Slot `i` of a context run on the value `v`, with the kind, `RG` and `SG` of the context (R550). -/
def Context.runSlot (k : Context) (i : Fin 2) (v : Word) : SectionResult :=
  runSection k.kind k.rg k.sg (k.sec i) v

/-- The value the loop of R550 holds after `n` sections: the sample, then the output of the last section that ran; there
are two slots to run. -/
def Context.signalAfter (k : Context) (x : Word) : Nat → Word
  | 0 => x
  | 1 => (k.runSlot 0 x).2
  | _ + 2 => (k.runSlot 1 (k.runSlot 0 x).2).2

/-- `OUT` takes the value after the last used section. -/
theorem evaluate_out (k : Context) (x : Word) : (k.evaluate x).out = k.signalAfter x k.nsec.toNat := by
  rcases evaluate_cases k x with ⟨hn, e⟩ | ⟨hn, e⟩ | ⟨hn | hn, e⟩ <;> rw [e, hn] <;> rfl

/-- A used slot holds what its kernel leaves, run on the value after the slots before it. -/
theorem evaluate_used (k : Context) (x : Word) (i : Fin 2) (h : i.val < k.nsec.toNat) :
    (k.evaluate x).sec i = (k.runSlot i (k.signalAfter x i.val)).1 := by
  rcases evaluate_cases k x with ⟨hn, -⟩ | ⟨hn, e⟩ | ⟨-, e⟩
  · simp [hn] at h
  · have hi : i = 0 := by
      have : i.val < 1 := by simpa [hn] using h
      omega
    subst hi; rw [e]; rfl
  · rw [e]
    match i with
    | 0 => rfl
    | 1 => rfl

/-- The signal depends on the outputs of the slots alone. -/
theorem signalAfter_congr {k l : Context} (h : ∀ i v, (k.runSlot i v).2 = (l.runSlot i v).2) (x : Word) (n : Nat) :
    k.signalAfter x n = l.signalAfter x n := by
  match n with
  | 0 => rfl
  | 1 => exact h 0 x
  | _ + 2 => simp only [Context.signalAfter, h]

/-- Contexts with one count of sections and one output of every slot evaluate to one `OUT`. -/
theorem evaluate_out_congr {k l : Context} (h : ∀ i v, (k.runSlot i v).2 = (l.runSlot i v).2) (hn : k.nsec = l.nsec)
    (x : Word) : (k.evaluate x).out = (l.evaluate x).out := by
  rw [evaluate_out, evaluate_out, hn, signalAfter_congr h]

/-- Contexts with one count of sections, one content of every slot and one run of it evaluate to one content. -/
theorem evaluate_sec_congr {k l : Context} (h : ∀ i v, k.runSlot i v = l.runSlot i v) (hn : k.nsec = l.nsec)
    (hs : ∀ i, k.sec i = l.sec i) (x : Word) (i : Fin 2) :
    (k.evaluate x).sec i = (l.evaluate x).sec i := by
  by_cases hi : i.val < k.nsec.toNat
  · rw [evaluate_used k x i hi, evaluate_used l x i (hn ▸ hi), h,
      signalAfter_congr fun j v => congrArg Prod.snd (h j v)]
  · rw [evaluate_unused k x i (Nat.le_of_not_lt hi), evaluate_unused l x i (hn ▸ Nat.le_of_not_lt hi), hs]

end Sys2Proof.Machine
end

section
/-! Which registers of a context an evaluation reads and writes: those of its kind (R116), in the slots below `NSEC`
(R117). -/

namespace Sys2Proof.Machine

/-! ### The two-pole kinds -/

theorem twoPole_iff {kind : Kind} : twoPole kind = true ↔ kind = .lp ∨ kind = .hp := by cases kind <;> simp [twoPole]

/-- A two-pole kernel reads only the registers of `SameUsedRegisters`, and neither `RG` nor `SG`: sections that agree on them
give one output and the same delay registers `W[i][0..2]`. -/
theorem runSection_two_pole_congr {kind : Kind} (hp : twoPole kind = true) {k l : Section}
    (h : SameUsedRegisters kind k l) (r s r' s' v : Word) :
    (runSection kind r s k v).2 = (runSection kind r' s' l v).2 ∧
      (runSection kind r s k v).1.w0 = (runSection kind r' s' l v).1.w0 ∧
      (runSection kind r s k v).1.w1 = (runSection kind r' s' l v).1.w1 ∧
      (runSection kind r s k v).1.w2 = (runSection kind r' s' l v).1.w2 := by
  obtain ⟨ha, hd1, hd2, hw1, hw2, -⟩ := h
  have hf : feedback2 k v = feedback2 l v := by simp only [feedback2, hd1, hd2, hw1, hw2]
  rcases twoPole_iff.mp hp with rfl | rfl
  · simp only [runSection, sectionLP, mixLP, shift2_w0, shift2_w1, shift2_w2, hf, ha, hw1, hw2, and_self]
  · simp only [runSection, sectionHP, mixHP, shift2_w0, shift2_w1, shift2_w2, hf, ha, hw1, hw2, and_self]

/-- An evaluation of a two-pole kind keeps `W[i][3]` and `W[i][4]`, used slot or not. -/
theorem evaluate_two_pole_high {k : Context} (hp : twoPole k.kind = true) (x : Word) (i : Fin 2) :
    ((k.evaluate x).sec i).w3 = (k.sec i).w3 ∧ ((k.evaluate x).sec i).w4 = (k.sec i).w4 := by
  by_cases hi : i.val < k.nsec.toNat
  · rw [evaluate_used k x i hi]
    exact runSection_two_pole_high _ _ _ _ _ (twoPole_iff.mp hp)
  · rw [evaluate_unused k x i (by omega)]
    exact ⟨rfl, rfl⟩

section TwoContexts
variable {k l : Context} (hk : k.kind = l.kind) (hn : k.nsec = l.nsec) (hp : twoPole k.kind = true)
  (hs : ∀ i, SameUsedRegisters k.kind (k.sec i) (l.sec i))
include hk hp hs

/-- Slots of a two-pole kind that agree on the registers of the kind run alike. -/
theorem runSlot_two_pole_congr (i : Fin 2) (v : Word) :
    (k.runSlot i v).2 = (l.runSlot i v).2 ∧ (k.runSlot i v).1.w0 = (l.runSlot i v).1.w0 ∧
      (k.runSlot i v).1.w1 = (l.runSlot i v).1.w1 ∧ (k.runSlot i v).1.w2 = (l.runSlot i v).1.w2 := by
  unfold Context.runSlot
  rw [← hk]
  exact runSection_two_pole_congr hp (hs i) _ _ _ _ _

include hn

/-- Contexts of a two-pole kind that agree on the registers of the kind agree on `W[i][1]` and `W[i][2]` after an evaluation,
and in the used slots on `W[i][0]`. -/
theorem evaluate_two_pole_congr (x : Word) (i : Fin 2) :
    ((k.evaluate x).sec i).w1 = ((l.evaluate x).sec i).w1 ∧ ((k.evaluate x).sec i).w2 = ((l.evaluate x).sec i).w2 ∧
      (i.val < k.nsec.toNat → ((k.evaluate x).sec i).w0 = ((l.evaluate x).sec i).w0) := by
  have run := runSlot_two_pole_congr hk hp hs
  by_cases hi : i.val < k.nsec.toNat
  · rw [evaluate_used k x i hi, evaluate_used l x i (hn ▸ hi), signalAfter_congr fun j v => (run j v).1]
    obtain ⟨-, hw0, hw1, hw2⟩ := run i (l.signalAfter x i.val)
    exact ⟨hw1, hw2, fun _ => hw0⟩
  · rw [evaluate_unused k x i (by omega), evaluate_unused l x i (hn ▸ Nat.le_of_not_lt hi)]
    obtain ⟨-, -, -, hw1, hw2, -⟩ := hs i
    exact ⟨hw1, hw2, fun h => absurd h hi⟩
end TwoContexts

/-! ### The bandpass kind -/

/-- The bandpass kernel reads neither `RG` nor `SG`. -/
theorem runSlot_bandpass_globals {k : Context} (hk : k.kind = .bp) (r s : Word) (i : Fin 2) (v : Word) :
    { k with rg := r, sg := s }.runSlot i v = k.runSlot i v := by
  unfold Context.runSlot
  rw [hk]
  rfl

/-- Settles O42: the two-pole and the bandpass kernels read only their registers, slot by slot, and so does the cascade. -/
theorem kindsUseOnlyTheirRegisters : Obligations.KindsUseOnlyTheirRegisters := by
  refine ⟨fun k l x hk hn hp h0 h1 => ?_, fun k x r s hk => ?_, fun k x => ⟨evaluate_rg k x, evaluate_sg k x⟩,
    fun k i r v => ⟨by rw [sec_setSec_same, get_set_same], setSec_kind k i _⟩⟩
  · have hs : ∀ i, SameUsedRegisters k.kind (k.sec i) (l.sec i) := Fin.forall_fin_two.mpr ⟨h0, h1⟩
    refine ⟨evaluate_out_congr (fun i v => (runSlot_two_pole_congr hk hp hs i v).1) hn x, fun i => ?_⟩
    obtain ⟨hw1, hw2, hw0⟩ := evaluate_two_pole_congr hk hn hp hs x i
    exact ⟨hw1, hw2, hw0, evaluate_coefficient k x i .d3 rfl, evaluate_coefficient k x i .d4 rfl,
      evaluate_two_pole_high hp x i⟩
  · have run := runSlot_bandpass_globals hk r s
    exact ⟨evaluate_out_congr (fun i v => congrArg Prod.snd (run i v)) rfl x,
      evaluate_sec_congr run rfl (fun _ => rfl) x⟩

/-! ### The slots at or above `NSEC` -/

/-- Replacing a slot at or above `NSEC` commutes with the evaluation: with no section used only `OUT` moves, and with one
the slot is slot 1, which the run of slot 0 does not see. -/
theorem evaluate_setSec_unused (k : Context) (x : Word) (i : Fin 2) (q : Section) (h : k.nsec.toNat ≤ i.val) :
    (k.setSec i q).evaluate x = (k.evaluate x).setSec i q := by
  have hi := i.isLt
  have hn : (k.setSec i q).nsec = k.nsec := setSec_nsec k i q
  rcases evaluate_cases k x with ⟨h0, e⟩ | ⟨h1, e⟩ | ⟨h2 | h3, -⟩
  · rw [e, evaluate_zero _ x (hn.trans h0)]
    unfold Context.setSec
    split <;> rfl
  · obtain rfl : i = 1 := by
      simp only [h1, BitVec.toNat_ofNat] at h
      omega
    rw [e, evaluate_one _ x (hn.trans h1)]
    rfl
  · simp only [h2, BitVec.toNat_ofNat] at h
    omega
  · simp only [h3, BitVec.toNat_ofNat] at h
    omega

/-- Settles O43: an unused slot keeps its registers, and replacing it commutes with the evaluation. -/
theorem slotsAboveNsecAreUntouched : Obligations.SlotsAboveNsecAreUntouched :=
  fun k x i q h => ⟨evaluate_unused k x i h, evaluate_setSec_unused k x i q h⟩

end Sys2Proof.Machine
end

section
/-! The rows of R303: what each mask compares of a word, what the decoder answers on each row, and the value column of a
command word. -/

namespace Sys2Proof

/-! ### The masks -/

/-- A mask given by its fields masks each field of the word. -/
theorem and_packCommand (w : Word) (op : BitVec 4) (c : CtxIndex) (rsv : BitVec 8) (imm : BitVec 16) :
    w &&& packCommand op c rsv imm =
      packCommand (opField w &&& op) (ctxField w &&& c) (rsvField w &&& rsv) (immField w &&& imm) := by
  rw [← packCommand_and, packCommand_fields]

/-- The mask of `EVALU` compares `OP` and `RSV`. -/
theorem fields_of_mask_evalu {w : Word} {op : BitVec 4} (h : w &&& 0xF0FF0000#32 = packCommand op 0#4 0#8 0#16) :
    opField w = op ∧ rsvField w = 0#8 := by
  have masked := (and_packCommand w (BitVec.allOnes 4) 0#4 (BitVec.allOnes 8) 0#16).symm.trans h
  obtain ⟨hop, -, hrsv, -⟩ := packCommand_inj masked
  exact ⟨by rwa [BitVec.and_allOnes] at hop, by rwa [BitVec.and_allOnes] at hrsv⟩

/-- The mask of `EVALX` and `CLEAR` compares every field but `CTX`: `OP`, and bits 23:0 against zero. -/
theorem fields_of_mask_context {w : Word} {op : BitVec 4} (h : w &&& 0xF0FFFFFF#32 = packCommand op 0#4 0#8 0#16) :
    opField w = op ∧ w.extractLsb' 0 24 = 0#24 := by
  have masked := (and_packCommand w (BitVec.allOnes 4) 0#4 (BitVec.allOnes 8) (BitVec.allOnes 16)).symm.trans h
  obtain ⟨hop, -, hrsv, himm⟩ := packCommand_inj masked
  rw [BitVec.and_allOnes] at hop hrsv himm
  refine ⟨hop, ?_⟩
  rw [← packCommand_fields w]
  exact (low24_pack ..).mpr ⟨hrsv, himm⟩

/-! ### The decoder on each row -/

theorem decode_nop_row {nctx : Nat} {w : Word} (h : w &&& 0xFFFFFFFF#32 = 0x00000000#32) : decode nctx w = .ok .nop := by
  have hw : w = 0x00000000#32 := BitVec.and_allOnes.symm.trans h
  rw [hw]
  rfl

theorem decode_evalu_row {nctx : Nat} {w : Word} (h : w &&& 0xF0FF0000#32 = 0x10000000#32) :
    decode nctx w =
      if (ctxField w).toNat < nctx then .ok (.evalu (ctxField w) (immField w)) else .error .noSuchContext := by
  obtain ⟨hop, hrsv⟩ := fields_of_mask_evalu (op := 0x1#4) h
  simp [decode, hop, hrsv]

theorem decode_evalx_row {nctx : Nat} {w : Word} (h : w &&& 0xF0FFFFFF#32 = 0x20000000#32) :
    decode nctx w = if (ctxField w).toNat < nctx then .ok (.evalx (ctxField w)) else .error .noSuchContext := by
  obtain ⟨hop, hlow⟩ := fields_of_mask_context (op := 0x2#4) h
  simp [decode, hop, hlow]

theorem decode_clear_row {nctx : Nat} {w : Word} (h : w &&& 0xF0FFFFFF#32 = 0x30000000#32) :
    decode nctx w = if (ctxField w).toNat < nctx then .ok (.clear (ctxField w)) else .error .noSuchContext := by
  obtain ⟨hop, hlow⟩ := fields_of_mask_context (op := 0x3#4) h
  simp [decode, hop, hlow]

/-- The two answers of a row with a context index, by that index as a number. -/
theorem row_answers {nctx : Nat} {w : Word} {i : Instr}
    (h : decode nctx w = if (ctxField w).toNat < nctx then .ok i else .error .noSuchContext) :
    (w.toNat / 2 ^ 24 % 16 < nctx → decode nctx w = .ok i) ∧
      (nctx ≤ w.toNat / 2 ^ 24 % 16 → decode nctx w = .error .noSuchContext) := by
  rw [ctxField_toNat] at h
  exact ⟨fun hc => h.trans (if_pos hc), fun hc => h.trans (if_neg (Nat.not_lt.mpr hc))⟩

/-! ### The value column -/

/-- A command word is its fields shifted into place, as the value column of R303 writes it. -/
theorem packCommand_eq_or (op : BitVec 4) (c : CtxIndex) (imm : BitVec 16) :
    packCommand op c 0#8 imm = (op.setWidth 32 <<< 28) ||| (c.setWidth 32 <<< 24) ||| imm.setWidth 32 := by
  have fields := BitVec.setWidth_append_append_append_eq_shiftLeft_setWidth_or (b := op) (b' := c) (b'' := 0#8)
    (b''' := imm) (w'''' := 32)
  simpa [packCommand] using fields

/-- Settles O25: the masks compare fields, the decoder reads the same fields, and the value column is their place. -/
theorem rowsMatchByMaskAndMatch : Obligations.RowsMatchByMaskAndMatch := by
  refine ⟨fun nctx w => ?_, rfl, fun c n => packCommand_eq_or 0x1#4 c n, fun c => ?_, fun c => ?_⟩
  · rw [← ctxField_eq_ofNat, ← immField_eq_ofNat]
    exact ⟨decode_nop_row, fun h => row_answers (decode_evalu_row h), fun h => row_answers (decode_evalx_row h),
      fun h => row_answers (decode_clear_row h)⟩
  · exact (packCommand_eq_or 0x2#4 c 0#16).trans BitVec.or_zero
  · exact (packCommand_eq_or 0x3#4 c 0#16).trans BitVec.or_zero

end Sys2Proof
end

section
/-! The words that are no command (R306), and the write of one to `CMD` (R470). -/

namespace Sys2Proof

/-! ### When the decoder refuses -/

/-- A test before an answer refuses when it fails, and otherwise refuses what the answer refuses. -/
theorem test_refuses_iff (p : Prop) [Decidable p] (r : Except Illegal Instr) (x : Illegal) :
    (∃ e, (if p then r else .error x) = .error e) ↔ (p → ∃ e, r = .error e) := by
  by_cases h : p <;> simp [h]

/-- R306 as arithmetic on the word, operation by operation. -/
theorem decode_refuses_iff (nctx : Nat) (w : Word) :
    (∃ e, decode nctx w = .error e) ↔
      (4 ≤ w.toNat / 2 ^ 28 ∨
        (w.toNat / 2 ^ 28 = 0 ∧ w.toNat % 2 ^ 28 ≠ 0) ∨
        (w.toNat / 2 ^ 28 = 1 ∧ w.toNat / 2 ^ 16 % 2 ^ 8 ≠ 0) ∨
        ((w.toNat / 2 ^ 28 = 2 ∨ w.toNat / 2 ^ 28 = 3) ∧ w.toNat % 2 ^ 24 ≠ 0) ∨
        ((w.toNat / 2 ^ 28 = 1 ∨ w.toNat / 2 ^ 28 = 2 ∨ w.toNat / 2 ^ 28 = 3) ∧ nctx ≤ w.toNat / 2 ^ 24 % 16)) := by
  rw [decode_toNat]
  generalize w.toNat / 2 ^ 28 = op, w.toNat % 2 ^ 28 = low28, w.toNat / 2 ^ 16 % 2 ^ 8 = rsv, w.toNat % 2 ^ 24 = low24,
    w.toNat / 2 ^ 24 % 16 = ctx
  match op with
  | 0 => simp [test_refuses_iff]
  | 1 => simp [test_refuses_iff, imp_iff_not_or]
  | 2 => simp [test_refuses_iff, imp_iff_not_or]
  | 3 => simp [test_refuses_iff, imp_iff_not_or]
  | n + 4 => simp

end Sys2Proof

namespace Sys2Proof.Machine

/-- The write of a word that is no command to `CMD` sets `ILLCMD` and keeps the rest (R470). -/
theorem step_undecoded {s : State} {w : Word} {rest : List PortEvent} {e : Illegal}
    (hd : decode s.numContexts w = .error e) (h : TakesWrite s 0x00C#12 w rest) :
    step s = .next { s.withPort rest with illcmd := true } := by
  obtain ⟨hr, -, hp⟩ := h
  rw [step_command hp hr]
  exact runCommand_error hd

/-- Settles O26: the decoder refuses the five kinds of R306 and no other word, and the step of such a word is R470's. -/
theorem illegalWordsAreExactlyTheListed : Obligations.IllegalWordsAreExactlyTheListed :=
  ⟨decode_refuses_iff, fun _ _ _ _ => step_undecoded⟩

end Sys2Proof.Machine
end

section
/-! An access by what its offset names (R403, R404), illegal accesses (R402), and the value each register reads. -/

namespace Sys2Proof.Machine

/-! ### What an offset names decides the access -/

/-- A read returns the value of what its offset names (R403). -/
theorem readReg_of_locate {s : State} {off : Offset} {t : Target} (h : locate s.numContexts off = t) :
    s.readReg off = s.readTarget t := congrArg s.readTarget h

/-- A legal write to an offset that names anything but `CMD` writes the register it names (R404). -/
theorem step_write_located {s : State} {off : Offset} {v : Word} {rest : List PortEvent} {t : Target}
    (h : TakesWrite s off v rest) (hl : locate s.numContexts off = t) (ht : t ≠ .cmd) :
    step s = .next ((s.withPort rest).writeTarget t v) := by
  subst hl
  obtain ⟨hr, h4, hp⟩ := h
  rw [step_write hr h4 hp]
  exact writeReg_plain ht

/-! ### Illegal accesses -/

/-- Settles O7: the size and the alignment are checked first, so no offset is decoded. -/
theorem illegalAccessSetsOnlyAccerr : Obligations.IllegalAccessSetsOnlyAccerr := by
  intro s off n v rest hr hill
  have hl : legalAccess off n = false := (legalAccess_eq_false_iff off n).mpr hill
  refine ⟨fun hp => ?_, fun hp => ?_⟩
  · rw [step_access hp hr, takeAccess_read_illegal hl]
    rfl
  · rw [step_access hp hr, takeAccess_write_illegal hl]

/-! ### The words of a read -/

/-- `PARAM` as a number (R104). -/
theorem paramWord_eq {n : Nat} (h : n ≤ 15) : paramWord n = BitVec.ofNat 32 (0x100 + 0x10 * n + 2) := by
  have table : ∀ m < 16, paramWord m = BitVec.ofNat 32 (0x100 + 0x10 * m + 2) := by decide
  exact table n (by omega)

/-- `STATUS` as a number (R105). -/
theorem statusWord_eq (s : State) :
    s.statusWord = BitVec.ofNat 32 ((if s.accerr then 2 else 0) + (if s.illcmd then 1 else 0)) := by
  unfold State.statusWord
  cases s.accerr <;> cases s.illcmd <;> rfl

/-- Settles O8: the step of a legal read, and the value at each offset of the map. -/
theorem legalReadReturnsItsRegister : Obligations.LegalReadReturnsItsRegister := by
  refine ⟨fun _ _ _ ⟨hr, h4, hp⟩ => step_read hr h4 hp, fun _ _ h => readReg_of_locate h, rfl, rfl, fun s hn => ?_⟩
  refine ⟨rfl, paramWord_eq hn, statusWord_eq s, rfl, rfl, fun c hc => ?_⟩
  obtain ⟨hctrl, hout, hrg, hsg⟩ := locate_context_registers hc hn
  exact ⟨(readReg_of_locate hctrl).trans (ctrlWord_eq _), readReg_of_locate hout, readReg_of_locate hrg,
    readReg_of_locate hsg, fun i r => readReg_of_locate (locate_section_register hc hn i r)⟩

end Sys2Proof.Machine
end

section
/-! The gaps of the register map (R118), and accesses to them (R411). -/

namespace Sys2Proof.Machine

/-! ### The gaps -/

theorem locate_global_gap {off : Offset} (nctx : Nat) (lo : 0x014 ≤ off.toNat) (hi : off.toNat < 0x100) :
    locate nctx off = .reserved := by
  unfold locate
  rw [if_neg (by omega), if_neg (by omega), if_neg (by omega), if_neg (by omega), if_neg (by omega), if_pos hi]

theorem locate_missing_context {nctx : Nat} {off : Offset} (h : contextBase nctx ≤ off.toNat) :
    locate nctx off = .reserved := by
  unfold contextBase at h
  unfold locate
  rw [if_neg (by omega), if_neg (by omega), if_neg (by omega), if_neg (by omega), if_neg (by omega),
    if_neg (by omega), if_neg (by omega)]

theorem secRegAt_none {q : Nat} (h : ∀ r : SecReg, q ≠ r.offset) : secRegAt q = none := by
  cases hq : secRegAt q with
  | none => rfl
  | some r => exact absurd (secRegAt_some hq) (h r)

theorem locateInContext_section_gap (c : Nat) (i : Fin 2) {q : Nat} (hq : q < 0x40) (h : ∀ r : SecReg, q ≠ r.offset) :
    locateInContext c (0x10 + 0x40 * i.val + q) = .reserved := by
  have inBlock : (0x10 + 0x40 * i.val + q - 0x10) % 0x40 = q := by omega
  unfold locateInContext
  rw [if_neg (by omega), if_neg (by omega), if_neg (by omega), if_neg (by omega), if_pos (by omega), inBlock,
    secRegAt_none h]

theorem locate_section_gap {nctx c : Nat} (hc : c < nctx) (hn : nctx ≤ 15) (i : Fin 2) {q : Nat} (hq : q < 0x40)
    (h : ∀ r : SecReg, q ≠ r.offset) : locate nctx (windowOffset (sectionBase c i + q)) = .reserved := by
  have place : sectionBase c i + q = contextBase c + (0x10 + 0x40 * i.val + q) := by unfold sectionBase; omega
  rw [place, locate_in_context hc hn (by omega), locateInContext_section_gap c i hq h]

theorem locate_context_gap {nctx c r : Nat} (hc : c < nctx) (hn : nctx ≤ 15) (lo : 0x90 ≤ r) (hi : r < 0x100) :
    locate nctx (windowOffset (contextBase c + r)) = .reserved := by
  rw [locate_in_context hc hn hi]
  unfold locateInContext
  rw [if_neg (by omega), if_neg (by omega), if_neg (by omega), if_neg (by omega), if_neg (by omega)]

/-- Settles O16: the registers by the laws of `locate`, and every gap between them. -/
theorem locateIsTheRegisterMap : Obligations.LocateIsTheRegisterMap := by
  intro nctx hn
  refine ⟨rfl, rfl, rfl, rfl, rfl, fun _ => locate_global_gap nctx, fun _ => locate_missing_context, fun c hc => ?_⟩
  obtain ⟨hctrl, hout, hrg, hsg⟩ := locate_context_registers hc hn
  exact ⟨hctrl, hout, hrg, hsg, locate_section_register hc hn, fun i _ hq _ => locate_section_gap hc hn i hq,
    fun _ => locate_context_gap hc hn⟩

/-! ### Accesses to a reserved offset -/

/-- No register stands in the two gaps of a section block. -/
theorem section_gap_ne_offset {q : Nat} (h : 0x14 ≤ q ∧ q < 0x20 ∨ 0x34 ≤ q) (r : SecReg) : q ≠ r.offset := by
  cases r <;> simp only [SecReg.offset] <;> omega

/-- The ranges of R411 are reserved. -/
theorem locate_reserved_range {nctx : Nat} {off : Offset} (hn : nctx ≤ 15)
    (h : (0x014 ≤ off.toNat ∧ off.toNat < 0x100) ∨ contextBase nctx ≤ off.toNat ∨
      ∃ c, c < nctx ∧
        ((contextBase c + 0x90 ≤ off.toNat ∧ off.toNat < contextBase c + 0x100) ∨
          ∃ i : Fin 2, (sectionBase c i + 0x14 ≤ off.toNat ∧ off.toNat < sectionBase c i + 0x20) ∨
            (sectionBase c i + 0x34 ≤ off.toNat ∧ off.toNat < sectionBase c i + 0x40))) :
    locate nctx off = .reserved := by
  rcases h with ⟨lo, hi⟩ | hmissing | ⟨c, hc, ⟨lo, hi⟩ | ⟨i, hgap⟩⟩
  · exact locate_global_gap nctx lo hi
  · exact locate_missing_context hmissing
  · have place : off.toNat = contextBase c + (off.toNat - contextBase c) := by omega
    rw [eq_windowOffset place]
    exact locate_context_gap hc hn (by omega) (by omega)
  · have place : off.toNat = sectionBase c i + (off.toNat - sectionBase c i) := by omega
    rw [eq_windowOffset place]
    exact locate_section_gap hc hn i (by omega) (section_gap_ne_offset (by omega))

/-- Settles O18: each range decodes to `reserved`, which reads zero and takes no write. -/
theorem reservedOffsetsReadZeroAndIgnoreWrites : Obligations.ReservedOffsetsReadZeroAndIgnoreWrites := by
  intro s off rest hn hrange
  have hl : locate s.numContexts off = .reserved := locate_reserved_range hn hrange
  refine ⟨fun ⟨hr, h4, hp⟩ => ?_, fun v h => step_write_located h hl (by decide)⟩
  rw [step_read hr h4 hp, readReg_of_locate hl]
  rfl

end Sys2Proof.Machine
end

section
/-! The read-only registers (R405): no write reaches them, and what can change an `OUT`. -/

namespace Sys2Proof.Machine

/-- An update that keeps `OUT` leaves the `OUT` of every context. -/
theorem out_updContext (s : State) (d c : Nat) {f : Context → Context} (hf : ∀ k, (f k).out = k.out) :
    ((s.updContext d f).context c).out = (s.context c).out := by
  by_cases hd : c = d
  · subst hd
    rcases Nat.lt_or_ge c s.numContexts with hc | hc
    · rw [context_updContext_same s c f hc, hf]
    · rw [updContext_out_of_range s c f hc]
  · rw [context_updContext_ne s d c f hd]

/-- A write of any register leaves the `OUT` of every context. -/
theorem out_writeTarget (s : State) (t : Target) (v : Word) (c : Nat) :
    ((s.writeTarget t v).context c).out = (s.context c).out := by
  cases t with
  | ctrl d => exact out_updContext s d c fun k => writeCtrl_out k v
  | rg d => exact out_updContext s d c fun _ => rfl
  | sg d => exact out_updContext s d c fun _ => rfl
  | sec d i r => exact out_updContext s d c fun k => setSec_out k i _
  | id | param | status | cmd | xin | reserved | out => rfl

/-- Driving the reset input changes a context only by releasing an asserted reset (R800). -/
theorem context_driveReset {s : State} {b : Bool} (h : ¬ (s.resetAsserted = true ∧ b = false)) (c : Nat) :
    (s.driveReset b).context c = s.context c := by
  cases b with
  | true => rfl
  | false =>
    have hr : s.resetAsserted = false := by simpa using h
    simp [State.driveReset, hr]

/-- The commands that change a context are `EVALU`, `EVALX` and `CLEAR` on it. -/
theorem command_of_effect {s : State} {i : Instr} {c : CtxIndex} {f : Context → Context}
    (h : Instr.effect s i = some (c, f)) : (∃ n, i = .evalu c n) ∨ i = .evalx c ∨ i = .clear c := by
  cases i with
  | nop => cases h
  | evalu d n => cases h; exact .inl ⟨n, rfl⟩
  | evalx d => cases h; exact .inr (.inl rfl)
  | clear d => cases h; exact .inr (.inr rfl)

/-- Every way a step can change an `OUT`: the release of reset, or a command on its context. -/
theorem out_changed_cases {s t : State} {c : Nat} (h : step s = .next t) (hne : (t.context c).out ≠ (s.context c).out) :
    ReleasesReset s ∨
      ∃ v rest, TakesWrite s 0x00C#12 v rest ∧ ∃ d : CtxIndex, d.toNat = c ∧
        ((∃ n, decode s.numContexts v = .ok (.evalu d n)) ∨ decode s.numContexts v = .ok (.evalx d) ∨
          decode s.numContexts v = .ok (.clear d)) := by
  cases step_cases h with
  | idle _ ht => subst ht; exact absurd rfl hne
  | reset b rest hp ht =>
    subst ht
    by_cases hrel : s.resetAsserted = true ∧ b = false
    · obtain ⟨hr, rfl⟩ := hrel
      exact .inl ⟨hr, rest, hp⟩
    · exact absurd (congrArg Context.out (context_driveReset (s := s.withPort rest) hrel c)) hne
  | read _ _ _ _ _ ht => subst ht; exact absurd rfl hne
  | badRead _ _ _ _ _ _ ht => subst ht; exact absurd rfl hne
  | badWrite _ _ _ _ _ _ _ ht => subst ht; exact absurd rfl hne
  | write off v rest _ _ _ _ ht => subst ht; exact absurd (out_writeTarget (s.withPort rest) _ v c) hne
  | nop _ _ _ _ _ ht => subst ht; exact absurd rfl hne
  | command v rest i d f hp hr hd he _ ht =>
    subst ht
    have hdc : d.toNat = c := by
      by_contra hcd
      exact hne (congrArg Context.out (context_updContext_ne (s.withPort rest) d.toNat c f (Ne.symm hcd)))
    refine .inr ⟨v, rest, ⟨hr, rfl, hp⟩, d, hdc, ?_⟩
    rcases command_of_effect he with ⟨n, rfl⟩ | rfl | rfl
    · exact .inl ⟨n, hd⟩
    · exact .inr (.inl hd)
    · exact .inr (.inr hd)
  | illegal _ _ _ _ _ _ ht => subst ht; exact absurd rfl hne

/-- Settles O14: the three targets take no write, and an `OUT` changes only as `out_changed_cases` says. -/
theorem readOnlyRegistersIgnoreWrites : Obligations.ReadOnlyRegistersIgnoreWrites := by
  refine ⟨fun s off v rest h hn hoff => ?_, fun _ _ _ => out_changed_cases⟩
  rcases hoff with rfl | rfl | ⟨c, hc, rfl⟩
  · exact step_write_located (t := .id) h rfl (by decide)
  · exact step_write_located (t := .param) h rfl (by decide)
  · obtain ⟨-, hout, -, -⟩ := locate_context_registers hc hn
    exact step_write_located h hout (by simp)

end Sys2Proof.Machine
end

section
/-! The register writes: `STATUS` (R406), `CTRL` (R409), and the registers that store the word verbatim (R408, R410). -/

namespace Sys2Proof.Machine

/-! ### `STATUS` -/

/-- Write 1 to clear, by the bits of the word as a number (R406). -/
theorem clearStatus_eq (s : State) (v : Word) :
    s.clearStatus v =
      { s with
        illcmd := if v.toNat % 2 = 1 then false else s.illcmd
        accerr := if v.toNat / 2 % 2 = 1 then false else s.accerr } := by
  have clear : ∀ (b : Bool) (p : Prop) [Decidable p], (b && !decide p) = if p then false else b := by
    intro b p _
    by_cases hp : p <;> simp [hp]
  have h0 : v.getLsbD 0 = decide (v.toNat % 2 = 1) := Nat.testBit_zero _
  have h1 : v.getLsbD 1 = decide (v.toNat / 2 % 2 = 1) := Nat.testBit_eq_decide_div_mod_eq
  simp only [State.clearStatus, h0, h1, clear]

theorem step_status_write {s : State} {v : Word} {rest : List PortEvent} (h : TakesWrite s 0x008#12 v rest) :
    step s = .next ((s.withPort rest).clearStatus v) := step_write_located (t := .status) h rfl (by decide)

/-- Settles O19: the write is `clearStatus`, for zero and for the rule's example too. -/
theorem statusWriteClearsTheOnesWritten : Obligations.StatusWriteClearsTheOnesWritten := by
  refine ⟨fun s v rest h => ?_, fun s rest h => ?_, fun s rest hi ha h => ⟨_, step_status_write h, ?_⟩⟩
  · rw [step_status_write h, clearStatus_eq]
    rfl
  · rw [step_status_write h, clearStatus_eq]
    rfl
  · show ((s.withPort rest).clearStatus 0x00000002#32).statusWord = 0x00000001#32
    rw [statusWord_eq, clearStatus_illcmd, clearStatus_accerr, withPort_illcmd, withPort_accerr, hi, ha]
    rfl

/-! ### `CTRL` -/

/-- The write of `CTRL`, with `NSEC` by the word as a number (R409). -/
theorem writeCtrl_eq (k : Context) (v : Word) :
    k.writeCtrl v =
      { k with kind := kindOfBits (v.extractLsb' 0 2), nsec := BitVec.ofNat 2 (min (v.toNat / 16 % 4) 2) } := by
  unfold Context.writeCtrl
  rw [clampNsec_field]

/-- The kind written is the one of bits 1:0 (R110). -/
theorem kindBits_written (v : Word) : (kindBits (kindOfBits (v.extractLsb' 0 2))).toNat = v.toNat % 4 := by
  simp [BitVec.extractLsb'_toNat]

/-- The count written fits its field. -/
theorem nsec_written (v : Word) : (clampNsec (v.extractLsb' 4 2)).toNat = min (v.toNat / 16 % 4) 2 := by
  rw [clampNsec_field, BitVec.toNat_ofNat]
  omega

/-- What a written `CTRL` reads back (R409). -/
theorem ctrlWord_writeCtrl (k : Context) (v : Word) :
    (k.writeCtrl v).ctrlWord = BitVec.ofNat 32 (0x10 * min (v.toNat / 16 % 4) 2 + v.toNat % 4) := by
  rw [ctrlWord_eq, writeCtrl_nsec, writeCtrl_kind, nsec_written, kindBits_written]

/-- Settles O20: the write is `writeCtrl` on its context, and its word reads back. -/
theorem ctrlWriteStoresALegalValue : Obligations.CtrlWriteStoresALegalValue := by
  intro s c v rest hn hc h
  obtain ⟨hctrl, -, -, -⟩ := locate_context_registers hc hn
  have hstep : step s = .next ((s.withPort rest).updContext c (fun k => k.writeCtrl v)) :=
    step_write_located h hctrl (by simp)
  have hcontext : ((s.withPort rest).updContext c (fun k => k.writeCtrl v)).context c = (s.context c).writeCtrl v :=
    context_updContext_same _ _ _ hc
  have hread : ((s.withPort rest).updContext c (fun k => k.writeCtrl v)).readReg (windowOffset (contextBase c)) =
      BitVec.ofNat 32 (0x10 * min (v.toNat / 16 % 4) 2 + v.toNat % 4) := by
    rw [readReg_of_locate (t := .ctrl c) (by simpa using hctrl), State.readTarget, hcontext, ctrlWord_writeCtrl]
  refine ⟨⟨kindOfBits (v.extractLsb' 0 2), kindBits_written v, ?_, fun t x ht => ?_⟩, _, hstep, ?_, hread, ?_⟩
  · simp only [hstep, writeCtrl_eq]
  · rw [hstep] at ht
    cases ht
    rw [hcontext, writeCtrl_eq]
  · rw [hcontext, writeCtrl_nsec, nsec_written]
  · rintro rfl
    exact hread

/-! ### The registers that store the word verbatim -/

/-- The registers whose write stores all 32 bits: `XIN`, `RG`, `SG` and the section registers (R408, R410). -/
def Target.storesVerbatim : Target → Bool
  | .xin | .rg _ | .sg _ | .sec _ _ _ => true
  | .id | .param | .status | .cmd | .reserved | .ctrl _ | .out _ => false

/-- Such a register reads back what was written to it, where its context exists. -/
theorem readTarget_writeTarget_verbatim {s : State} {t : Target} (v : Word) (ht : t.storesVerbatim = true)
    (hc : ∀ c, t.context? = some c → c < s.numContexts) : (s.writeTarget t v).readTarget t = v := by
  cases t with
  | xin => rfl
  | rg c => simp [State.readTarget, State.writeTarget, hc c rfl]
  | sg c => simp [State.readTarget, State.writeTarget, hc c rfl]
  | sec c i r => simp [State.readTarget, State.writeTarget, hc c rfl]
  | id | param | status | cmd | reserved | ctrl | out => cases ht

/-- The step of a legal write to such a register: the write of the register, which reads back. -/
theorem step_write_verbatim {s : State} {off : Offset} {v : Word} {rest : List PortEvent} {t : Target}
    (hl : locate s.numContexts off = t) (ht : t.storesVerbatim = true) (h : TakesWrite s off v rest) :
    ∃ u, step s = .next u ∧ u = (s.withPort rest).writeTarget t v ∧ u.readReg off = v := by
  refine ⟨_, step_write_located h hl (by rintro rfl; cases ht), rfl, ?_⟩
  have hl' : locate ((s.withPort rest).writeTarget t v).numContexts off = t := by
    rw [numContexts_writeTarget]
    exact hl
  rw [readReg_of_locate hl']
  exact readTarget_writeTarget_verbatim v ht fun c hc => locate_context (hl ▸ hc)

/-- Settles O21: each of these offsets names a register that stores the word verbatim. -/
theorem registerWritesStoreVerbatim : Obligations.RegisterWritesStoreVerbatim := by
  refine fun s v rest hn => ⟨step_write_verbatim (t := .xin) rfl rfl, fun c hc => ?_⟩
  obtain ⟨-, -, hrg, hsg⟩ := locate_context_registers hc hn
  exact ⟨step_write_verbatim hrg rfl, step_write_verbatim hsg rfl,
    fun i r => step_write_verbatim (locate_section_register hc hn i r) rfl⟩

end Sys2Proof.Machine
end

section
/-! The write of a word to `CMD`, by the verdict of the decoder: the command it decodes to (R407), with `NOP` (R420), or
`ILLCMD` (R470). -/

namespace Sys2Proof.Machine

/-! ### A word that is no command -/

/-- `STATUS` with `ILLCMD` alone set (R105, R470). -/
theorem readReg_status_illcmd {s : State} (hi : s.illcmd = true) (ha : s.accerr = false) :
    s.readReg 0x008#12 = 0x00000001#32 := by
  rw [readReg_of_locate (t := .status) rfl]
  show s.statusWord = 0x00000001#32
  rw [statusWord_eq, hi, ha]
  rfl

/-- Settles O6: the step of an undecoded word, and the decoder's verdict on the four words. -/
theorem illegalWordSetsOnlyIllcmd : Obligations.IllegalWordSetsOnlyIllcmd :=
  ⟨fun _ _ _ _ h hd => step_undecoded hd h, ⟨.noSuchContext, rfl⟩, ⟨.reservedFieldSet, rfl⟩, ⟨.nopBitsSet, rfl⟩,
    ⟨.reservedOp, rfl⟩, fun _ => readReg_status_illcmd⟩

/-! ### `NOP` -/

/-- A word that decodes, written to `CMD`, runs its command on the state with the access taken (R407). -/
theorem step_decoded {s : State} {w : Word} {rest : List PortEvent} {i : Instr}
    (hd : decode s.numContexts w = .ok i) (h : TakesWrite s 0x00C#12 w rest) : step s = exec i (s.withPort rest) := by
  obtain ⟨hr, -, hp⟩ := h
  rw [step_command hp hr]
  exact runCommand_ok hd

/-- With `OP` = 0 only the zero word is a command (R306, R420). -/
theorem decode_refuses_nop_bits (nctx : Nat) {w : Word} (hop : w.toNat / 2 ^ 28 = 0) (hw : w ≠ 0x00000000#32) :
    ∃ e, decode nctx w = .error e := by
  have hlow : w.toNat % 2 ^ 28 ≠ 0 := by
    intro h
    exact hw (BitVec.eq_of_toNat_eq (show w.toNat = 0 by omega))
  exact (decode_refuses_iff nctx w).mpr (.inr (.inl ⟨hop, hlow⟩))

/-- Settles O29: `exec` of `NOP` is the same state, and the zero word is the only one with `OP` = 0 that decodes. -/
theorem nopChangesNothing : Obligations.NopChangesNothing := by
  have hexec : ∀ s : State, exec .nop s = .next s := fun _ => rfl
  have hword : ∀ nctx, decode nctx 0x00000000#32 = .ok .nop := fun _ => decode_nop_row rfl
  exact ⟨hexec, hword, fun s _ h => (step_decoded (hword s.numContexts) h).trans (hexec _),
    fun nctx _ => decode_refuses_nop_bits nctx⟩

end Sys2Proof.Machine
end

section
/-! The addition case by case (R503), and the subtraction as the addition of the negation (R504). -/

namespace Sys2Proof.Machine

/-! ### Classes that exclude each other -/

theorem not_isNaN_of_isInf {b : Word} (h : isInf b = true) : isNaN b = false := by simp_all [isInf, isNaN]

theorem not_isZero_of_isInf {b : Word} (h : isInf b = true) : isZero b = false := by simp_all [isInf, isZero]

theorem not_isNaN_of_isZero {b : Word} (h : isZero b = true) : isNaN b = false :=
  not_isNaN_of_isFinite (isFinite_of_isZero h)

theorem not_isInf_of_isZero {b : Word} (h : isZero b = true) : isInf b = false :=
  not_isInf_of_isFinite (isFinite_of_isZero h)

/-- The zero with the sign bit set is `0x80000000`. -/
theorem eq_negative_zero_iff {b : Word} (h : isZero b = true) : b = 0x80000000#32 ↔ signBit b = true := by
  constructor
  · rintro rfl; rfl
  · intro hs; rw [eq_signedZero h, hs]; rfl

/-! ### One equation per case of `fadd32` -/

theorem fadd32_nan {a b : Word} (h : isNaN a = true ∨ isNaN b = true) : fadd32 a b = canonicalNaN := by
  simp [fadd32, h]

theorem fadd32_opposite_infinities {a b : Word} (ha : isInf a = true) (hb : isInf b = true)
    (hs : signBit a ≠ signBit b) : fadd32 a b = canonicalNaN := by
  simp [fadd32, ha, hb, hs]

theorem fadd32_infinity_left {a b : Word} (ha : isInf a = true) (hb : isNaN b = false)
    (hs : isInf b = true → signBit a = signBit b) : fadd32 a b = a := by
  simp +contextual [fadd32, not_isNaN_of_isInf ha, ha, hb, hs]

theorem fadd32_infinity_right {a b : Word} (hb : isInf b = true) (ha : isNaN a = false) (ha' : isInf a = false) :
    fadd32 a b = b := by
  simp [fadd32, not_isNaN_of_isInf hb, hb, ha, ha']

theorem fadd32_zero_left {a b : Word} (ha : isZero a = true) (hb : isNaN b = false) (hb' : isZero b = false) :
    fadd32 a b = b := by
  simp [fadd32, not_isNaN_of_isZero ha, not_isInf_of_isZero ha, ha, hb, hb']

theorem fadd32_zero_right {a b : Word} (hb : isZero b = true) (ha : isNaN a = false) (ha' : isZero a = false) :
    fadd32 a b = a := by
  simp [fadd32, not_isNaN_of_isZero hb, not_isInf_of_isZero hb, hb, ha, ha']

/-- The exact cancellation of two non-zero operands is +0.0. -/
theorem fadd32_cancel {a b : Word} (ha : isFinite a = true) (hz : isZero a = false) (hb : isFinite b = true)
    (hz' : isZero b = false) (h : value a + value b = 0) : fadd32 a b = signedZero false := by
  simp [fadd32, not_isNaN_of_isFinite ha, not_isNaN_of_isFinite hb, not_isInf_of_isFinite ha,
    not_isInf_of_isFinite hb, hz, hz', h]

/-- Two zeros add up to -0.0 only where both are -0.0. -/
theorem fadd32_zeros_eq_ite {a b : Word} (ha : isZero a = true) (hb : isZero b = true) :
    fadd32 a b = if a = 0x80000000#32 ∧ b = 0x80000000#32 then 0x80000000#32 else 0x00000000#32 := by
  rw [fadd32_zeros ha hb]
  simp only [eq_negative_zero_iff ha, eq_negative_zero_iff hb]
  cases signBit a <;> cases signBit b <;> rfl

/-- A sum of finite non-zero operands that is not zero is the exact sum rounded, and never rounds to zero (R503). -/
theorem fadd32_rounded {a b : Word} (ha : isFinite a = true) (hz : isZero a = false) (hb : isFinite b = true)
    (hz' : isZero b = false) (h : value a + value b ≠ 0) :
    RoundsTo (decide (value a + value b < 0)) (value a + value b).natAbs 1 (fadd32 a b) ∧
      isZero (fadd32 a b) = false := by
  rw [fadd32_finite ha hb hz hz' h]
  exact ⟨rne_roundsTo _ one_pos, rne_ne_zero _ (Int.natAbs_ne_zero.mpr h)⟩

/-- Settles O47: a case of the rule is an equation of `fadd32`. -/
theorem additionSpecialCases : Obligations.AdditionSpecialCases := fun _ _ =>
  ⟨fadd32_nan, fadd32_opposite_infinities, fadd32_infinity_left, fadd32_infinity_right, fadd32_zeros_eq_ite,
    fadd32_zero_left, fadd32_zero_right, fadd32_cancel, fadd32_rounded⟩

/-! ### Subtraction -/

theorem fsub32_nan_right (a : Word) {b : Word} (hb : isNaN b = true) : fsub32 a b = canonicalNaN :=
  fadd32_nan (.inr ((isNaN_neg32 b).trans hb))

/-- An infinity minus the infinity of its sign adds two opposite ones. -/
theorem fsub32_like_infinities {a b : Word} (ha : isInf a = true) (hb : isInf b = true)
    (hs : signBit a = signBit b) : fsub32 a b = canonicalNaN :=
  fadd32_opposite_infinities ha ((isInf_neg32 b).trans hb) (by simp [hs])

/-- A finite datum and its negation are two zeros of different signs, or cancel exactly. -/
theorem fsub32_self {x : Word} (hx : isFinite x = true) : fsub32 x x = signedZero false := by
  have hx' : isFinite (neg32 x) = true := (isFinite_neg32 x).trans hx
  cases hz : isZero x
  case true =>
    rw [fsub32, fadd32_zeros hz ((isZero_neg32 x).trans hz), signBit_neg32, Bool.and_not_self]
  case false =>
    exact fadd32_cancel hx hz hx' ((isZero_neg32 x).trans hz) (by rw [value_neg32, Int.add_right_neg])

/-- Settles O49: the definition, and the three cases of the addition of a negation. -/
theorem subtractionAddsTheNegation : Obligations.SubtractionAddsTheNegation :=
  ⟨fun _ _ => rfl, fun a _ => fsub32_nan_right a, fun _ _ => fsub32_like_infinities,
    fsub32_like_infinities rfl rfl rfl, fun _ => fsub32_self⟩

end Sys2Proof.Machine
end

section
/-! Results that need no rounding: the conversion of a small integer (R508), and the doubling of a datum (R510). Both
are on the grid of their own binade, so `rne_grid` applies. -/

namespace Sys2Proof.Machine

/-- The value of a datum of sign 0 is its magnitude. -/
theorem value_of_signBit_false {b : Word} (h : signBit b = false) : value b = magnitude b := by simp [value, h]

/-- A datum of one sign and twice the magnitude has twice the value. -/
theorem value_double {b c : Word} (hs : signBit b = signBit c) (hm : magnitude b = 2 * magnitude c) :
    value b = 2 * value c := by
  unfold value
  rw [hs, hm]
  cases signBit c
  · simp
  · simp

/-- A datum of a smallest normal's magnitude or more is normal. -/
theorem one_le_expField {b : Word} (h : 2 ^ 23 ≤ magnitude b) : 1 ≤ expField b := by
  by_contra hc
  have hf := fracField_lt b
  unfold magnitude at h
  rw [if_pos (by omega)] at h
  omega

/-! ### Small integers -/

/-- A number of at most 24 significant bits is on the grid of its own binade. -/
theorem spacing_dvd_of_significand {n : Nat} (k : Nat) (hn : n < 2 ^ 24) : 2 ^ spacing (n * 2 ^ k) ∣ n * 2 ^ k := by
  suffices h : spacing (n * 2 ^ k) ≤ k from (pow_dvd_pow 2 h).mul_left n
  rcases Nat.lt_or_ge (n * 2 ^ k) (2 ^ 24) with hlow | hhigh
  · rw [spacing_low hlow]; exact Nat.zero_le k
  · have hle := (spacing_bounds hhigh).2.1
    have hlt : 2 ^ 23 * 2 ^ spacing (n * 2 ^ k) < 2 ^ 23 * 2 ^ (k + 1) :=
      calc 2 ^ 23 * 2 ^ spacing (n * 2 ^ k) ≤ n * 2 ^ k := hle
        _ < 2 ^ 24 * 2 ^ k := (Nat.mul_lt_mul_right (by positivity)).mpr hn
        _ = 2 ^ 23 * 2 ^ (k + 1) := by ring
    have := (Nat.pow_lt_pow_iff_right one_lt_two).mp (Nat.lt_of_mul_lt_mul_left hlt)
    omega

/-- Below 2^24 the conversion is exact (R508). -/
theorem u2f32_exact {n : Nat} (hn : n < 2 ^ 24) :
    magnitude (u2f32 n) = n * 2 ^ 149 ∧ isFinite (u2f32 n) = true ∧ signBit (u2f32 n) = false := by
  have hlt : n * 2 ^ 149 < overflowUnits := by unfold overflowUnits; omega
  exact rne_grid false one_pos (Nat.mul_one _).symm hlt (spacing_dvd_of_significand 149 hn)

/-- Settles O50: the fields of the exact conversion; an integer other than 0 is far above the smallest normal. -/
theorem smallIntegersConvertExactly : Obligations.SmallIntegersConvertExactly := by
  refine ⟨fun n hn => ?_, by decide, by decide, by decide⟩
  obtain ⟨hm, hf, hs⟩ := u2f32_exact hn
  refine ⟨hf, hs, by rw [value_of_signBit_false hs, hm], ?_, fun h0 => one_le_expField (by omega)⟩
  rintro rfl
  rfl

/-! ### The cases of `fmul32` that round nothing -/

theorem fmul32_nan {a b : Word} (h : isNaN a = true ∨ isNaN b = true) : fmul32 a b = canonicalNaN := by
  simp [fmul32, h]

theorem fmul32_infinity {a b : Word} (ha : isNaN a = false) (hb : isNaN b = false) (hz : isZero a = false)
    (hz' : isZero b = false) (h : isInf a = true ∨ isInf b = true) :
    fmul32 a b = signedInf (signBit a ^^ signBit b) := by
  simp [fmul32, ha, hb, hz, hz', h]

/-! ### The product by 2.0 -/

@[simp] theorem signBit_two32 : signBit two32 = false := rfl
@[simp] theorem magnitude_two32 : magnitude two32 = 2 ^ 150 := by decide

/-- Twice a datum's magnitude is on the grid of its own binade: the spacing doubles with the magnitude. -/
theorem spacing_dvd_double (w : Word) : 2 ^ spacing (2 * magnitude w) ∣ 2 * magnitude w := by
  rcases Nat.lt_or_ge (2 * magnitude w) (2 ^ 24) with hlow | hhigh
  · rw [spacing_low hlow]; exact one_dvd _
  · obtain ⟨hpos, hle, -⟩ := spacing_bounds hhigh
    obtain ⟨e, he⟩ := Nat.exists_eq_add_of_le' hpos
    rw [he, pow_succ'] at hle ⊢
    exact mul_dvd_mul_left 2 ((finite_magnitude_grid w e).resolve_left (by omega))

/-- Below 2^127 the double does not overflow: where it comes near the threshold it is a multiple of 2^253 units, so at
most `(2^24 - 1) * 2^253`. -/
theorem double_lt_overflow {w : Word} (h : magnitude w < 2 ^ 150 * 2 ^ 126) : 2 * magnitude w < overflowUnits := by
  unfold overflowUnits
  rcases finite_magnitude_grid w 252 with hlow | ⟨n, hn⟩
  · omega
  · omega

/-- The product by 2.0 is the double rounded, in units. -/
theorem fmul32_two {w : Word} (hf : isFinite w = true) (hz : isZero w = false) :
    fmul32 two32 w = rne (signBit w) (2 ^ 150 * magnitude w) (2 ^ 149) := by
  rw [fmul32_finite rfl hf rfl hz, signBit_two32, Bool.false_xor, magnitude_two32]

theorem fmul32_two_infinity {w : Word} (h : isInf w = true) : fmul32 two32 w = signedInf (signBit w) := by
  rw [fmul32_infinity rfl (not_isNaN_of_isInf h) rfl (not_isZero_of_isInf h) (.inr h), signBit_two32, Bool.false_xor]

theorem fmul32_two_zero {w : Word} (h : isZero w = true) : fmul32 two32 w = w := by
  rw [fmul32_zero rfl (isFinite_of_isZero h) (.inr h), signBit_two32, Bool.false_xor]
  exact (eq_signedZero h).symm

/-- Below 2^127 the product by 2.0 is exact. -/
theorem fmul32_two_exact {w : Word} (hf : isFinite w = true) (h : magnitude w < 2 ^ 150 * 2 ^ 126) :
    isFinite (fmul32 two32 w) = true ∧ value (fmul32 two32 w) = 2 * value w := by
  cases hz : isZero w
  case true =>
    rw [fmul32_two_zero hz, (value_eq_zero_iff w).mpr hz]
    exact ⟨hf, rfl⟩
  case false =>
    have hp : 2 ^ 150 * magnitude w = 2 * magnitude w * 2 ^ 149 := by ring
    obtain ⟨hm, hfin, hs⟩ :=
      rne_grid (signBit w) (by positivity) hp (double_lt_overflow h) (spacing_dvd_double w)
    rw [fmul32_two hf hz]
    exact ⟨hfin, value_double hs hm⟩

/-- From 2^127 on it overflows. -/
theorem fmul32_two_overflow {w : Word} (hf : isFinite w = true) (h : 2 ^ 150 * 2 ^ 126 ≤ magnitude w) :
    fmul32 two32 w = signedInf (signBit w) := by
  have hz : isZero w = false := by
    rw [Bool.eq_false_iff, Ne, ← magnitude_eq_zero_iff]
    omega
  rw [fmul32_two hf hz]
  exact rne_overflow _ _ _ (by unfold overflowUnits; omega)

/-- Settles O51: the mixes multiply by `two32`, and each class of `w` has its product. -/
theorem doublingIsExactOrOverflows : Obligations.DoublingIsExactOrOverflows :=
  ⟨fun _ _ _ _ => ⟨rfl, rfl, rfl⟩, fun _ =>
    ⟨fmul32_two_infinity, fmul32_two_exact, fmul32_two_overflow, fmul32_two_zero, fun h => fmul32_nan (.inr h)⟩⟩

end Sys2Proof.Machine
end

section
/-! An evaluation of a context that exists, by the value of its `NSEC` (R550, R551). -/

namespace Sys2Proof.Machine

/-- An evaluation makes any update that agrees with `Context.evaluate` on the context it names (R550). -/
theorem exec_evaluation_eq {s : State} {c : CtxIndex} {i : Instr} {x : Word} {f : Context → Context}
    (hc : c.toNat < s.numContexts)
    (hi : (∃ n : BitVec 16, i = .evalu c n ∧ x = u2f32 n.toNat) ∨ (i = .evalx c ∧ x = s.xin))
    (hf : (s.context c.toNat).evaluate x = f (s.context c.toNat)) :
    exec i s = .next (s.updContext c.toNat f) := by
  rw [exec_evaluation hc hi]
  exact congrArg Host.Outcome.next (updContext_congr s c.toNat _ f hf)

/-- Settles O30: each value of `NSEC` has its equation of `Context.evaluate`. -/
theorem evaluationRunsTheCascade : Obligations.EvaluationRunsTheCascade := by
  intro s c i x hc hi
  exact ⟨fun h0 => exec_evaluation_eq hc hi (evaluate_zero _ x h0),
    fun h1 => exec_evaluation_eq hc hi (evaluate_one _ x h1),
    fun h2 => exec_evaluation_eq hc hi (evaluate_two _ x h2)⟩

/-- Settles O31: the case of no section of the cascade, for each of the two commands. -/
theorem zeroSectionsPassTheSampleThrough : Obligations.ZeroSectionsPassTheSampleThrough := by
  intro s c n hc h0
  obtain ⟨evalu_passes, -⟩ := evaluationRunsTheCascade s c (.evalu c n) _ hc (.inl ⟨n, rfl, rfl⟩)
  obtain ⟨evalx_passes, -⟩ := evaluationRunsTheCascade s c (.evalx c) _ hc (.inr ⟨rfl, rfl⟩)
  exact ⟨evalu_passes h0, evalx_passes h0⟩

end Sys2Proof.Machine
end

section
/-! The designer's trigonometry on the arguments of R608: what the range reduction of R605 does to an argument in the range
and to one that a single turn brings there, the oddness of `hsin` in the range, and the two cases of `htan` (R607). -/

namespace Sys2Proof.Machine

/-- An argument in `[-PI, PI]`, which the range reduction of R605 leaves as it is. -/
abbrev InRange (u : Word) : Prop := flt32 piF u = false ∧ flt32 u (neg32 piF) = false

theorem neg32_neg32 (b : Word) : neg32 (neg32 b) = b := by
  rw [neg32, neg32, BitVec.xor_assoc, BitVec.xor_self, BitVec.xor_zero]

/-- Negation reverses the order. -/
theorem flt32_neg32 (a b : Word) : flt32 (neg32 a) (neg32 b) = flt32 b a := by
  simp [flt32, Bool.and_comm]

/-- A negation is below zero exactly where the datum is above it. -/
theorem flt32_neg32_zero (b : Word) : flt32 (neg32 b) 0 = flt32 0 b := by
  have zero : value 0#32 = 0 := rfl
  simp [flt32, zero, Bool.and_comm]

theorem flt32_asymm {a b : Word} (h : flt32 a b = true) : flt32 b a = false := by
  simp only [flt32, Bool.and_eq_true, Bool.and_eq_false_iff, decide_eq_true_eq, decide_eq_false_iff_not] at h ⊢
  omega

theorem inRange_neg32 {u : Word} (h : InRange u) : InRange (neg32 u) := by
  obtain ⟨hi, lo⟩ := h
  refine ⟨?_, (flt32_neg32 u piF).trans hi⟩
  rw [← neg32_neg32 piF, flt32_neg32, lo]

section Reduction
variable {u x : Word} (n : Nat)

theorem reduceDown_stop (h : flt32 piF u = false) : reduceDown (n + 1) u = some u := by simp [reduceDown, h]

theorem reduceDown_turn (h : flt32 piF u = true) : reduceDown (n + 1) u = reduceDown n (fsub32 u twoPiF) := by
  simp [reduceDown, h]

theorem reduceUp_stop (h : flt32 u (neg32 piF) = false) : reduceUp (n + 1) u = some u := by simp [reduceUp, h]

theorem reduceUp_turn (h : flt32 u (neg32 piF) = true) : reduceUp (n + 1) u = reduceUp n (fadd32 u twoPiF) := by
  simp [reduceUp, h]

/-- `hsin` evaluates the approximation at the argument that the two loops leave. -/
theorem hsin_of_reduce {fuel : Nat} (h : (reduceDown fuel x).bind (reduceUp fuel) = some u) :
    hsin fuel x = some (if flt32 u 0 then neg32 (bhaskara (neg32 u)) else bhaskara u) := by
  rw [hsin, h, Option.map_some]

theorem hsin_inRange (h : InRange u) :
    hsin (n + 1) u = some (if flt32 u 0 then neg32 (bhaskara (neg32 u)) else bhaskara u) :=
  hsin_of_reduce (by rw [reduceDown_stop n h.1, Option.bind_some, reduceUp_stop n h.2])

theorem hsin_nonneg (h : InRange u) (hs : flt32 u 0 = false) : hsin (n + 1) u = some (bhaskara u) := by
  rw [hsin_inRange n h, hs, if_neg Bool.false_ne_true]

/-- At the negation of a positive argument in the range, `hsin` gives the negated word. -/
theorem hsin_neg32 (h : InRange u) (hs : flt32 0 u = true) : hsin (n + 1) (neg32 u) = (hsin (n + 1) u).map neg32 := by
  rw [hsin_inRange n (inRange_neg32 h), if_pos ((flt32_neg32_zero u).trans hs), neg32_neg32,
    hsin_nonneg n h (flt32_asymm hs), Option.map_some]

/-- An argument above `PI` that one turn brings into the range. -/
theorem hsin_turn_down (h : flt32 piF x = true) (hu : InRange (fsub32 x twoPiF)) :
    hsin (n + 2) x = hsin (n + 2) (fsub32 x twoPiF) := by
  rw [hsin_inRange (n + 1) hu]
  refine hsin_of_reduce ?_
  rw [reduceDown_turn (n + 1) h, reduceDown_stop n hu.1, Option.bind_some, reduceUp_stop (n + 1) hu.2]

/-- An argument below `-PI` that one turn brings into the range. -/
theorem hsin_turn_up (h : flt32 x (neg32 piF) = true) (hx : flt32 piF x = false) (hu : InRange (fadd32 x twoPiF)) :
    hsin (n + 2) x = hsin (n + 2) (fadd32 x twoPiF) := by
  rw [hsin_inRange (n + 1) hu]
  refine hsin_of_reduce ?_
  rw [reduceDown_stop (n + 1) hx, Option.bind_some, reduceUp_turn (n + 1) h, reduceUp_stop n hu.2]

end Reduction

section Tangent
variable {p : Config.HostParams} {fuel : Nat} {x c s : Word}

theorem htan_saturated (hc : hcos fuel x = some c) (h : flt32 (abs32 c) p.tanEps = true) :
    htan p fuel x = some p.tanSat := by
  rw [htan, hc, Option.bind_some, if_pos h]

theorem htan_quotient (hs : hsin fuel x = some s) (hc : hcos fuel x = some c) (h : flt32 (abs32 c) p.tanEps = false) :
    htan p fuel x = some (fdiv32 s c) := by
  rw [htan, hc, Option.bind_some, h, if_neg Bool.false_ne_true, hs, Option.map_some]

end Tangent

/-- The word of `hsin`, with the fuel of R608's rows, at an argument that needs no reduction and no change of sign. -/
theorem hsin_eq_some {u v : Word} (hu : InRange u ∧ flt32 u 0 = false) (hv : bhaskara u = v) : hsin 3 u = some v :=
  hv ▸ hsin_nonneg 2 hu.1 hu.2

/-- The word of `hcos`, with the same fuel, where the argument moved by `HALF_PI` needs neither. -/
theorem hcos_eq_some {x v : Word} (hx : InRange (fadd32 x halfPiF) ∧ flt32 (fadd32 x halfPiF) 0 = false)
    (hv : bhaskara (fadd32 x halfPiF) = v) : hcos 3 x = some v :=
  hsin_eq_some hx hv

/-- 7.0 and -7.0 are moved by `TWO_PI`, each once, to opposite arguments in the range (R608). -/
theorem hsin_seven_turns :
    hsin 3 0x40E00000#32 = hsin 3 (fsub32 0x40E00000#32 twoPiF) ∧
    hsin 3 0xC0E00000#32 = hsin 3 (neg32 (fsub32 0x40E00000#32 twoPiF)) := by
  have opposite : fadd32 0xC0E00000#32 twoPiF = neg32 (fsub32 0x40E00000#32 twoPiF) := by decide
  refine ⟨hsin_turn_down 1 (by decide) (by decide), ?_⟩
  rw [← opposite]
  exact hsin_turn_up 1 (by decide) (by decide) (by decide)

/-- Settles O54: the rows whose argument needs no reduction are words of the approximation; the sines of negative
arguments follow by oddness, those of 7.0 and -7.0 after one turn, and the tangents from their sine and cosine. -/
theorem designerWorkedValues : Obligations.DesignerWorkedValues := by
  have sin_half : hsin 3 0x3F000000#32 = some 0x3EF58BE3#32 := hsin_eq_some (by decide) (by decide)
  have sin_one : hsin 3 0x3F800000#32 = some 0x3F57188A#32 := hsin_eq_some (by decide) (by decide)
  have sin_turned : hsin 3 (fsub32 0x40E00000#32 twoPiF) = some 0x3F27ED1A#32 := hsin_eq_some (by decide) (by decide)
  obtain ⟨seven_turns, neg_seven_turns⟩ := hsin_seven_turns
  refine ⟨hsin_eq_some (by decide) (by decide), sin_half, sin_one, hsin_eq_some (by decide) (by decide), ?neg_one,
    seven_turns.trans sin_turned, ?neg_seven, hcos_eq_some (by decide) (by decide),
    hcos_eq_some (by decide) (by decide), hcos_eq_some (by decide) (by decide), ?tan_half, ?tan_half_pi, ?tan_below_half_pi⟩
  case neg_one =>
    have odd := hsin_neg32 (u := 0x3F800000#32) 2 (by decide) (by decide)
    rw [sin_one] at odd
    exact odd
  case neg_seven =>
    rw [neg_seven_turns, hsin_neg32 2 (by decide) (by decide), sin_turned]
    rfl
  case tan_half =>
    have cos_half : hcos 3 0x3F000000#32 = some 0x3F6060D2#32 := hcos_eq_some (by decide) (by decide)
    exact (htan_quotient sin_half cos_half (by decide)).trans (by decide)
  case tan_half_pi =>
    have cos_half_pi : hcos 3 0x3FC90FDB#32 = some 0x00000000#32 := hcos_eq_some (by decide) (by decide)
    exact htan_saturated cos_half_pi (by decide)
  case tan_below_half_pi =>
    have sin_below : hsin 3 0x3FC90CB3#32 = some 0x3F800001#32 := hsin_eq_some (by decide) (by decide)
    have cos_below : hcos 3 0x3FC90CB3#32 = some 0x38CDC116#32 := hcos_eq_some (by decide) (by decide)
    exact (htan_quotient sin_below cos_below (by decide)).trans (by decide)

end Sys2Proof.Machine
end

section
/-! What a step can do to one context, said once, and what follows for its control and coefficient registers: `NSEC` stays
legal (R122), and only the host's own write changes a coefficient (R113, R114). -/

namespace Sys2Proof.Machine

/-! ### The ways a step can change a context -/

/-- An update of one context leaves another context, and one that does not exist, and otherwise applies its function. -/
theorem context_updContext_cases (s : State) (d c : Nat) (f : Context → Context) :
    (s.updContext d f).context c = s.context c ∨ (c = d ∧ (s.updContext d f).context c = f (s.context c)) := by
  by_cases hd : c = d
  · subst hd
    rcases Nat.lt_or_ge c s.numContexts with hc | hc
    · exact .inr ⟨rfl, context_updContext_same s c f hc⟩
    · exact .inl (by rw [updContext_out_of_range s c f hc])
  · exact .inl (context_updContext_ne s d c f hd)

/-- Everything a step that answers `t` can have done to context `c`. -/
inductive ContextCase (s t : State) (c : Nat) : Prop where
  /-- nothing -/
  | same (ht : t.context c = s.context c)
  /-- the release of reset (R800) -/
  | released (h : ReleasesReset s) (ht : t.context c = Context.reset)
  /-- the write of its `CTRL` (R409) -/
  | ctrl (off : Offset) (v : Word) (rest : List PortEvent) (h : TakesWrite s off v rest)
      (ho : off.toNat = contextBase c) (ht : t.context c = (s.context c).writeCtrl v)
  /-- the write of its `RG` (R410) -/
  | rg (off : Offset) (v : Word) (rest : List PortEvent) (h : TakesWrite s off v rest)
      (ho : off.toNat = contextBase c + 0x08) (ht : t.context c = { s.context c with rg := v })
  /-- the write of its `SG` (R410) -/
  | sg (off : Offset) (v : Word) (rest : List PortEvent) (h : TakesWrite s off v rest)
      (ho : off.toNat = contextBase c + 0x0C) (ht : t.context c = { s.context c with sg := v })
  /-- the write of one of its section registers (R410) -/
  | sec (off : Offset) (v : Word) (rest : List PortEvent) (i : Fin 2) (r : SecReg) (h : TakesWrite s off v rest)
      (ho : off.toNat = sectionBase c i + r.offset)
      (ht : t.context c = (s.context c).setSec i (((s.context c).sec i).set r v))
  /-- a command on it (R430, R440, R450) -/
  | command (i : Instr) (d : CtxIndex) (f : Context → Context) (he : Instr.effect s i = some (d, f))
      (ht : t.context c = f (s.context c))

/-- A legal write to a register other than `CMD` changes at most the context of that register. -/
theorem contextCase_writeTarget {s : State} {off : Offset} {v : Word} {rest : List PortEvent}
    (h : TakesWrite s off v rest) (c : Nat) :
    ContextCase s ((s.withPort rest).writeTarget (locate s.numContexts off) v) c := by
  have place := @locate_offset s.numContexts off
  cases hl : locate s.numContexts off with
  | id | param | status | cmd | xin | reserved | out => exact .same rfl
  | ctrl d =>
    rcases context_updContext_cases (s.withPort rest) d c (fun k => k.writeCtrl v) with e | ⟨rfl, e⟩
    · exact .same e
    · exact .ctrl off v rest h (by simpa [hl, Target.offset, eq_comm] using place) e
  | rg d =>
    rcases context_updContext_cases (s.withPort rest) d c (fun k => { k with rg := v }) with e | ⟨rfl, e⟩
    · exact .same e
    · exact .rg off v rest h (by simpa [hl, Target.offset, eq_comm] using place) e
  | sg d =>
    rcases context_updContext_cases (s.withPort rest) d c (fun k => { k with sg := v }) with e | ⟨rfl, e⟩
    · exact .same e
    · exact .sg off v rest h (by simpa [hl, Target.offset, eq_comm] using place) e
  | sec d i r =>
    rcases context_updContext_cases (s.withPort rest) d c (fun k => k.setSec i ((k.sec i).set r v)) with e | ⟨rfl, e⟩
    · exact .same e
    · exact .sec off v rest i r h (by simpa [hl, Target.offset, eq_comm] using place) e

/-- The inversion of a step, seen from one context. -/
theorem context_step_cases {s t : State} (h : step s = .next t) (c : Nat) : ContextCase s t c := by
  cases step_cases h with
  | idle _ ht => subst ht; exact .same rfl
  | reset b rest hp ht =>
    subst ht
    by_cases hrel : s.resetAsserted = true ∧ b = false
    · obtain ⟨hr, rfl⟩ := hrel
      refine .released ⟨hr, rest, hp⟩ ?_
      rw [State.driveReset, if_neg Bool.false_ne_true, if_pos (by exact hr)]
      exact context_resetRegisters (s.withPort rest) c
    · exact .same (context_driveReset (s := s.withPort rest) hrel c)
  | read _ _ _ _ _ ht => subst ht; exact .same rfl
  | badRead _ _ _ _ _ _ ht => subst ht; exact .same rfl
  | badWrite _ _ _ _ _ _ _ ht => subst ht; exact .same rfl
  | write off v rest hp hr h4 _ ht => subst ht; exact contextCase_writeTarget ⟨hr, h4, hp⟩ c
  | nop _ _ _ _ _ ht => subst ht; exact .same rfl
  | command v rest i d f _ _ _ he _ ht =>
    subst ht
    rcases context_updContext_cases (s.withPort rest) d.toNat c f with e | ⟨-, e⟩
    · exact .same e
    · exact .command i d f he e
  | illegal _ _ _ _ _ _ ht => subst ht; exact .same rfl

/-! ### The invariant -/

/-- No step changes the number of contexts (R10). -/
theorem step_numContexts {s t : State} (h : step s = .next t) : t.numContexts = s.numContexts := by
  cases step_cases h with
  | idle _ ht => rw [ht]
  | reset b rest _ ht => rw [ht, driveReset_numContexts, withPort_numContexts]
  | read _ _ _ _ _ ht => rw [ht]; rfl
  | badRead _ _ _ _ _ _ ht => rw [ht]; rfl
  | badWrite _ _ _ _ _ _ _ ht => rw [ht]; rfl
  | write _ _ _ _ _ _ _ ht => rw [ht, numContexts_writeTarget, withPort_numContexts]
  | nop _ _ _ _ _ ht => rw [ht, withPort_numContexts]
  | command _ _ _ _ _ _ _ _ _ _ ht => rw [ht, updContext_numContexts, withPort_numContexts]
  | illegal _ _ _ _ _ _ ht => rw [ht]; rfl

/-- The contexts of a state are those of its indices below `NUM_CONTEXTS`. -/
theorem forall_mem_ctx_iff (s : State) (P : Context → Prop) :
    (∀ k ∈ s.ctx, P k) ↔ ∀ c, c < s.numContexts → P (s.context c) := by
  refine ⟨fun h c hc => h _ (context_mem s c hc), fun h k hk => ?_⟩
  obtain ⟨c, hc, rfl⟩ := List.mem_iff_getElem.mp hk
  simpa [context_eq, hc] using h c hc

/-- A step keeps the `NSEC` of every context legal: the write of `CTRL` clamps it, and nothing else but reset moves it
(R109, R122). -/
theorem step_keeps_wf {s t : State} (h : step s = .next t) {c : Nat} (hc : (s.context c).Wf) : (t.context c).Wf := by
  cases context_step_cases h c with
  | same ht => rwa [ht]
  | released _ ht => rw [ht]; exact Nat.zero_le _
  | ctrl _ v _ _ _ ht => rw [ht]; exact clampNsec_le _
  | rg _ _ _ _ _ ht => rw [ht]; exact hc
  | sg _ _ _ _ _ ht => rw [ht]; exact hc
  | sec _ _ _ _ _ _ _ ht => rw [ht, Context.Wf, setSec_nsec]; exact hc
  | command _ _ _ he ht =>
    obtain ⟨-, hn, -⟩ := effect_frame he (s.context c)
    rw [ht, Context.Wf, hn]
    exact hc

/-- Settles O4: the number of contexts is kept, and so is each context's legal `NSEC`. -/
theorem everyStepKeepsTheInvariant : Obligations.EveryStepKeepsTheInvariant := by
  rintro s t ⟨lo, hi, wf⟩ h
  have hn : t.numContexts = s.numContexts := step_numContexts h
  refine ⟨⟨hn ▸ lo, hn ▸ hi, (forall_mem_ctx_iff t _).mpr fun c hc => ?_⟩, hn⟩
  exact step_keeps_wf h ((forall_mem_ctx_iff s _).mp wf c (hn ▸ hc))

/-- Settles O3: a context after reset uses no section. -/
theorem resetStateMeetsTheInvariant : Obligations.ResetStateMeetsTheInvariant := by
  have inv : ∀ n, 1 ≤ n → n ≤ 15 → (State.resetWith n).Inv := by
    intro n lo hi
    rw [State.Inv, resetWith_numContexts]
    refine ⟨lo, hi, fun k hk => ?_⟩
    rw [List.eq_of_mem_replicate hk]
    exact Nat.zero_le _
  exact ⟨inv, inv Config.numContexts (by decide) (by decide)⟩

/-! ### The coefficients -/

/-- Settles O15: of the ways a step can change a context, only the write of the register itself moves it. -/
theorem coefficientsChangeOnlyByTheirOwnWrite : Obligations.CoefficientsChangeOnlyByTheirOwnWrite := by
  intro s t c h hrel
  cases context_step_cases h c with
  | same ht => simp [ht]
  | released hr => exact absurd hr hrel
  | ctrl off v rest hw ho ht => exact ⟨by simp [ht], by simp [ht], by simp [ht], fun _ => ⟨off, v, rest, hw, ho⟩⟩
  | rg off v rest hw ho ht =>
    have hsec : ∀ i, (t.context c).sec i = (s.context c).sec i := fun i => by rw [ht]; rfl
    exact ⟨by simp [hsec], fun _ => ⟨off, v, rest, hw, ho, by rw [ht]⟩, by simp [ht], by simp [ht]⟩
  | sg off v rest hw ho ht =>
    have hsec : ∀ i, (t.context c).sec i = (s.context c).sec i := fun i => by rw [ht]; rfl
    exact ⟨by simp [hsec], by simp [ht], fun _ => ⟨off, v, rest, hw, ho, by rw [ht]⟩, by simp [ht]⟩
  | sec off v rest i r hw ho ht =>
    refine ⟨fun j q _ hne => ?_, by simp [ht], by simp [ht], by simp [ht]⟩
    by_cases hj : j = i
    · subst hj
      rw [ht, sec_setSec_same] at hne ⊢
      by_cases hq : q = r
      · subst hq; exact ⟨off, v, rest, hw, ho, get_set_same ..⟩
      · exact absurd (get_set_ne _ _ _ _ hq) hne
    · exact absurd (by rw [ht, sec_setSec_ne _ _ _ _ hj]) hne
  | command i d f he ht =>
    obtain ⟨hk, hn, hrg, hsg, hcoef⟩ := effect_frame he (s.context c)
    exact ⟨fun i r hr hne => absurd (by rw [ht, hcoef i r hr]) hne, by simp [ht, hrg], by simp [ht, hsg],
      by simp [ht, hk, hn]⟩

end Sys2Proof.Machine
end

section
/-! The step itself: when it answers a next state (R400), the release of reset (R800), the command it runs (R407), and what
it does to the two error bits (R105, R701, R703). -/

namespace Sys2Proof.Machine

/-! ### When a step answers -/

/-- A word written to `CMD` always completes. -/
theorem runCommand_continues (s : State) (v : Word) : ∃ t, runCommand s v = .next t := by
  rcases runCommand_cases s v with ⟨-, e⟩ | ⟨_, _, _, -, -, -, e⟩ | ⟨_, -, e⟩
  · exact ⟨_, e⟩
  · exact ⟨_, e⟩
  · exact ⟨_, e⟩

/-- A register write always completes (R400). -/
theorem writeReg_continues (s : State) (off : Offset) (v : Word) : ∃ t, writeReg s off v = .next t := by
  by_cases hc : locate s.numContexts off = .cmd
  · rw [writeReg_cmd hc]; exact runCommand_continues s v
  · exact ⟨_, writeReg_plain hc⟩

/-- An access that is taken always completes (R400). -/
theorem takeAccess_continues (s : State) (a : Access) : ∃ t, takeAccess s a = .next t := by
  cases a with
  | read off n => exact ⟨_, rfl⟩
  | write off n v =>
    cases hl : legalAccess off n with
    | false => exact ⟨_, takeAccess_write_illegal hl⟩
    | true => rw [takeAccess_write_legal hl]; exact writeReg_continues s off v

/-- A step answers a next state but for an access presented during reset. -/
theorem step_continues {s : State} (h : ¬ (s.resetAsserted = true ∧ ∃ a rest, s.port = .access a :: rest)) :
    ∃ t, step s = .next t := by
  cases hp : s.port with
  | nil => exact ⟨_, step_idle hp⟩
  | cons e rest =>
    cases e with
    | reset b => exact ⟨_, step_reset hp⟩
    | access a =>
      have hr : s.resetAsserted = false := Bool.eq_false_iff.mpr fun hr => h ⟨hr, a, rest, hp⟩
      rw [step_access hp hr]
      exact takeAccess_continues _ a

/-- Settles O9: the one refusal, and an empty type of faults. -/
theorem stepNeverFaults : Obligations.StepNeverFaults := by
  intro s
  refine ⟨⟨?_, step_continues⟩, fun hr ⟨a, rest, hp⟩ => step_access_in_reset hp hr, (nomatch ·), step_idle⟩
  rintro ⟨t, ht⟩ ⟨hr, a, rest, hp⟩
  rw [step_access_in_reset hp hr] at ht
  cases ht

/-! ### The release of reset, and a command -/

/-- The release of an asserted reset (R800). -/
theorem step_release {s : State} {rest : List PortEvent} (hr : s.resetAsserted = true)
    (hp : s.port = .reset false :: rest) :
    step s = .next { (s.withPort rest).resetRegisters with resetAsserted := false } := by
  rw [step_reset hp, State.driveReset, if_neg Bool.false_ne_true, if_pos (by exact hr)]

/-- Settles O2: the state after the release has the registers of `resetRegisters`, each of whose contexts is the context
after reset. -/
theorem releasingResetRestoresEveryRegister : Obligations.ReleasingResetRestoresEveryRegister := by
  intro s rest hr hp
  refine ⟨_, step_release hr hp, rfl, rfl, rfl, resetRegisters_numContexts (s.withPort rest), rfl, rfl, rfl,
    fun c _ => ?_⟩
  have hc : ({ (s.withPort rest).resetRegisters with resetAsserted := false } : State).context c = Context.reset :=
    context_resetRegisters (s.withPort rest) c
  rw [hc]
  exact ⟨rfl, rfl, rfl, rfl, rfl, fun i r => by rw [reset_sec]; exact section_reset_get r⟩

/-- Settles O5: the write to `CMD` runs what the decoder answers. -/
theorem stepRunsTheDecodedCommand : Obligations.StepRunsTheDecodedCommand :=
  fun _ _ _ _ h hd => step_decoded hd h

/-! ### The error bits -/

/-- Everything a step that answers `t` can have done to the two bits of `STATUS`. -/
inductive StatusCase (s t : State) : Prop where
  /-- nothing -/
  | same (hi : t.illcmd = s.illcmd) (ha : t.accerr = s.accerr)
  /-- the release of reset (R800) -/
  | released (h : ReleasesReset s) (hi : t.illcmd = false) (ha : t.accerr = false)
  /-- the write of `STATUS` (R406) -/
  | written (v : Word) (rest : List PortEvent) (h : TakesWrite s 0x008#12 v rest)
      (hi : t.illcmd = (s.illcmd && !v.getLsbD 0)) (ha : t.accerr = (s.accerr && !v.getLsbD 1))
  /-- a word that is no command (R470) -/
  | illegalWord (v : Word) (rest : List PortEvent) (e : Illegal) (h : TakesWrite s 0x00C#12 v rest)
      (hd : decode s.numContexts v = .error e) (hi : t.illcmd = true) (ha : t.accerr = s.accerr)
  /-- an illegal access (R402) -/
  | illegalAccess (a : Access) (rest : List PortEvent) (off : Offset) (n : Width) (h : s.port = .access a :: rest)
      (hf : a = .read off n ∨ ∃ v, a = .write off n v) (hl : n ≠ .word ∨ off.toNat % 4 ≠ 0)
      (hi : t.illcmd = s.illcmd) (ha : t.accerr = true)

/-- A write of any register but `STATUS` leaves the two bits. -/
theorem status_writeTarget {t : Target} (ht : t ≠ .status) (s : State) (v : Word) :
    (s.writeTarget t v).illcmd = s.illcmd ∧ (s.writeTarget t v).accerr = s.accerr := by
  cases t with
  | status => exact absurd rfl ht
  | id | param | cmd | xin | reserved | ctrl | out | rg | sg | sec => exact ⟨rfl, rfl⟩

/-- The inversion of a step, seen from `STATUS`. -/
theorem status_step_cases {s t : State} (h : step s = .next t) : StatusCase s t := by
  cases step_cases h with
  | idle _ ht => subst ht; exact .same rfl rfl
  | reset b rest hp ht =>
    cases b with
    | true => subst ht; exact .same rfl rfl
    | false =>
      cases hr : s.resetAsserted with
      | true =>
        rw [step_release hr hp] at h
        cases h
        exact .released ⟨hr, rest, hp⟩ rfl rfl
      | false =>
        rw [State.driveReset, if_neg Bool.false_ne_true, withPort_resetAsserted, hr, if_neg Bool.false_ne_true] at ht
        subst ht
        exact .same rfl rfl
  | read _ _ _ _ _ ht => subst ht; exact .same rfl rfl
  | badRead off n rest hp _ hl ht =>
    subst ht
    exact .illegalAccess _ rest off n hp (.inl rfl) ((legalAccess_eq_false_iff off n).mp hl) rfl rfl
  | badWrite off n v rest hp _ hl ht =>
    subst ht
    exact .illegalAccess _ rest off n hp (.inr ⟨v, rfl⟩) ((legalAccess_eq_false_iff off n).mp hl) rfl rfl
  | write off v rest hp hr h4 _ ht =>
    subst ht
    by_cases hs : locate s.numContexts off = .status
    · obtain rfl := locate_status hs
      exact .written v rest ⟨hr, rfl, hp⟩ rfl rfl
    · obtain ⟨hi, ha⟩ := status_writeTarget hs (s.withPort rest) v
      exact .same hi ha
  | nop _ _ _ _ _ ht => subst ht; exact .same rfl rfl
  | command _ _ _ _ _ _ _ _ _ _ ht => subst ht; exact .same rfl rfl
  | illegal v rest e hp hr hd ht => subst ht; exact .illegalWord v rest e ⟨hr, rfl, hp⟩ hd rfl rfl

/-- Settles O10: no case of a step raises both bits, and an illegal write sets `ACCERR` alone. -/
theorem noAccessSetsBothErrorBits : Obligations.NoAccessSetsBothErrorBits := by
  intro s t h
  constructor
  · rintro ⟨hi, ha, hi', ha'⟩
    cases status_step_cases h with
    | same ei _ => simp [ei, hi] at hi'
    | released _ ei _ => simp [ei] at hi'
    | written _ _ _ ei _ => simp [ei, hi] at hi'
    | illegalWord _ _ _ _ _ _ ea => simp [ea, ha] at ha'
    | illegalAccess _ _ _ _ _ _ _ ei _ => simp [ei, hi] at hi'
  · intro off n v rest hp hill
    cases hr : s.resetAsserted with
    | true => rw [step_access_in_reset hp hr] at h; cases h
    | false =>
      obtain ⟨-, onWrite⟩ := illegalAccessSetsOnlyAccerr s off n v rest hr hill
      rw [onWrite hp] at h
      cases h
      rfl

/-- Settles O11: of the ways a step can move a bit, only the release and the write of `STATUS` clear it. -/
theorem errorBitsAreSticky : Obligations.ErrorBitsAreSticky := by
  intro s t h
  cases status_step_cases h with
  | same ei ea => simp +contextual [ei, ea]
  | released hrel _ _ => exact ⟨fun _ _ => .inl hrel, fun _ _ => .inl hrel⟩
  | written v rest hw ei ea =>
    refine ⟨fun hi hi' => .inr ⟨v, rest, hw, ?_⟩, fun ha ha' => .inr ⟨v, rest, hw, ?_⟩⟩
    · simpa [ei, hi] using hi'
    · simpa [ea, ha] using ha'
  | illegalWord _ _ _ _ _ ei ea => simp +contextual [ei, ea]
  | illegalAccess _ _ _ _ _ _ _ ei ea => simp +contextual [ei, ea]

/-- Settles O12: of the ways a step can move a bit, an illegal word alone raises `ILLCMD`, an illegal access alone
`ACCERR`. -/
theorem errorBitsRiseOnlyFromTheirCause : Obligations.ErrorBitsRiseOnlyFromTheirCause := by
  intro s t h
  cases status_step_cases h with
  | same ei ea => simp +contextual [ei, ea]
  | released _ ei ea => simp [ei, ea]
  | written _ _ _ ei ea => simp +contextual [ei, ea]
  | illegalWord v rest e hw hd _ ea => exact ⟨fun _ _ => ⟨v, rest, e, hw, hd⟩, by simp +contextual [ea]⟩
  | illegalAccess a rest off n hp hf hl ei _ =>
    exact ⟨by simp +contextual [ei], fun _ _ => ⟨a, rest, hp, off, n, hf, hl⟩⟩

end Sys2Proof.Machine
end

section
/-! Reads and writes of the window: a read moves no register (R207), no register stands at two offsets (R108, R121), and a
write moves one word (R404). -/

namespace Sys2Proof.Machine

/-- Settles O17: what an offset names gives the offset back. -/
theorem noTwoOffsetsNameOneRegister : Obligations.NoTwoOffsetsNameOneRegister := by
  intro nctx a b hres hab
  have ha := locate_offset hres
  rw [hab, locate_offset (hab ▸ hres)] at ha
  exact BitVec.eq_of_toNat_eq (Option.some.inj ha).symm

/-- Settles O13: the step of a read adds to the read data alone. -/
theorem readsHaveNoSideEffect : Obligations.ReadsHaveNoSideEffect := by
  rintro s t off rest ⟨hr, h4, hp⟩ h
  rw [step_read hr h4 hp] at h
  cases h
  have same : ∀ o, State.readReg { s.withPort rest with reads := s.readReg off :: s.reads } o = s.readReg o :=
    readReg_congr rfl rfl rfl rfl
  refine ⟨rfl, rfl, rfl, rfl, fun a => ?_, fun rest' ⟨hr', h4', hp'⟩ => ?_⟩
  · rw [State.windowByte, State.windowByte, same]
  · rw [step_read hr' h4' hp', same]

/-- Settles O22: another word of the window is another register, or a reserved offset. -/
theorem registerWriteLeavesEveryOtherOffset : Obligations.RegisterWriteLeavesEveryOtherOffset := by
  intro s t off v rest hw hcmd h a ha
  rw [step_write_located hw rfl fun hl => hcmd (locate_cmd hl)] at h
  cases h
  rw [← withPort_windowByte s rest a]
  refine windowByte_eq (numContexts_writeTarget _ _ _) ?_
  by_cases hres : locate s.numContexts off = .reserved
  · rw [hres]; rfl
  · refine readTarget_writeTarget_other fun hsame => ha ?_
    have hoff : off = a &&& 0xFFC#12 := noTwoOffsetsNameOneRegister s.numContexts _ _ hres hsame.symm
    rw [hoff, alignedOffset_toNat]
    rfl

end Sys2Proof.Machine
end

section
/-! The encoder against the decoder (R303, R305), and the assembler (R307). -/

namespace Sys2Proof

/-- Settles O23: the decoder reads back the fields that the encoder packs, command by command. -/
theorem decodeOfEncodeIsTheInstruction : Obligations.DecodeOfEncodeIsTheInstruction := by
  intro nctx i wf
  cases i with
  | nop => rw [encode_nop, decode_pack]; rfl
  | evalu c n =>
    have hc : c.toNat < nctx := by simpa [Instr.wellFormed] using wf
    simp [encode, decode_pack, hc]
  | evalx c =>
    have hc : c.toNat < nctx := by simpa [Instr.wellFormed] using wf
    simp [encode, decode_pack, hc]
  | clear c =>
    have hc : c.toNat < nctx := by simpa [Instr.wellFormed] using wf
    simp [encode, decode_pack, hc]

/-- A test before an answer answers when it succeeds and the answer does. -/
theorem test_answers_iff (p : Prop) [Decidable p] (r : Except Illegal Instr) (x : Illegal) (i : Instr) :
    (if p then r else .error x) = .ok i ↔ p ∧ r = .ok i := by
  by_cases h : p <;> simp [h]

/-- A packed word that decodes is the encoding of what it decodes to: `OP` selects the row, and each row's answer fixes the
fields it does not hand on. -/
theorem encode_of_decode_pack {nctx : Nat} {op : BitVec 4} {c : CtxIndex} {rsv : BitVec 8} {imm : BitVec 16} {i : Instr}
    (h : decode nctx (packCommand op c rsv imm) = .ok i) : encode i = packCommand op c rsv imm := by
  rw [decode_pack] at h
  by_cases h0 : op = 0x0#4
  · rw [if_pos h0, test_answers_iff] at h
    obtain ⟨⟨rfl, rfl, rfl⟩, hi⟩ := h
    cases hi
    rw [h0, encode_nop]
  by_cases h1 : op = 0x1#4
  · rw [if_neg h0, if_pos h1, test_answers_iff, test_answers_iff] at h
    obtain ⟨rfl, -, hi⟩ := h
    cases hi
    rw [h1, encode]
  by_cases h2 : op = 0x2#4
  · rw [if_neg h0, if_neg h1, if_pos h2, test_answers_iff, test_answers_iff] at h
    obtain ⟨⟨rfl, rfl⟩, -, hi⟩ := h
    cases hi
    rw [h2, encode]
  rw [if_neg h0, if_neg h1, if_neg h2, test_answers_iff, test_answers_iff, test_answers_iff] at h
  obtain ⟨h3, ⟨rfl, rfl⟩, -, hi⟩ := h
  cases hi
  rw [h3, encode]

/-- Settles O24: a word is its fields packed, so `encode_of_decode_pack` is about every word. -/
theorem decodedWordsAreEncodings : Obligations.DecodedWordsAreEncodings := by
  intro nctx w i h
  refine ⟨?_, decode_wellFormed h⟩
  rw [← packCommand_fields w] at h
  exact (encode_of_decode_pack h).trans (packCommand_fields w)

/-- Settles O27: each word is the encoding of its command, or names a context at or above `NUM_CONTEXTS`. -/
theorem sampleWordsDecodeToTheirCommand : Obligations.SampleWordsDecodeToTheirCommand := by
  have back := decodeOfEncodeIsTheInstruction
  exact ⟨back 4 .nop rfl, back 4 (.evalu 3 7) rfl, back 4 (.evalu 0 65535) rfl, back 4 (.evalx 1) rfl,
    back 4 (.clear 2) rfl, back 15 (.evalu 4 0) rfl, decode_pack 4 0x1#4 4#4 0#8 0#16, decode_pack 15 0x1#4 15#4 0#8 0#16⟩

/-! ### The assembler -/

/-- A command word as a number, from operands in range (R303). -/
theorem packCommand_ofNat (op : BitVec 4) {c n w : Nat} (hc : c < 16) (hn : n ≤ 65535)
    (hw : op.toNat * 2 ^ 28 + c * 2 ^ 24 + n = w) :
    packCommand op (BitVec.ofNat 4 c) 0#8 (BitVec.ofNat 16 n) = BitVec.ofNat 32 w := by
  subst hw
  have hop := op.isLt
  apply BitVec.eq_of_toNat_eq
  rw [packCommand_toNat]
  simp only [BitVec.toNat_ofNat]
  omega

/-- What the assembler emits is the encoding of a command that is well formed for the block. -/
theorem assemble_emits_wellFormed {nctx : Nat} {l : AsmLine} {w : Word} (h : assemble nctx l = some w) :
    ∃ i : Instr, i.wellFormed nctx = true ∧ encode i = w := by
  cases l with
  | nop => exact ⟨.nop, rfl, Option.some.inj h⟩
  | evalu c n =>
    obtain ⟨⟨hc, hc16, -⟩, hw⟩ := Option.ite_none_right_eq_some.mp h
    exact ⟨_, by simpa [Instr.wellFormed, Nat.mod_eq_of_lt hc16] using hc, Option.some.inj hw⟩
  | evalx c =>
    obtain ⟨⟨hc, hc16⟩, hw⟩ := Option.ite_none_right_eq_some.mp h
    exact ⟨_, by simpa [Instr.wellFormed, Nat.mod_eq_of_lt hc16] using hc, Option.some.inj hw⟩
  | clear c =>
    obtain ⟨⟨hc, hc16⟩, hw⟩ := Option.ite_none_right_eq_some.mp h
    exact ⟨_, by simpa [Instr.wellFormed, Nat.mod_eq_of_lt hc16] using hc, Option.some.inj hw⟩

/-- Settles O28: what is emitted is the word of a well-formed command, which decodes (O23); below 16 contexts the range of
the field refuses nothing more. -/
theorem assemblerNeverEmitsAnIllegalWord : Obligations.AssemblerNeverEmitsAnIllegalWord := by
  intro nctx hn
  refine ⟨fun l w h => ?_, fun c n => ?_, fun c n hc hn' => ?_, fun c => ⟨?_, ?_⟩, fun c hc => ⟨?_, ?_⟩, rfl⟩
  · obtain ⟨i, wf, rfl⟩ := assemble_emits_wellFormed h
    exact ⟨i, decodeOfEncodeIsTheInstruction nctx i wf⟩
  · simp only [assemble, ite_eq_right_iff, reduceCtorEq, imp_false]
    omega
  · rw [assemble, if_pos (by omega)]
    exact congrArg some (packCommand_ofNat 0x1#4 (by omega) hn' (by norm_num))
  · simp only [assemble, ite_eq_right_iff, reduceCtorEq, imp_false]
    omega
  · simp only [assemble, ite_eq_right_iff, reduceCtorEq, imp_false]
    omega
  · rw [assemble, if_pos (by omega)]
    exact congrArg some (packCommand_ofNat 0x2#4 (n := 0) (by omega) (by omega) (by norm_num))
  · rw [assemble, if_pos (by omega)]
    exact congrArg some (packCommand_ofNat 0x3#4 (n := 0) (by omega) (by omega) (by norm_num))

end Sys2Proof
end

section
/-! The commands on one context (R415): the frame of an evaluation and of `CLEAR`, what they read, and the four kernels
written out. -/

namespace Sys2Proof.Machine

/-! ### The frame of a command -/

/-- An update of one context leaves everything outside the contexts (R108). -/
theorem sameGlobals_updContext (s : State) (c : Nat) (f : Context → Context) : SameGlobals s (s.updContext c f) :=
  ⟨rfl, rfl, rfl, rfl, rfl, rfl, updContext_numContexts s c f⟩

/-- A command on a context that exists is its effect on that context. -/
theorem exec_effect {s : State} {i : Instr} {c : CtxIndex} {f : Context → Context}
    (he : Instr.effect s i = some (c, f)) (hc : c.toNat < s.numContexts) :
    exec i s = .next (s.updContext c.toNat f) := by
  cases i with
  | nop => cases he
  | evalu d n => cases he; exact onContext_legal _ _ _ hc
  | evalx d => cases he; exact onContext_legal _ _ _ hc
  | clear d => cases he; exact onContext_legal _ _ _ hc

/-- The effect of a command depends on nothing of the block but `XIN`. -/
theorem effect_congr {s t : State} (hx : s.xin = t.xin) (i : Instr) : Instr.effect s i = Instr.effect t i := by
  cases i with
  | evalx c => simp only [Instr.effect, hx]
  | nop | evalu | clear => rfl

/-- A command that changes a context changes no byte of the window outside `OUT` and the section registers it changes. -/
theorem windowByte_effect {s : State} {i : Instr} {c : CtxIndex} {f : Context → Context}
    (he : Instr.effect s i = some (c, f)) (hc : c.toNat < s.numContexts) {a : Offset}
    (hout : wordOffsetOf a ≠ contextBase c.toNat + 0x04)
    (hsec : ∀ i r, wordOffsetOf a = sectionBase c.toNat i + SecReg.offset r →
      ((f (s.context c.toNat)).sec i).get r = ((s.context c.toNat).sec i).get r) :
    (s.updContext c.toNat f).windowByte a = s.windowByte a := by
  refine windowByte_updContext hc (fun k => ?_) hout hsec
  obtain ⟨hk, hn, hrg, hsg, -⟩ := effect_frame he k
  exact ⟨by rw [Context.ctrlWord, hk, hn, Context.ctrlWord], hrg, hsg⟩

/-- A section run keeps every register that its kind does not write (R110). -/
theorem runSection_unwritten (kind : Kind) (r s : Word) (k : Section) (v : Word) (q : SecReg)
    (h : writtenDelay kind q = false) : (runSection kind r s k v).1.get q = k.get q := by
  cases q with
  | a | d1 | d2 | d3 | d4 => exact runSection_coefficient kind r s k v _ rfl
  | w0 | w1 | w2 => cases h
  | w3 => exact (runSection_two_pole_high kind r s k v (twoPole_iff.mp (by simpa [writtenDelay] using h))).1
  | w4 => exact (runSection_two_pole_high kind r s k v (twoPole_iff.mp (by simpa [writtenDelay] using h))).2

/-- An evaluation keeps every register but the delay registers that the kind writes in the used slots. -/
theorem evaluate_unwritten (k : Context) (x : Word) (i : Fin 2) (q : SecReg)
    (h : i.val < k.nsec.toNat → writtenDelay k.kind q = false) :
    ((k.evaluate x).sec i).get q = (k.sec i).get q := by
  by_cases hi : i.val < k.nsec.toNat
  · rw [evaluate_used k x i hi]
    exact runSection_unwritten _ _ _ _ _ q (h hi)
  · rw [evaluate_unused k x i (Nat.le_of_not_lt hi)]

/-- Settles O38: both commands are one evaluation of the context, which keeps what `evaluate_unwritten` says. -/
theorem evaluationFrame : Obligations.EvaluationFrame := by
  intro s t c n hc h
  obtain ⟨i, x, he, hx⟩ : ∃ i x, Instr.effect s i = some (c, fun k => k.evaluate x) ∧ exec i s = .next t := by
    rcases h with h | h
    · exact ⟨_, _, rfl, h⟩
    · exact ⟨_, _, rfl, h⟩
  rw [exec_effect he hc] at hx
  cases hx
  have hk := context_updContext_same s c.toNat (fun k => k.evaluate x) hc
  refine ⟨sameGlobals_updContext .., fun d hd => context_updContext_ne _ _ _ _ hd, ?_, ?_, ?_, ?_, ?_, ?_⟩
  · rw [hk, evaluate_kind]
  · rw [hk, evaluate_nsec]
  · rw [hk, evaluate_rg]
  · rw [hk, evaluate_sg]
  · intro i r hr
    rw [hk]
    exact evaluate_unwritten _ x i r hr
  · intro a hout hsec
    refine windowByte_effect he hc hout fun i r ha => evaluate_unwritten _ x i r fun hi => ?_
    exact Bool.eq_false_iff.mpr fun hw => hsec i r hi hw ha

/-- Settles O39: `CLEAR` keeps the coefficient registers of both sections. -/
theorem clearFrame : Obligations.ClearFrame := by
  intro s t c hc h
  have he : Instr.effect s (.clear c) = some (c, Context.clear) := rfl
  rw [exec_effect he hc] at h
  cases h
  refine ⟨sameGlobals_updContext .., fun d hd => context_updContext_ne _ _ _ _ hd, fun a hout hsec => ?_⟩
  refine windowByte_effect he hc hout fun i r ha => ?_
  rw [clear_sec, clearDelays_coefficient]
  exact Bool.eq_false_iff.mpr fun hd => hsec i r hd ha

/-- Settles O36: `CLEAR` is the update `Context.clear`. -/
theorem clearZeroesTheDelayLine : Obligations.ClearZeroesTheDelayLine := by
  intro s c hc
  have he : Instr.effect s (.clear c) = some (c, Context.clear) := rfl
  have hk := context_updContext_same s c.toNat Context.clear hc
  refine ⟨_, exec_effect he hc, sameGlobals_updContext .., ?_⟩
  rw [hk]
  refine ⟨rfl, fun i => ?_, rfl, rfl, rfl, rfl, fun d hd => context_updContext_ne _ _ _ _ hd⟩
  rw [clear_sec]
  exact ⟨rfl, rfl, rfl, rfl, rfl, rfl⟩

/-- Settles O40: the effect of the command is one function, applied to the one context. -/
theorem commandsReadOnlyTheirOwnContext : Obligations.CommandsReadOnlyTheirOwnContext := by
  intro s t s' t' c n i hi hn hc hx hk hs ht
  obtain ⟨f, he⟩ : ∃ f, Instr.effect s i = some (c, f) := by
    rcases hi with rfl | rfl | rfl
    · exact ⟨_, rfl⟩
    · exact ⟨_, rfl⟩
    · exact ⟨_, rfl⟩
  rw [exec_effect he hc] at hs
  rw [exec_effect (effect_congr hx i ▸ he) (hn ▸ hc)] at ht
  cases hs
  cases ht
  refine ⟨?_, fun d hd => context_updContext_ne _ _ _ _ hd, fun d hd => context_updContext_ne _ _ _ _ hd⟩
  rw [context_updContext_same _ _ _ hc, context_updContext_same _ _ _ (hn ▸ hc), hk]

/-- Settles O37: each of the three commands is `onContext` on a context that does not exist. -/
theorem commandsOnMissingContextsAreIllegal : Obligations.CommandsOnMissingContextsAreIllegal :=
  fun s c _ hc => ⟨onContext_illegal s c _ hc, onContext_illegal s c _ hc, onContext_illegal s c _ hc⟩

/-! ### What an evaluation reads -/

/-- Settles O41: no kernel reads the old `W[i][0]`, so the slots run alike; an unused slot keeps its own. -/
theorem oldW0IsNeverRead : Obligations.OldW0IsNeverRead := by
  intro k x a0 a1 l
  have run : ∀ i v, l.runSlot i v = k.runSlot i v := by
    intro i v
    match i with
    | 0 => exact runSection_old_w0 ..
    | 1 => exact runSection_old_w0 ..
  refine ⟨evaluate_out_congr (fun i v => congrArg Prod.snd (run i v)) rfl x, fun i r hr => ?_, fun i hi => ?_⟩
  · by_cases hi : i.val < k.nsec.toNat
    · rw [evaluate_used l x i hi, evaluate_used k x i hi, run,
        signalAfter_congr fun j v => congrArg Prod.snd (run j v)]
    · have hle : k.nsec.toNat ≤ i.val := Nat.le_of_not_lt hi
      rw [evaluate_unused l x i hle, evaluate_unused k x i hle]
      have hr' : r ≠ .w0 := hr.resolve_right hi
      match i with
      | 0 => exact get_set_ne k.sec0 .w0 r a0 hr'
      | 1 => exact get_set_ne k.sec1 .w0 r a1 hr'
  · rw [evaluate_unused l x i hi]

/-! ### The kernels written out -/

/-- `EVALX` on a one-section context is the kernel of its kind on section 0 and `XIN` (R440, R550). -/
theorem exec_evalx_one {s : State} {c : CtxIndex} {kind : Kind} (hc : c.toNat < s.numContexts)
    (hk : (s.context c.toNat).kind = kind) (hn : (s.context c.toNat).nsec = 1#2) {f : Context → Context}
    (hf : f (s.context c.toNat) =
      { s.context c.toNat with
        sec0 := (runSection kind (s.context c.toNat).rg (s.context c.toNat).sg (s.context c.toNat).sec0 s.xin).1
        out := (runSection kind (s.context c.toNat).rg (s.context c.toNat).sg (s.context c.toNat).sec0 s.xin).2 }) :
    exec (.evalx c) s = .next (s.updContext c.toNat f) := by
  subst hk
  exact exec_evaluation_eq hc (.inr ⟨rfl, rfl⟩) ((evaluate_one _ _ hn).trans hf.symm)

/-- Settles O32: the formula is `sectionLP`, and the example is evaluated. -/
theorem lowpassEvaluationFollowsItsFormula : Obligations.LowpassEvaluationFollowsItsFormula :=
  ⟨fun _ _ hc hk hn => exec_evalx_one hc hk hn rfl, by decide⟩

/-- Settles O33: the formula is `sectionHP`, and the example is evaluated. -/
theorem highpassEvaluationFollowsItsFormula : Obligations.HighpassEvaluationFollowsItsFormula :=
  ⟨fun _ _ hc hk hn => exec_evalx_one hc hk hn rfl, by decide⟩

/-- Settles O34: the formula is `sectionBP`, and the example is evaluated. -/
theorem bandpassEvaluationFollowsItsFormula : Obligations.BandpassEvaluationFollowsItsFormula :=
  ⟨fun _ _ hc hk hn => exec_evalx_one hc hk hn rfl, by decide⟩

/-- Settles O35: the formula is `sectionBS` with the context's `RG` and `SG`, and the example is evaluated. -/
theorem bandstopEvaluationFollowsItsFormula : Obligations.BandstopEvaluationFollowsItsFormula :=
  ⟨fun _ _ hc hk hn => exec_evalx_one hc hk hn rfl, by decide⟩

end Sys2Proof.Machine
end

section
/-! The arithmetic: every result is the exact one rounded (R502), the cases of the multiplication, and the one NaN that an
operation answers (R505). -/

namespace Sys2Proof.Machine

/-! ### One rounding for every sum -/

/-- A finite datum other than zero is the rounding of its own value. -/
theorem rne_value {b : Word} (hf : isFinite b = true) (hz : isZero b = false) :
    rne (decide (value b < 0)) (value b).natAbs 1 = b := by
  have hs : decide (value b < 0) = signBit b := by simp [value_neg_iff hz]
  rw [hs, value_natAbs]
  exact rne_exact b hf one_pos (Nat.mul_one _).symm

/-- A sum of finite operands that is not zero is the exact sum rounded, where one operand is a zero too. -/
theorem fadd32_eq_rne {a b : Word} (ha : isFinite a = true) (hb : isFinite b = true) (h : value a + value b ≠ 0) :
    fadd32 a b = rne (decide (value a + value b < 0)) (value a + value b).natAbs 1 := by
  cases hz : isZero a
  case true =>
    have h0 : value a = 0 := (value_eq_zero_iff a).mpr hz
    rw [h0, zero_add] at h ⊢
    have hz' : isZero b = false := by rwa [Bool.eq_false_iff, Ne, ← value_eq_zero_iff]
    rw [fadd32_zero_left hz (not_isNaN_of_isFinite hb) hz', rne_value hb hz']
  case false =>
    cases hz' : isZero b
    case true =>
      rw [(value_eq_zero_iff b).mpr hz', add_zero, rne_value ha hz, fadd32_zero_right hz' (not_isNaN_of_isFinite ha) hz]
    case false => exact fadd32_finite ha hb hz hz' h

/-- Settles O46: `rne` rounds as R502 says; a difference is the sum with the negation. -/
theorem resultsAreRoundedToNearestEven : Obligations.ResultsAreRoundedToNearestEven := by
  intro a b ha hb
  refine ⟨fun h => ?_, fun h => ?_, fun h h' => ?_⟩
  · rw [fadd32_eq_rne ha hb h]
    exact rne_roundsTo _ one_pos
  · have hv : value a - value b = value a + value (neg32 b) := by rw [value_neg32, sub_eq_add_neg]
    rw [hv] at h ⊢
    rw [fsub32, fadd32_eq_rne ha ((isFinite_neg32 b).trans hb) h]
    exact rne_roundsTo _ one_pos
  · rw [Ne, value_eq_zero_iff, ← Ne, ← Bool.eq_false_iff] at h h'
    rw [fmul32_finite ha hb h h']
    exact rne_roundsTo _ (by positivity)

/-! ### The cases of the multiplication -/

/-- Infinity times zero has no value (R505). -/
theorem fmul32_infinity_zero {a b : Word}
    (h : (isInf a = true ∧ isZero b = true) ∨ (isZero a = true ∧ isInf b = true)) : fmul32 a b = canonicalNaN := by
  rcases h with ⟨ha, hb⟩ | ⟨ha, hb⟩
  · simp [fmul32, ha, hb]
  · simp [fmul32, ha, hb]

/-- The special value of a product's sign, by whether the signs agree. -/
theorem withSign_xor (x y : Bool) (m : Nat) : withSign (x ^^ y) m = if x = y then withSign false m else withSign true m := by
  cases x <;> cases y <;> rfl

/-- A product of finite operands has the sign of its operands, rounded to zero or not. -/
theorem signBit_fmul32 {a b : Word} (ha : isFinite a = true) (hb : isFinite b = true) :
    signBit (fmul32 a b) = (signBit a ^^ signBit b) := by
  by_cases hz : isZero a = true ∨ isZero b = true
  · rw [fmul32_zero ha hb hz, signBit_signedZero]
  · simp only [not_or, Bool.not_eq_true] at hz
    rw [fmul32_finite ha hb hz.1 hz.2, signBit_rne _ _ _ (by positivity)]

/-- A NaN sum is the canonical NaN: every case of the addition but that of a NaN, or of opposite infinities, answers a
number. -/
theorem fadd32_canonical {a b : Word} (h : isNaN (fadd32 a b) = true) : fadd32 a b = canonicalNaN := by
  by_cases hn : isNaN a = true ∨ isNaN b = true
  · exact fadd32_nan hn
  simp only [not_or, Bool.not_eq_true] at hn
  obtain ⟨ha, hb⟩ := hn
  unfold fadd32 at h ⊢
  simp only [ha, hb, Bool.or_false, Bool.false_eq_true, if_false] at h ⊢
  split_ifs at h ⊢
  · rfl
  all_goals simp [ha, hb, isNaN_rne] at h

/-- A NaN difference is the canonical NaN. -/
theorem fsub32_canonical {a b : Word} (h : isNaN (fsub32 a b) = true) : fsub32 a b = canonicalNaN := fadd32_canonical h

/-- A NaN product is the canonical NaN: every case of the multiplication but that of a NaN, or of infinity times zero,
answers a number. -/
theorem fmul32_canonical {a b : Word} (h : isNaN (fmul32 a b) = true) : fmul32 a b = canonicalNaN := by
  unfold fmul32 at h ⊢
  simp only at h ⊢
  split_ifs at h ⊢
  · rfl
  · rfl
  all_goals simp [isNaN_rne] at h

/-- Settles O48: a case of the rule is an equation of `fmul32`. -/
theorem multiplicationSpecialCases : Obligations.MultiplicationSpecialCases := fun _ _ =>
  ⟨fmul32_nan, fmul32_infinity_zero,
    fun ha hb hz hz' h => (fmul32_infinity ha hb hz hz' h).trans (withSign_xor _ _ infBits),
    fun ha hb h => (fmul32_zero ha hb h).trans (withSign_xor _ _ 0),
    signBit_fmul32, fadd32_canonical, fsub32_canonical, fmul32_canonical⟩

end Sys2Proof.Machine
end

section
/-! The kernels on a NaN (R440) and on zeros (R450), and the cascade of them. -/

namespace Sys2Proof.Machine

/-! ### A NaN sample -/

/-- A kernel on a NaN answers the canonical NaN, and leaves it as the new `w0`: the sample is the last summand of the
recursion, and `w0` the first of the mix. -/
theorem runSection_nan (kind : Kind) (r s : Word) (k : Section) {v : Word} (h : isNaN v = true) :
    (runSection kind r s k v).1.w1 = canonicalNaN ∧ (runSection kind r s k v).2 = canonicalNaN := by
  have h2 : feedback2 k v = canonicalNaN := fadd32_nan (.inr h)
  have h4 : feedback4 k v = canonicalNaN := fadd32_nan (.inr h)
  have add : ∀ x, fadd32 canonicalNaN x = canonicalNaN := fun _ => fadd32_nan (.inl rfl)
  have sub : ∀ x, fsub32 canonicalNaN x = canonicalNaN := fun _ => fadd32_nan (.inl rfl)
  have mul : ∀ x, fmul32 x canonicalNaN = canonicalNaN := fun _ => fmul32_nan (.inr rfl)
  cases kind with
  | lp => simp [runSection, sectionLP, mixLP, h2, add, mul]
  | hp => simp [runSection, sectionHP, mixHP, h2, add, sub, mul]
  | bp => simp [runSection, sectionBP, mixBP, h4, add, sub, mul]
  | bs => simp [runSection, sectionBS, mixBS, h4, add, sub, mul]

/-- A cascade of at least one section on a NaN. -/
theorem evaluate_nan {k : Context} {x : Word} (hn : k.nsec ≠ 0#2) (h : isNaN x = true) :
    (k.evaluate x).out = canonicalNaN ∧ (k.evaluate x).sec0.w1 = canonicalNaN := by
  obtain ⟨hw, hout⟩ := runSection_nan k.kind k.rg k.sg k.sec0 h
  rcases evaluate_cases k x with ⟨h0, -⟩ | ⟨-, e⟩ | ⟨-, e⟩
  · exact absurd h0 hn
  · rw [e]
    exact ⟨hout, hw⟩
  · rw [e, hout]
    exact ⟨(runSection_nan _ _ _ _ isNaN_canonicalNaN).2, hw⟩

/-- Settles O45: `EVALX` evaluates the context on `XIN`. -/
theorem nanSamplePoisonsTheDelayLine : Obligations.NanSamplePoisonsTheDelayLine := by
  intro s t c hc hn hx h
  rw [exec_evaluation hc (.inr ⟨rfl, rfl⟩)] at h
  cases h
  rw [context_updContext_same _ _ _ hc]
  obtain ⟨hout, hw⟩ := evaluate_nan hn hx
  exact ⟨hout, hw, rfl⟩

/-! ### A zero sample on a delay line of zeros -/

theorem isZero_fadd32 {a b : Word} (ha : isZero a = true) (hb : isZero b = true) : isZero (fadd32 a b) = true := by
  rw [fadd32_zeros ha hb, isZero_signedZero]

theorem isZero_fsub32 {a b : Word} (ha : isZero a = true) (hb : isZero b = true) : isZero (fsub32 a b) = true :=
  isZero_fadd32 ha ((isZero_neg32 b).trans hb)

theorem isZero_fmul32 {a b : Word} (ha : isFinite a = true) (hb : isZero b = true) : isZero (fmul32 a b) = true := by
  rw [fmul32_zero ha (isFinite_of_isZero hb) (.inr hb), isZero_signedZero]

/-- A zero of either sign and +0.0 add up to +0.0. -/
theorem fadd32_positive_zero {a : Word} (ha : isZero a = true) : fadd32 a 0 = 0 := by
  rw [fadd32_zeros ha rfl, show signBit 0 = false from rfl, Bool.and_false]
  rfl

/-- +0.0 and a zero of either sign add up to +0.0. -/
theorem positive_zero_fadd32 {a : Word} (ha : isZero a = true) : fadd32 0 a = 0 := by
  rw [fadd32_zeros rfl ha, show signBit 0 = false from rfl, Bool.false_and]
  rfl

/-- +0.0 minus a zero of either sign is +0.0. -/
theorem positive_zero_fsub32 {a : Word} (ha : isZero a = true) : fsub32 0 a = 0 :=
  positive_zero_fadd32 ((isZero_neg32 a).trans ha)

section ZeroSection
variable {k : Section} (hf : finiteCoefficients k) (hz : zeroDelays k) {r s : Word} (hr : isFinite r = true)
  (hs : isFinite s = true)
include hf hz

theorem isZero_feedback {v : Word} (hv : isZero v = true) :
    isZero (feedback2 k v) = true ∧ isZero (feedback4 k v) = true := by
  obtain ⟨-, f1, f2, f3, f4⟩ := hf
  obtain ⟨-, z1, z2, z3, z4⟩ := hz
  have two := isZero_fadd32 (isZero_fmul32 f1 z1) (isZero_fmul32 f2 z2)
  exact ⟨isZero_fadd32 two hv,
    isZero_fadd32 (isZero_fadd32 (isZero_fadd32 two (isZero_fmul32 f3 z3)) (isZero_fmul32 f4 z4)) hv⟩

/-- On +0.0 the recursion is +0.0, whatever the signs of the products. -/
theorem feedback_positive_zero : feedback2 k 0 = 0 ∧ feedback4 k 0 = 0 := by
  obtain ⟨-, f1, f2, f3, f4⟩ := hf
  obtain ⟨-, z1, z2, z3, z4⟩ := hz
  have two := isZero_fadd32 (isZero_fmul32 f1 z1) (isZero_fmul32 f2 z2)
  exact ⟨fadd32_positive_zero two,
    fadd32_positive_zero (isZero_fadd32 (isZero_fadd32 two (isZero_fmul32 f3 z3)) (isZero_fmul32 f4 z4))⟩

include hr hs

/-- A kernel on a zero answers a zero and leaves zeros. -/
theorem runSection_zero (kind : Kind) {v : Word} (hv : isZero v = true) :
    isZero (runSection kind r s k v).2 = true ∧ zeroDelays (runSection kind r s k v).1 := by
  obtain ⟨h2, h4⟩ := isZero_feedback hf hz hv
  obtain ⟨fa, -⟩ := hf
  obtain ⟨-, z1, z2, z3, z4⟩ := hz
  have double {x : Word} (hx : isZero x = true) : isZero (fmul32 two32 x) = true := isZero_fmul32 rfl hx
  cases kind with
  | lp => exact ⟨isZero_fmul32 fa (isZero_fadd32 (isZero_fadd32 h2 (double z1)) z2), h2, h2, z1, z3, z4⟩
  | hp => exact ⟨isZero_fmul32 fa (isZero_fadd32 (isZero_fsub32 h2 (double z1)) z2), h2, h2, z1, z3, z4⟩
  | bp => exact ⟨isZero_fmul32 fa (isZero_fadd32 (isZero_fsub32 h4 (double z2)) z4), h4, h4, z1, z2, z3⟩
  | bs =>
    have mix := isZero_fadd32 (isZero_fsub32 (isZero_fadd32 (isZero_fsub32 h4 (isZero_fmul32 hr z1))
      (isZero_fmul32 hs z2)) (isZero_fmul32 hr z3)) z4
    exact ⟨isZero_fmul32 fa mix, h4, h4, z1, z2, z3⟩

/-- A kernel on +0.0 answers the product of its gain and +0.0. -/
theorem runSection_positive_zero (kind : Kind) : (runSection kind r s k 0).2 = fmul32 k.a 0 := by
  obtain ⟨h2, h4⟩ := feedback_positive_zero hf hz
  obtain ⟨-, z1, z2, z3, z4⟩ := hz
  have double {x : Word} (hx : isZero x = true) : isZero (fmul32 two32 x) = true := isZero_fmul32 rfl hx
  cases kind with
  | lp => simp only [runSection, sectionLP, mixLP, h2, positive_zero_fadd32 (double z1), positive_zero_fadd32 z2]
  | hp => simp only [runSection, sectionHP, mixHP, h2, positive_zero_fsub32 (double z1), positive_zero_fadd32 z2]
  | bp => simp only [runSection, sectionBP, mixBP, h4, positive_zero_fsub32 (double z2), positive_zero_fadd32 z4]
  | bs =>
    simp only [runSection, sectionBS, mixBS, h4, positive_zero_fsub32 (isZero_fmul32 hr z1),
      positive_zero_fadd32 (isZero_fmul32 hs z2), positive_zero_fsub32 (isZero_fmul32 hr z3), positive_zero_fadd32 z4]

end ZeroSection

/-- What every used slot passes on from its input to its output, the cascade passes on from the sample. -/
theorem signalAfter_induction {k : Context} {P : Word → Prop} {x : Word} (n : Nat)
    (h : ∀ i v, i.val < n → P v → P (k.runSlot i v).2) (hx : P x) : P (k.signalAfter x n) := by
  match n with
  | 0 => exact hx
  | 1 => exact h 0 x one_pos hx
  | m + 2 => exact h 1 _ (show 1 < m + 2 by omega) (h 0 x (show 0 < m + 2 by omega) hx)

section ZeroContext
variable {k : Context} (hr : isFinite k.rg = true) (hs : isFinite k.sg = true)
  (hf : ∀ i, finiteCoefficients (k.sec i)) (hz : ∀ i, zeroDelays (k.sec i))
include hr hs hf hz

/-- The cascade on a zero answers a zero and leaves zeros. -/
theorem evaluate_zero_state {x : Word} (hx : isZero x = true) :
    isZero (k.evaluate x).out = true ∧ ∀ i, zeroDelays ((k.evaluate x).sec i) := by
  have run : ∀ i v, isZero v = true → isZero (k.runSlot i v).2 = true ∧ zeroDelays (k.runSlot i v).1 :=
    fun i _ hv => runSection_zero (hf i) (hz i) hr hs k.kind hv
  have signal : ∀ n, isZero (k.signalAfter x n) = true := fun n =>
    signalAfter_induction (P := fun v => isZero v = true) n (fun i v _ hv => (run i v hv).1) hx
  refine ⟨by rw [evaluate_out, signal], fun i => ?_⟩
  by_cases hi : i.val < k.nsec.toNat
  · rw [evaluate_used k x i hi]
    exact (run i _ (signal _)).2
  · rw [evaluate_unused k x i (Nat.le_of_not_lt hi)]
    exact hz i

/-- The cascade on +0.0 answers +0.0 where the used gains have sign bit 0. -/
theorem evaluate_positive_zero (ha : ∀ i : Fin 2, i.val < k.nsec.toNat → signBit (k.sec i).a = false) :
    (k.evaluate 0).out = 0 := by
  rw [evaluate_out]
  refine signalAfter_induction (P := fun v => v = 0) _ (fun i v hi hv => ?_) rfl
  obtain ⟨fa, -⟩ := hf i
  subst hv
  rw [Context.runSlot, runSection_positive_zero (hf i) (hz i) hr hs, fmul32_zero fa rfl (.inr rfl), ha i hi]
  rfl

end ZeroContext

/-- `CLEAR` zeroes the delay registers and keeps the coefficients. -/
theorem clearDelays_zeroDelays (k : Section) : zeroDelays k.clearDelays := by
  have zero : isZero 0 = true := rfl
  exact ⟨zero, zero, zero, zero, zero⟩

/-- Settles O44: the sample 0 is +0.0; right after `CLEAR` the delay registers are zeros and the gains are as before. -/
theorem zeroStateAnswersZero : Obligations.ZeroStateAnswersZero := by
  have sample : u2f32 (0 : BitVec 16).toNat = 0 := by decide
  constructor
  · intro s t c hc k hr hs f0 f1 z0 z1 h
    rw [exec_evaluation hc (.inl ⟨0, rfl, rfl⟩), sample] at h
    cases h
    rw [context_updContext_same _ _ _ hc]
    obtain ⟨hout, hsec⟩ := evaluate_zero_state hr hs (Fin.forall_fin_two.mpr ⟨f0, f1⟩)
      (Fin.forall_fin_two.mpr ⟨z0, z1⟩) (x := 0) rfl
    exact ⟨hout, hsec 0, hsec 1⟩
  · intro s t u c hc k hr hs f0 f1 ha ht hu
    rw [exec_effect (f := Context.clear) rfl hc] at ht
    cases ht
    have hc' : c.toNat < (s.updContext c.toNat Context.clear).numContexts := by rwa [updContext_numContexts]
    rw [exec_evaluation hc' (.inl ⟨0, rfl, rfl⟩), sample] at hu
    cases hu
    rw [context_updContext_same _ _ _ hc', context_updContext_same _ _ _ hc]
    refine evaluate_positive_zero hr hs (Fin.forall_fin_two.mpr ⟨f0, f1⟩) (fun i => ?_) (fun i hi => ?_)
    · rw [clear_sec]
      exact clearDelays_zeroDelays _
    · rw [clear_sec]
      exact ha i hi

end Sys2Proof.Machine
end

section
/-! The bandstop kernel with the mix of the bandpass kernel (R575): two sums that differ at most in the sign of a zero. -/

namespace Sys2Proof.Machine

/-- Equal words, or two zeros. -/
def SameUpToZeroSign (a b : Word) : Prop := a = b ∨ (isZero a = true ∧ isZero b = true)

theorem SameUpToZeroSign.trans {a b c : Word} (h : SameUpToZeroSign a b) (h' : SameUpToZeroSign b c) :
    SameUpToZeroSign a c := by
  rcases h with rfl | ⟨ha, hb⟩
  · exact h'
  · rcases h' with rfl | ⟨-, hc⟩
    · exact .inr ⟨ha, hb⟩
    · exact .inr ⟨ha, hc⟩

/-- The sign of a zero summand shows in a zero sum alone. -/
theorem SameUpToZeroSign.fadd32_left {a a' : Word} (h : SameUpToZeroSign a a') (b : Word) :
    SameUpToZeroSign (fadd32 a b) (fadd32 a' b) := by
  rcases h with rfl | ⟨ha, ha'⟩
  · exact .inl rfl
  · cases hn : isNaN b
    case true => exact .inl ((fadd32_nan (.inr hn)).trans (fadd32_nan (.inr hn)).symm)
    case false =>
      cases hz : isZero b
      case true => exact .inr ⟨isZero_fadd32 ha hz, isZero_fadd32 ha' hz⟩
      case false => exact .inl ((fadd32_zero_left ha hn hz).trans (fadd32_zero_left ha' hn hz).symm)

/-- The sign of a zero factor shows in a zero product alone. -/
theorem SameUpToZeroSign.fmul32_right {a a' : Word} (h : SameUpToZeroSign a a') (b : Word) :
    SameUpToZeroSign (fmul32 b a) (fmul32 b a') := by
  rcases h with rfl | ⟨ha, ha'⟩
  · exact .inl rfl
  · rcases class_cases b with hb | hb | hb
    · exact .inl ((fmul32_nan (.inl hb)).trans (fmul32_nan (.inl hb)).symm)
    · exact .inl ((fmul32_infinity_zero (.inl ⟨hb, ha⟩)).trans (fmul32_infinity_zero (.inl ⟨hb, ha'⟩)).symm)
    · exact .inr ⟨isZero_fmul32 hb ha, isZero_fmul32 hb ha'⟩

/-- A zero subtracted from a result moves at most the sign of a zero: a NaN result is canonical already. -/
theorem sameUpToZeroSign_fsub32_zero {a z : Word} (ha : isNaN a = true → a = canonicalNaN) (hz : isZero z = true) :
    SameUpToZeroSign (fsub32 a z) a := by
  have hz' : isZero (neg32 z) = true := (isZero_neg32 z).trans hz
  cases hn : isNaN a
  case true => exact .inl ((fadd32_nan (.inl hn)).trans (ha hn).symm)
  case false =>
    cases h0 : isZero a
    case true => exact .inr ⟨isZero_fadd32 h0 hz', h0⟩
    case false => exact .inl (fadd32_zero_right hz' hn h0)

/-- The product by -2.0 is the negation of the product by 2.0, a NaN apart. -/
theorem fmul32_minus_two {w : Word} (hn : isNaN w = false) : fmul32 0xC0000000#32 w = neg32 (fmul32 two32 w) := by
  have hs : signBit 0xC0000000#32 = true := rfl
  have hm : magnitude 0xC0000000#32 = 2 ^ 150 := by decide
  rcases class_cases w with h | h | h
  · rw [hn] at h; cases h
  · rw [fmul32_two_infinity h, fmul32_infinity rfl hn rfl (not_isZero_of_isInf h) (.inr h), hs]
    cases signBit w <;> rfl
  · cases hz : isZero w
    case true =>
      rw [fmul32_two_zero hz, fmul32_zero rfl h (.inr hz), hs, eq_signedZero hz, signBit_signedZero]
      cases signBit w <;> rfl
    case false =>
      rw [fmul32_two h hz, neg32_rne _ _ _ (by positivity), fmul32_finite rfl h rfl hz, hs, hm, Bool.true_xor]

/-- Adding the product by -2.0 subtracts the product by 2.0. -/
theorem fadd32_minus_two (a w : Word) : fadd32 a (fmul32 0xC0000000#32 w) = fsub32 a (fmul32 two32 w) := by
  cases hn : isNaN w
  case true =>
    rw [fmul32_nan (.inr hn), fmul32_nan (.inr hn), fsub32_nan_right a rfl]
    exact fadd32_nan (.inr rfl)
  case false => rw [fmul32_minus_two hn, fsub32]

/-- The bandstop mix with `r` = +0.0 and `s` = -2.0 is the bandpass mix, up to the sign of a zero. -/
theorem mixBS_bandpass {k : Section} (h1 : isFinite k.w1 = true) (h3 : isFinite k.w3 = true) {w0 : Word}
    (hw : isNaN w0 = true → w0 = canonicalNaN) :
    SameUpToZeroSign (mixBS 0x00000000#32 0xC0000000#32 k w0) (mixBP k w0) := by
  have zero : ∀ {w}, isFinite w = true → isZero (fmul32 0x00000000#32 w) = true := fun hf => by
    rw [fmul32_zero rfl hf (.inl rfl), isZero_signedZero]
  have first := (sameUpToZeroSign_fsub32_zero hw (zero h1)).fadd32_left (fmul32 0xC0000000#32 k.w2)
  rw [fadd32_minus_two w0] at first
  have second := (sameUpToZeroSign_fsub32_zero fadd32_canonical (zero h3)).trans first
  exact (second.fadd32_left k.w4).fmul32_right k.a

/-- Settles O52: the registers move alike, and the mixes of one `w0` differ at most in the sign of a zero. -/
theorem bandstopWithTheBandpassMix : Obligations.BandstopWithTheBandpassMix :=
  fun _ _ h1 h3 => ⟨rfl, mixBS_bandpass h1 h3 fadd32_canonical⟩

end Sys2Proof.Machine
end

section
/-! The sequences that load a filter (R309, R820): each access is an update of the context, and together they configure
it. -/

namespace Sys2Proof.Machine

/-! ### A command sent over the bus -/

/-- A well-formed command presented at `CMD` makes its effect on its context (R308, R407). -/
theorem step_cmd {s : State} {i : Instr} {c : CtxIndex} {f : Context → Context} {rest : List PortEvent}
    (hr : s.resetAsserted = false) (hc : c.toNat < s.numContexts) (wf : i.wellFormed s.numContexts = true)
    (he : Instr.effect s i = some (c, f)) (hp : s.port = .access (cmd i) :: rest) :
    step s = .next ((s.withPort rest).updContext c.toNat f) := by
  rw [step_decoded (decodeOfEncodeIsTheInstruction s.numContexts i wf) ⟨hr, rfl, hp⟩]
  exact exec_effect ((effect_congr rfl i).trans he) hc

/-! ### Lists of accesses that update one context -/

/-- On a block with `nctx` contexts the accesses of `l` are updates of context `c` that compose to `f`. -/
def UpdatesAll (nctx c : Nat) (l : List Access) (f : Context → Context) : Prop :=
  ∃ fs, List.Forall₂ (Updates nctx c) l fs ∧ ∀ k, fs.foldl (fun k g => g k) k = f k

section Lists
variable {nctx c : Nat}

theorem updatesAll_nil : UpdatesAll nctx c [] id := ⟨[], .nil, fun _ => rfl⟩

theorem updatesAll_single {a : Access} {f : Context → Context} (h : Updates nctx c a f) : UpdatesAll nctx c [a] f :=
  ⟨[f], .cons h .nil, fun _ => rfl⟩

theorem updatesAll_append {l l' : List Access} {f g : Context → Context} (h : UpdatesAll nctx c l f)
    (h' : UpdatesAll nctx c l' g) : UpdatesAll nctx c (l ++ l') (fun k => g (f k)) := by
  obtain ⟨fs, hl, hf⟩ := h
  obtain ⟨gs, hl', hg⟩ := h'
  exact ⟨fs ++ gs, List.rel_append hl hl', fun k => by rw [List.foldl_append, hf, hg]⟩

variable (hc : c < nctx) (hn : nctx ≤ 15)
include hc hn

theorem updates_ctrl (v : Word) : Updates nctx c (wr (contextBase c) v) (fun k => k.writeCtrl v) := by
  obtain ⟨hctrl, -, -, -⟩ := locate_context_registers hc hn
  exact updates_write hctrl (by unfold contextBase; omega) (by simp) fun _ => rfl

/-- `SETBS` (R309). -/
theorem updatesAll_setbs (r s : Word) : UpdatesAll nctx c (setbs c r s) (fun k => { k with rg := r, sg := s }) := by
  obtain ⟨-, -, hrg, hsg⟩ := locate_context_registers hc hn
  have rg : Updates nctx c (wr (contextBase c + 0x08) r) (fun k => { k with rg := r }) :=
    updates_write hrg (by unfold contextBase; omega) (by simp) fun _ => rfl
  have sg : Updates nctx c (wr (contextBase c + 0x0C) s) (fun k => { k with sg := s }) :=
    updates_write hsg (by unfold contextBase; omega) (by simp) fun _ => rfl
  exact updatesAll_append (updatesAll_single rg) (updatesAll_single sg)

end Lists

/-! ### The words of the sections -/

/-- A section with its five coefficient registers replaced. -/
def Section.withCoeffs (k : Section) (q : Coeffs) : Section :=
  { k with a := q.a, d1 := q.d1, d2 := q.d2, d3 := q.d3, d4 := q.d4 }

/-- A context with the coefficients of its first slots replaced by those of `secs`. -/
def Context.withSections (k : Context) (secs : List Coeffs) : Context :=
  { k with
    sec0 := k.sec0.withCoeffs (secs[0]?.getD k.sec0.coeffs)
    sec1 := k.sec1.withCoeffs (secs[1]?.getD k.sec1.coeffs) }

theorem sec_withSections (k : Context) (secs : List Coeffs) (i : Fin 2) :
    (k.withSections secs).sec i = (k.sec i).withCoeffs (secs[i.val]?.getD (k.sec i).coeffs) := by
  match i with
  | 0 => rfl
  | 1 => rfl

/-- `SETSEC` (R309). -/
theorem updatesAll_setsec {nctx c : Nat} (hc : c < nctx) (hn : nctx ≤ 15) (i : Fin 2) (q : Coeffs) :
    UpdatesAll nctx c (setsec c i q) (fun k => k.setSec i ((k.sec i).withCoeffs q)) := by
  have word := updates_section hc hn i
  refine ⟨_, .cons (word .a q.a) (.cons (word .d1 q.d1) (.cons (word .d2 q.d2) (.cons (word .d3 q.d3)
    (.cons (word .d4 q.d4) .nil)))), fun k => ?_⟩
  match i with
  | 0 => rfl
  | 1 => rfl

/-- The `SETSEC` writes of a design. -/
theorem updatesAll_setSections {nctx c : Nat} (hc : c < nctx) (hn : nctx ≤ 15) (secs : List Coeffs) :
    UpdatesAll nctx c (setSections c secs) (fun k => k.withSections secs) := by
  match secs with
  | [] => exact updatesAll_nil
  | [q0] => exact updatesAll_setsec hc hn 0 q0
  | q0 :: q1 :: _ => exact updatesAll_append (updatesAll_setsec hc hn 0 q0) (updatesAll_setsec hc hn 1 q1)

/-- `CFG` with a legal count stores it and the kind (R109, R309). -/
theorem writeCtrl_cfg (k : Context) (kind : Kind) {n : BitVec 2} (hn : n.toNat ≤ 2) :
    k.writeCtrl (0#26 ++ n ++ 0#2 ++ kindBits kind : BitVec 32) = { k with kind := kind, nsec := n } := by
  have kindField : ∀ (n : BitVec 2) (b : BitVec 2),
      (0#26 ++ n ++ 0#2 ++ b : BitVec 32).extractLsb' 0 2 = b ∧
        (0#26 ++ n ++ 0#2 ++ b : BitVec 32).extractLsb' 4 2 = n := by decide
  obtain ⟨hk, hc⟩ := kindField n (kindBits kind)
  rw [Context.writeCtrl, hk, hc, kindOfBits_kindBits, clampNsec_of_le hn]

/-! ### A configuration of one context -/

/-- A context with `RG` and `SG` replaced, where words for them are given. -/
def Context.withGlobals (k : Context) : Option (Word × Word) → Context
  | none => k
  | some (r, s) => { k with rg := r, sg := s }

section WithGlobals
variable (k : Context) (g : Option (Word × Word))
@[simp] theorem withGlobals_kind : (k.withGlobals g).kind = k.kind := by cases g <;> rfl
@[simp] theorem withGlobals_nsec : (k.withGlobals g).nsec = k.nsec := by cases g <;> rfl
@[simp] theorem withGlobals_sec (i : Fin 2) : (k.withGlobals g).sec i = k.sec i := by cases g <;> rfl
end WithGlobals

/-- A context after its configuration: the kind and the count, `RG` and `SG` where words for them are given, the words of
the sections, and `CLEAR`. -/
def Context.configure (k : Context) (kind : Kind) (secs : List Coeffs) (g : Option (Word × Word)) : Context :=
  (({ k with kind := kind, nsec := BitVec.ofNat 2 secs.length }.withGlobals g).withSections secs).clear

/-- `CFG`, `SETBS` where words for it are given, the sections and `CLEAR`: the common form of R309 and R820. -/
def configuration (c : CtxIndex) (kind : Kind) (secs : List Coeffs) (g : Option (Word × Word)) : List Access :=
  cfg c.toNat kind (BitVec.ofNat 2 secs.length) ++ (g.elim [] fun w => setbs c.toNat w.1 w.2) ++
    setSections c.toNat secs ++ [cmd (.clear c)]

theorem loadFilter_eq_configuration (c : CtxIndex) (d : Design) :
    loadFilter c d = configuration c d.kind d.secs (if d.kind = .bs then some (d.rg, d.sg) else none) := by
  unfold loadFilter configuration cfgDesign
  split <;> rfl

theorem bootSequence_eq_configuration (c : CtxIndex) (d : Design) :
    bootSequence c d = configuration c d.kind d.bootWords.secs (some (d.bootWords.rg, d.bootWords.sg)) := by
  rw [configuration, bootWords_secs, List.length_map]
  rfl

/-- `CLEAR` sent over the bus. -/
theorem updates_clear {nctx : Nat} {c : CtxIndex} (hc : c.toNat < nctx) :
    Updates nctx c.toNat (cmd (.clear c)) Context.clear := by
  rintro s rest hr rfl hp
  exact step_cmd (i := .clear c) hr hc (decide_eq_true hc) rfl hp

/-- The accesses of a configuration configure the context. -/
theorem updatesAll_configuration {nctx : Nat} {c : CtxIndex} (hc : c.toNat < nctx) (hn : nctx ≤ 15) (kind : Kind)
    {secs : List Coeffs} (hl : secs.length ≤ 2) (g : Option (Word × Word)) :
    UpdatesAll nctx c.toNat (configuration c kind secs g) (fun k => k.configure kind secs g) := by
  have control := updatesAll_single
    (updates_ctrl hc hn (0#26 ++ BitVec.ofNat 2 secs.length ++ 0#2 ++ kindBits kind : BitVec 32))
  simp only [writeCtrl_cfg _ kind (show (BitVec.ofNat 2 secs.length).toNat ≤ 2 by simp; omega)] at control
  have globals : UpdatesAll nctx c.toNat (g.elim [] fun w => setbs c.toNat w.1 w.2) (fun k => k.withGlobals g) := by
    cases g with
    | none => exact updatesAll_nil
    | some w => exact updatesAll_setbs hc hn w.1 w.2
  exact updatesAll_append (updatesAll_append (updatesAll_append control globals) (updatesAll_setSections hc hn secs))
    (updatesAll_single (updates_clear hc))

/-- A section of a configured context: its delay registers are zero, its words those of the design, or its own where the
design has none for it. -/
theorem sec_configure (k : Context) (kind : Kind) (secs : List Coeffs) (g : Option (Word × Word)) (i : Fin 2) :
    (k.configure kind secs g).sec i = ((k.sec i).withCoeffs (secs[i.val]?.getD (k.sec i).coeffs)).clearDelays := by
  rw [Context.configure, clear_sec, sec_withSections, withGlobals_sec]
  rfl

/-- The run of a configuration from any state out of reset. -/
theorem runEvents_configuration {s : State} {c : CtxIndex} {secs : List Coeffs} {rest : List PortEvent}
    (hr : s.resetAsserted = false) (hn : s.numContexts ≤ 15) (hc : c.toNat < s.numContexts) (hl : secs.length ≤ 2)
    (kind : Kind) (g : Option (Word × Word)) (hp : s.port = asEvents (configuration c kind secs g) ++ rest) :
    ∃ t, runEvents (configuration c kind secs g).length s = .next t ∧ t.port = rest ∧
      Configured s t c.toNat kind secs ∧
      (t.context c.toNat).rg = ((s.context c.toNat).withGlobals g).rg ∧
      (t.context c.toNat).sg = ((s.context c.toNat).withGlobals g).sg := by
  obtain ⟨fs, hfs, hf⟩ := updatesAll_configuration hc hn kind hl g
  obtain ⟨t, hrun, hport, hreads, hill, hacc, hxin, hctx, hother⟩ := runEvents_updates hfs s rest hr rfl hc hp
  rw [hf] at hctx
  have hsec := fun i => (congrArg (Context.sec · i) hctx).trans (sec_configure _ kind secs g i)
  refine ⟨t, hrun, hport, ⟨?_, ?_, ?_, ?_, ?_, ?_, hother, hxin, hill, hacc, hreads⟩, ?_, ?_⟩
  · rw [hctx]; exact withGlobals_kind _ g
  · rw [hctx]
    refine (congrArg BitVec.toNat (withGlobals_nsec _ g)).trans ?_
    simp only [BitVec.toNat_ofNat]
    omega
  · rw [hctx]; rfl
  · intro i q hq
    rw [hsec, hq]; rfl
  · intro i hi
    rw [hsec, List.getElem?_eq_none hi]; rfl
  · intro i r hd
    rw [hsec]
    exact clearDelays_delay _ r hd
  · rw [hctx]; cases g <;> rfl
  · rw [hctx]; cases g <;> rfl

/-- The words R820 writes for a section are those of the design, with `D3` and `D4` zero for the two-pole kinds. -/
theorem forKind_eq (kind : Kind) :
    Coeffs.forKind kind = fun q => if kind = .lp ∨ kind = .hp then ⟨q.a, q.d1, q.d2, 0, 0⟩ else q := by
  cases kind <;> rfl

/-- Settles O53: both sequences are configurations, the one with `RG` and `SG` for `BS` only, the other for every kind. -/
theorem loadFilterInstallsTheDesign : Obligations.LoadFilterInstallsTheDesign := by
  intro s c d rest hr hn hc hl
  constructor
  · intro hp
    rw [loadFilter_eq_configuration] at hp ⊢
    obtain ⟨t, hrun, hport, hconf, hrg, hsg⟩ := runEvents_configuration hr hn hc hl d.kind _ hp
    refine ⟨t, hrun, hport, hconf, fun hk => ?_, fun hk => ?_⟩
    · rw [hrg, hsg, if_pos hk]; exact ⟨rfl, rfl⟩
    · rw [hrg, hsg, if_neg hk]; exact ⟨rfl, rfl⟩
  · intro hp
    rw [bootSequence_eq_configuration] at hp ⊢
    obtain ⟨t, hrun, hport, hconf, hrg, hsg⟩ := runEvents_configuration hr hn hc (by simpa using hl) d.kind _ hp
    rw [bootWords_secs, forKind_eq] at hconf
    refine ⟨t, hrun, hport, hconf, fun hk => ?_, fun hk => ?_⟩
    · rw [hrg, hsg, bootWords_bs hk]; exact ⟨rfl, rfl⟩
    · rw [hrg, hsg]; exact ⟨if_neg hk, if_neg hk⟩

end Sys2Proof.Machine
end

section
/-! The dispatcher (R650): its clamp (R653), and one tick of it as a run of the block (R651). -/

namespace Sys2Proof.Machine

/-! ### The clamp -/

/-- A number between the bounds, by the ordered comparison. -/
def InBounds (lo hi z : Word) : Prop := isNaN z = false ∧ flt32 z lo = false ∧ flt32 hi z = false

theorem flt32_irrefl (z : Word) : flt32 z z = false := by simp [flt32]

section Clamp
variable {lo hi : Word} (hlo : isNaN lo = false) (hhi : isNaN hi = false) (hord : flt32 hi lo = false)
include hlo hhi hord

/-- A number brought to the nearer bound where it is outside is between the bounds. -/
theorem inBounds_clamped {z : Word} (hz : isNaN z = false) :
    InBounds lo hi (if flt32 z lo then lo else if flt32 hi z then hi else z) := by
  split_ifs with h1 h2
  · exact ⟨hlo, flt32_irrefl lo, hord⟩
  · exact ⟨hhi, hord, flt32_irrefl hi⟩
  · exact ⟨hz, by simpa using h1, by simpa using h2⟩

/-- The free value of a NaN is between the bounds. -/
theorem inBounds_anyInRange (z : Word) : InBounds lo hi (anyInRange z lo hi) := by
  cases hv : isNaN (Config.freeClamp z lo hi)
  case true =>
    rw [anyInRange, hv, Bool.true_or, if_pos rfl]
    exact ⟨hlo, flt32_irrefl lo, hord⟩
  case false =>
    rw [anyInRange, hv, Bool.false_or]
    exact inBounds_clamped hlo hhi hord hv

theorem inBounds_clampOut (z : Word) : InBounds lo hi (clampOut z lo hi) := by
  cases hz : isNaN z
  case true =>
    rw [clampOut, hz, if_pos rfl]
    exact inBounds_anyInRange hlo hhi hord z
  case false =>
    rw [clampOut, hz, if_neg Bool.false_ne_true]
    exact inBounds_clamped hlo hhi hord hz

end Clamp

/-- Settles O57: what is delivered is between the bounds, and the three tests of the clamp are in order; a number above
`hi` is not below `lo`. -/
theorem clampDeliversWithinTheRange : Obligations.ClampDeliversWithinTheRange := by
  intro z lo hi hlo hhi hord
  refine ⟨inBounds_clampOut hlo hhi hord z, fun hz h => ?_, fun hz h => ?_, fun hz h h' => ?_⟩
  · simp [clampOut, hz, h]
  · have hnot : flt32 z lo = false := by
      simp only [flt32, hlo, hhi, hz, Bool.not_false, Bool.true_and, decide_eq_false_iff_not,
        decide_eq_true_eq] at hord h ⊢
      omega
    simp [clampOut, hz, h, hnot]
  · simp [clampOut, hz, h, h']

/-! ### A tick -/

/-- The binary32 word of a host sample (R651). -/
def HostSample.word : HostSample → Word
  | .integer n => u2f32 n.toNat
  | .real f => f

/-- `XIN` after a sample: `EVALF` leaves it there, `EVALU` does not (R309). -/
def HostSample.xinAfter (x : HostSample) (xin : Word) : Word :=
  match x with
  | .integer _ => xin
  | .real f => f

/-- The state after a tick on context `c`: the evaluation of the sample, and its output as the newest read data. -/
def State.afterTick (s : State) (c : Nat) (x : HostSample) : State :=
  { ({ s with xin := x.xinAfter s.xin } : State).updContext c (fun k => k.evaluate x.word) with
    reads := ((s.context c).evaluate x.word).out :: s.reads }

/-- The last access of a tick reads `OUT` (R651). -/
theorem step_read_out {s : State} {c : Nat} {rest : List PortEvent} (hr : s.resetAsserted = false)
    (hn : s.numContexts ≤ 15) (hc : c < s.numContexts) (hp : s.port = .access (rd (contextBase c + 0x04)) :: rest) :
    step s = .next { s.withPort rest with reads := (s.context c).out :: s.reads } := by
  obtain ⟨-, hout, -, -⟩ := locate_context_registers hc hn
  have h4 : (windowOffset (contextBase c + 0x04)).toNat % 4 = 0 := by
    rw [windowOffset_toNat, contextBase]; omega
  rw [step_read hr h4 hp, readReg_of_locate hout]
  rfl

/-- An evaluation of a context and the read of its `OUT`, from a state with the two at its port. -/
theorem runEvents_evaluate_read {s : State} {c : CtxIndex} {i : Instr} {y : Word} {rest : List PortEvent}
    (hr : s.resetAsserted = false) (hn : s.numContexts ≤ 15) (hc : c.toNat < s.numContexts)
    (wf : i.wellFormed s.numContexts = true) (he : Instr.effect s i = some (c, fun k => k.evaluate y))
    (hp : s.port = .access (cmd i) :: .access (rd (contextBase c.toNat + 0x04)) :: rest) :
    runEvents 2 s = .next { (s.withPort rest).updContext c.toNat (fun k => k.evaluate y) with
      reads := ((s.context c.toNat).evaluate y).out :: s.reads } := by
  rw [runEvents_next (step_cmd hr hc wf he hp), ← context_updContext_same s c.toNat (fun k => k.evaluate y) hc]
  exact runEvents_next (step_read_out (by exact hr) (by simpa using hn) (by simpa using hc) rfl)

/-- A tick out of reset is the evaluation of the sample and the read. -/
theorem tickRun_eq {s : State} {c : CtxIndex} (hr : s.resetAsserted = false) (hn : s.numContexts ≤ 15)
    (hc : c.toNat < s.numContexts) (x : HostSample) : tickRun c x s = .next (s.afterTick c.toNat x) := by
  cases x with
  | integer n =>
    exact runEvents_evaluate_read (s := s.withPort (asEvents (tickAccesses c (.integer n)) ++ s.port)) (i := .evalu c n)
      hr hn hc (decide_eq_true hc) rfl rfl
  | real f =>
    have write : step (s.withPort (asEvents (tickAccesses c (.real f)) ++ s.port)) =
        .next { s.withPort (asEvents [cmd (.evalx c), rd (contextBase c.toNat + 0x04)] ++ s.port) with xin := f } :=
      step_write_located (t := .xin) ⟨hr, rfl, rfl⟩ rfl (by decide)
    refine (runEvents_next write).trans ?_
    exact runEvents_evaluate_read (i := .evalx c) hr hn hc (decide_eq_true hc) rfl rfl

/-- In reset the first access of a tick is refused. -/
theorem tickRun_in_reset {s : State} (hr : s.resetAsserted = true) (c : CtxIndex) (x : HostSample) :
    tickRun c x s = .refused .accessDuringReset := by
  cases x with
  | integer n => exact runEvents_refused (step_access_in_reset (s := s.withPort _) rfl hr)
  | real f => exact runEvents_refused (step_access_in_reset (s := s.withPort _) rfl hr)

/-- The bias by the kind (R652). -/
theorem applyBias_eq (p : Config.HostParams) (kind : Kind) (y : Word) :
    applyBias p kind y = if kind = .hp ∨ kind = .bp then fadd32 y p.dispatchBias else y := by
  cases kind <;> rfl

/-- Settles O58: a tick out of reset ends in `afterTick`. -/
theorem dispatchTickDeliversTheSelectedOutput : Obligations.DispatchTickDeliversTheSelectedOutput := by
  intro p c kind x s hn hc
  refine ⟨fun hr => ?_, fun hr => dispatchTick_refused (tickRun_in_reset hr c x)⟩
  have hctx : (s.afterTick c.toNat x).context c.toNat = (s.context c.toNat).evaluate x.word :=
    context_updContext_same { s with xin := x.xinAfter s.xin } c.toNat _ hc
  refine ⟨_, _, dispatchTick_next (tickRun_eq hr hn hc x), ?_, ?_, ?_, rfl, rfl, rfl, ?_, ?_⟩
  · rintro n rfl
    exact ⟨hctx, rfl⟩
  · rintro f rfl
    exact ⟨hctx, rfl⟩
  · exact fun d hd => context_updContext_ne { s with xin := x.xinAfter s.xin } c.toNat d _ hd
  · rw [hctx]; rfl
  · rw [postProcess, applyBias_eq, hctx]; rfl

end Sys2Proof.Machine
end

section
/-! The designer (R610): the section count (R611), and the words that two kinds of one design share (R630, R640). -/

namespace Sys2Proof.Machine

/-- Settles O56: the formula is the definition, the tables are evaluated, and from order 8 on both quotients are at
least 2. -/
theorem sectionCountTruncatesAndClamps : Obligations.SectionCountTruncatesAndClamps := by
  refine ⟨fun order => ⟨rfl, rfl, rfl, rfl⟩, by decide, by decide, fun order h kind => ?_⟩
  have two : min (order / 2) Config.maxSections = 2 := min_eq_right (show 2 ≤ order / 2 by omega)
  have four : min (order / 4) Config.maxSections = 2 := min_eq_right (show 2 ≤ order / 4 by omega)
  cases kind with
  | lp | hp => exact two
  | bp | bs => exact four

/-! ### The sections of a design -/

/-- A list of optional answers, each through one function, is the list of answers through it. -/
theorem mapM_map_some {α β γ : Type} (g : α → Option β) (f : β → γ) (l : List α) :
    l.mapM (fun a => (g a).map f) = (l.mapM g).map (List.map f) := by
  induction l with
  | nil => rfl
  | cons a l ih =>
    simp only [List.mapM_cons, ih]
    cases g a <;> cases l.mapM g <;> rfl

/-- The pole terms of `n` sections, section 0 first (R620). -/
def poleTerms (fuel n : Nat) : Option (List Word) := (List.range n).mapM (poleTerm fuel n)

/-- The sections of a design are one formula at each pole term. -/
theorem designSections_eq (fuel n : Nat) (mk : Word → Coeffs) :
    designSections fuel n mk = (poleTerms fuel n).map (List.map mk) := mapM_map_some _ _ _

/-- A list of optional answers has one answer for each argument. -/
theorem length_of_mapM_eq_some {α β : Type} {g : α → Option β} {l : List α} {r : List β} (h : l.mapM g = some r) :
    r.length = l.length := by
  induction l generalizing r with
  | nil => cases h; rfl
  | cons a l ih =>
    simp only [List.mapM_cons, Option.bind_eq_bind, Option.bind_eq_some_iff, Option.pure_def, Option.some.injEq] at h
    obtain ⟨b, -, bs, hbs, rfl⟩ := h
    rw [List.length_cons, List.length_cons, ih hbs]

theorem poleTerms_length {fuel n : Nat} {rs : List Word} (h : poleTerms fuel n = some rs) : rs.length = n :=
  (length_of_mapM_eq_some h).trans List.length_range

/-- The sections of an `LP` or `HP` design (R620, R630). -/
theorem designLPHP_secs {p : Config.HostParams} {fuel order : Nat} {kind : Kind} {fs f : Word} {d : Design}
    (h : designLPHP p fuel kind order fs f = some d) :
    ∃ a rs, htan p fuel (angle f fs) = some a ∧ poleTerms fuel (sectionCount kind order) = some rs ∧
      d.secs = rs.map (coeffsLPHP kind a) := by
  simp only [designLPHP, designSections_eq, Option.bind_eq_some_iff, Option.map_map, Option.map_eq_some_iff] at h
  obtain ⟨a, ha, rs, hrs, rfl⟩ := h
  exact ⟨a, rs, ha, hrs, rfl⟩

/-- The sections of a `BP` or `BS` design (R640): one centre mapping and one bandwidth term for both kinds. -/
theorem designBPBS_secs {p : Config.HostParams} {fuel order : Nat} {kind : Kind} {fs fl fu : Word} {d : Design}
    (h : designBPBS p fuel kind order fs fl fu = some d) :
    ∃ num den b rs, hcos fuel (angle (fadd32 fu fl) fs) = some num ∧ hcos fuel (angle (fsub32 fu fl) fs) = some den ∧
      htan p fuel (angle (fsub32 fu fl) fs) = some b ∧ poleTerms fuel (sectionCount kind order) = some rs ∧
      d.secs = rs.map (coeffsBPBS kind (fdiv32 num den) b) := by
  simp only [designBPBS, designSections_eq, Option.bind_eq_some_iff, Option.map_map, Option.map_eq_some_iff] at h
  obtain ⟨num, hnum, den, hden, b, hb, rs, hrs, rfl⟩ := h
  refine ⟨num, den, b, rs, hnum, hden, hb, hrs, ?_⟩
  dsimp only [Function.comp]
  split <;> rfl

/-- Designs whose sections are two formulas at the same pole terms have as many sections, and share what the formulas
share. -/
theorem sections_share_feedback {rs : List Word} {mk mk' : Word → Coeffs} {d e : Design} {n : Nat}
    (hn : rs.length = n) (hd : d.secs = rs.map mk) (he : e.secs = rs.map mk')
    (h : ∀ r, (mk r).d1 = (mk' r).d1 ∧ (mk r).d2 = (mk' r).d2 ∧ (mk r).d3 = (mk' r).d3 ∧ (mk r).d4 = (mk' r).d4) :
    d.secs.length = n ∧ e.secs.length = d.secs.length ∧
      ∀ (i : Nat) (x y : Coeffs), d.secs[i]? = some x → e.secs[i]? = some y →
        x.d1 = y.d1 ∧ x.d2 = y.d2 ∧ x.d3 = y.d3 ∧ x.d4 = y.d4 := by
  refine ⟨by simp [hd, hn], by simp [hd, he], fun i x y hx hy => ?_⟩
  rw [hd, List.getElem?_map, Option.map_eq_some_iff] at hx
  rw [he, List.getElem?_map, Option.map_eq_some_iff] at hy
  obtain ⟨r, hr, rfl⟩ := hx
  obtain ⟨r', hr', rfl⟩ := hy
  obtain rfl : r = r' := Option.some.inj (hr.symm.trans hr')
  exact h r

/-- Settles O55: the kind chooses the numerator alone, and the preconditions of paired kinds are one. -/
theorem pairedDesignsShareTheirFeedback : Obligations.PairedDesignsShareTheirFeedback := by
  intro p fuel i a b d e hab hv hd he
  rcases hab with ⟨rfl, rfl⟩ | ⟨rfl, rfl⟩
  · have hv' : ({ i with kind := .hp } : DesignInput).valid = true := hv
    rw [DesignInput.design, if_pos hv] at hd
    rw [DesignInput.design, if_pos hv'] at he
    obtain ⟨a, rs, ha, hrs, hsecs⟩ := designLPHP_secs hd
    obtain ⟨a', rs', ha', hrs', hsecs'⟩ := designLPHP_secs he
    obtain rfl : a = a' := Option.some.inj (ha.symm.trans ha')
    obtain rfl : rs = rs' := Option.some.inj (hrs.symm.trans hrs')
    exact sections_share_feedback (poleTerms_length hrs) hsecs hsecs' fun _ => ⟨rfl, rfl, rfl, rfl⟩
  · have hv' : ({ i with kind := .bs } : DesignInput).valid = true := hv
    rw [DesignInput.design, if_pos hv] at hd
    rw [DesignInput.design, if_pos hv'] at he
    obtain ⟨num, den, b, rs, hnum, hden, hb, hrs, hsecs⟩ := designBPBS_secs hd
    obtain ⟨num', den', b', rs', hnum', hden', hb', hrs', hsecs'⟩ := designBPBS_secs he
    obtain rfl : num = num' := Option.some.inj (hnum.symm.trans hnum')
    obtain rfl : den = den' := Option.some.inj (hden.symm.trans hden')
    obtain rfl : b = b' := Option.some.inj (hb.symm.trans hb')
    obtain rfl : rs = rs' := Option.some.inj (hrs.symm.trans hrs')
    exact sections_share_feedback (poleTerms_length hrs) hsecs hsecs' fun _ => ⟨rfl, rfl, rfl, rfl⟩

end Sys2Proof.Machine
end

section
/-! The kernels without rounding: their difference equation (R580) and their gain at `z` = 1 (R581). -/

namespace Sys2Proof.Machine

/-! ### The transfer function -/

/-- The mix of a kind weighs the new `w0` and the delay registers by the numerator of R580. -/
theorem mix_eq_numerator (kind : Kind) (r s : ℚ) (k : IdealSection) (w0 : ℚ) :
    k.mix kind r s w0 =
      k.a * ((idealNumerator kind r s).1 * w0 + (idealNumerator kind r s).2.1 * k.w1 +
        (idealNumerator kind r s).2.2.1 * k.w2 + (idealNumerator kind r s).2.2.2.1 * k.w3 +
        (idealNumerator kind r s).2.2.2.2 * k.w4) := by
  cases kind with
  | lp => simp only [IdealSection.mix, idealNumerator]; ring
  | hp => simp only [IdealSection.mix, idealNumerator]; ring
  | bp => simp only [IdealSection.mix, idealNumerator]; ring
  | bs => simp only [IdealSection.mix, idealNumerator]; ring

/-- From any delay state, the outputs of a section satisfy the difference equation from the fifth sample on: by then all
that the equation reads is in the sequence. -/
theorem outputs_difference_equation (kind : Kind) (r s : ℚ) (n : Nat) :
    ∀ (k : IdealSection) (v : List ℚ), n + 4 < v.length →
      let y := IdealSection.outputs kind r s k v
      let c := idealNumerator kind r s
      y.getD (n + 4) 0 =
        k.d1 * y.getD (n + 3) 0 + k.d2 * y.getD (n + 2) 0 + k.d3 * y.getD (n + 1) 0 + k.d4 * y.getD n 0 +
          k.a * (c.1 * v.getD (n + 4) 0 + c.2.1 * v.getD (n + 3) 0 + c.2.2.1 * v.getD (n + 2) 0 +
            c.2.2.2.1 * v.getD (n + 1) 0 + c.2.2.2.2 * v.getD n 0) := by
  induction n with
  | zero =>
    intro k v hv
    match v with
    | v0 :: v1 :: v2 :: v3 :: v4 :: vs =>
      simp only [IdealSection.outputs, IdealSection.run, mix_eq_numerator, IdealSection.feedback, List.getD_cons_succ,
        List.getD_cons_zero]
      ring
  | succ n ih =>
    intro k v hv
    match v with
    | v0 :: vs =>
      rw [List.length_cons] at hv
      exact ih (k.run kind r s v0).1 vs (by omega)

/-- A zero sample leaves a fresh section fresh, and answers zero. -/
theorem outputs_fresh_zero (kind : Kind) (r s a d1 d2 d3 d4 : ℚ) (v : List ℚ) :
    IdealSection.outputs kind r s (IdealSection.fresh a d1 d2 d3 d4) (0 :: v) =
      0 :: IdealSection.outputs kind r s (IdealSection.fresh a d1 d2 d3 d4) v := by
  simp [IdealSection.outputs, IdealSection.run, mix_eq_numerator, IdealSection.feedback, IdealSection.fresh]

/-- A sequence before its start reads as the zeros put before it. -/
theorem delayed_eq_padded (l : List ℚ) (n j : Nat) :
    delayed l n j = (0 :: 0 :: 0 :: 0 :: l).getD (n + 4 - j) 0 := by
  unfold delayed
  by_cases h : j ≤ n
  · rw [if_pos h, show n + 4 - j = n - j + 4 by omega]
    rfl
  · rw [if_neg h]
    have before : n + 4 - j < 4 := by omega
    generalize n + 4 - j = m at before
    interval_cases m <;> rfl

/-- Settles O59: the outputs after four zero samples are four zeros and the outputs, so the equation holds from the first
sample on. -/
theorem idealOutputsSatisfyTheTransferFunction : Obligations.IdealOutputsSatisfyTheTransferFunction := by
  intro kind r s a d1 d2 d3 d4 v n hn
  have h := outputs_difference_equation kind r s n (IdealSection.fresh a d1 d2 d3 d4) (0 :: 0 :: 0 :: 0 :: v)
    (by simp only [List.length_cons]; omega)
  simp only [outputs_fresh_zero] at h
  simp only [delayed_eq_padded]
  exact h

/-! ### The gain at `z` = 1 -/

/-- The denominator at `z` = 1 of an `LP` or `HP` section (R620, R630). -/
theorem lphp_denominator {a r sv : ℚ} (h0 : sv ≠ 0) (h : a ^ 2 + 2 * a * r + 1 = sv) :
    1 - 2 * (1 - a ^ 2) / sv - -(a ^ 2 - 2 * a * r + 1) / sv = 4 * a ^ 2 / sv := by
  field_simp
  linear_combination -h

/-- The denominator at `z` = 1 of a `BP` or `BS` section (R640). -/
theorem bpbs_denominator {a b r sv : ℚ} (h0 : sv ≠ 0) (h : b ^ 2 + 2 * b * r + 1 = sv) :
    1 - 4 * a * (1 + b * r) / sv - 2 * (b ^ 2 - 2 * a ^ 2 - 1) / sv - 4 * a * (1 - b * r) / sv -
        -(b ^ 2 - 2 * b * r + 1) / sv = 4 * (1 - a) ^ 2 / sv := by
  field_simp
  linear_combination -h

/-- Settles O60: the numerators of `HP` and `BP` vanish at `z` = 1, those of `LP` and `BS` are their denominators. -/
theorem idealDesignedDcGain : Obligations.IdealDesignedDcGain := by
  intro a b r
  constructor
  · intro ha hsv
    generalize hs : a ^ 2 + 2 * a * r + 1 = sv at hsv ⊢
    refine ⟨?_, by norm_num [idealDcGain, idealNumerator]⟩
    simp only [idealDcGain, idealNumerator, sub_zero, add_zero, lphp_denominator hsv hs]
    field_simp
    norm_num
  · intro ha hsv
    generalize hs : b ^ 2 + 2 * b * r + 1 = sv at hsv ⊢
    have ha' : 1 - a ≠ 0 := sub_ne_zero.mpr (Ne.symm ha)
    refine ⟨by norm_num [idealDcGain, idealNumerator], ?_⟩
    simp only [idealDcGain, idealNumerator, bpbs_denominator hsv hs]
    field_simp
    ring

end Sys2Proof.Machine
end
